-- ==== Sys2Proof/Word.lean ====
section
/-! DEFINITION. The three register widths of the block: a byte lane, a half-word and a whole register. -/

namespace Sys2Proof

/-- One byte lane of a register, or one byte of a transaction. -/
abbrev Byte := BitVec 8

/-- Half of a register, the unit of CS_RD16 and CS_WR16. -/
abbrev Half := BitVec 16

/-- One configuration register, and the width of `config_address` (`REG_WIDTH` of rule R10). -/
abbrev Dword := BitVec 32

end Sys2Proof
end

