-- ==== Sys2Proof/Config.lean ====
section
/-! DEFINITION. The parameters of rules R10 and R11: the values the source fixes, and, with no body, the ones it
leaves OPEN, so that a statement holds whatever they are. -/

namespace Sys2Proof

/-- The header type and the arguments of a function constructor, without the function number: what the OPEN
parameters `HOST_BRIDGE_ARGS` and `DUMMY_FN_ARGS` select (92_eei_decisions.md D10 and D11). -/
inductive HeaderArgs where
  | type0 (vendor device : Half) (base sub progif rev : Byte) (ssvid ssid : Half)
  | type1 (vendor device : Half) (base sub progif rev : Byte)
deriving DecidableEq, Repr, Inhabited

namespace Config

/-- `NREG` of rule R10: registers of one function's ConfigurationSpace. -/
abbrev registerCount : Nat := 1024

/-- `HDR_REGS` of rule R10: dwords of the header region, 0 to 15. -/
def headerRegisters : Nat := 16

/-- `DEVSPEC_REGS` of rule R10: dwords of the device-specific region, 16 to 63. -/
def deviceRegisters : Nat := 48

/-- `EXT_REGS` of rule R10: dwords of the extended region, 64 to 1023. -/
def extendedRegisters : Nat := 960

/-- `GUEST_REGS` of rule R10: register indices that `config_address` can name. -/
def guestRegisterCount : Nat := 64

/-- `MAX_FUNCTION_NUMBER` of rule R10: function numbers lie below it. -/
def maxFunctionNumber : Nat := 8

/-- `MAX_DEVICE_NUMBER` of rule R10: device numbers lie below it. -/
def maxDeviceNumber : Nat := 32

/-- `MAX_BUS_NUMBER` of rule R10: bus numbers lie below it. -/
def maxBusNumber : Nat := 256

/-- `WINDOW_BASE` of rule R10: the guest I/O port of window offset 0. -/
def windowBase : Nat := 0xCF8

/-- `WINDOW_SIZE` of rule R10: the bytes of the window. -/
def windowSize : Nat := 8

/-- `SUBWINDOW_SIZE` of rule R10: the bytes of the address and of the data sub-window. -/
def subwindowSize : Nat := 4

/-- `CONFIG_ADDRESS_RESET`, decided by the spec (rule R11, 92_eei_decisions.md D2). -/
def configAddressReset : Dword := 0x00000000#32

/-- OPEN `HOST_BRIDGE_ARGS` (rule R11, D10): the constructor of the host bridge at bus 0, device 0, function 0. -/
opaque hostBridgeArgs : HeaderArgs

/-- OPEN `DUMMY_FN_ARGS` (rule R11, D11): the constructor of a pre-populated device's function 0. -/
opaque dummyFnArgs : HeaderArgs

/-- OPEN `T1_DWORD8_INIT` (rule R11, D13): dword 8 after a Type-1 constructor. -/
opaque t1Dword8Init : Dword

/-- OPEN `T1_DWORD15_INIT` (rule R11, D13): dword 15 after a Type-1 constructor. -/
opaque t1Dword15Init : Dword

/-- How many guest agents there are beyond the first, see `guestCount`. -/
opaque furtherGuests : Nat

/-- OPEN `N_GUEST` (rule R11, D1): the number of guest agents, at least 1. -/
def guestCount : Nat := furtherGuests + 1

end Config

end Sys2Proof
end

