-- ==== Sys2Proof/Syntax.lean ====
section
/-! DEFINITION. The operations of the block, one constructor for each row of the opcode table, the names a host
operation gives to nodes, and the form in which an agent presents an operation. -/

namespace Sys2Proof

/-- The name of a Bus node (rules R17, R63, R94): the node its path starts from, Bus 0 of the block (`none`) or a
detached bus the host holds under a name (`some h`, rules R38 and R182; the model's choice, log 9), and the path of bus numbers from it. -/
structure BusRef where
  base : Option Nat
  path : List Nat
deriving DecidableEq, Repr

/-- A Device target (rule R94): a node named by its bus and its number, or a detached device the host holds. That the
bus may be a detached one is the model's choice (log 9). -/
inductive DevRef where
  | node (bus : BusRef) (d : Nat)
  | held (h : Nat)
deriving DecidableEq, Repr

/-- A Function target (rule R94): function `f` of a Device that has a name, or a detached function. In the block's own
tree the first is rule R94's `(p, d, f)`. That a function inside a detached device, or below a detached bus, has a
name is the model's choice: rules R38 and R94 leave it open (DESIGN CHOICE, log 9). -/
inductive FnRef where
  | inDev (dev : DevRef) (f : Nat)
  | held (h : Nat)
deriving DecidableEq, Repr

/-- The Function value an add inserts: one the host holds, or, as rule R107 writes it, the result of a constructor
call that stands as the operand. -/
inductive FnSrc where
  | held (h : Nat)
  | made (n : Nat) (args : HeaderArgs)
deriving DecidableEq, Repr

/-- The Device value an add inserts: one the host holds, `DEV_NEW(n)` or `DEV_NEW_DUMMY(n)` (rule R107). -/
inductive DevSrc where
  | held (h : Nat)
  | made (n : Nat)
  | madeDummy (n : Nat)
deriving DecidableEq, Repr

/-- The Bus value an add inserts: one the host holds, or `BUS_NEW(n)` (rule R107). -/
inductive BusSrc where
  | held (h : Nat)
  | made (n : Nat)
deriving DecidableEq, Repr

/-- The operations of the block (rules R100 and R101). `k` is an offset inside a sub-window: the window offset is
`k` for a CFGADDR row and `4 + k` for a CFGDATA row, and its type is the row's guard. `dst` is the name under
which the host keeps the node an operation returns to it (rule R38); `src` is the node an add inserts. -/
inductive Instr where
  | cfgAddrRd8 (k : Fin 4)
  | cfgAddrRd16 (k : Fin 3)
  | cfgAddrRd24 (k : Fin 2)
  | cfgAddrRd32
  | cfgAddrWr8 (k : Fin 4) (v : Byte)
  | cfgAddrWr16 (k : Fin 3) (v0 v1 : Byte)
  | cfgAddrWr24 (k : Fin 2) (v0 v1 v2 : Byte)
  | cfgAddrWr32 (v0 v1 v2 v3 : Byte)
  | cfgDataRd8 (k : Fin 4)
  | cfgDataRd16 (k : Fin 3)
  | cfgDataRd24 (k : Fin 2)
  | cfgDataRd32
  | cfgDataWr8 (k : Fin 4) (v : Byte)
  | cfgDataWr16 (k : Fin 3) (v0 v1 : Byte)
  | cfgDataWr24 (k : Fin 2) (v0 v1 v2 : Byte)
  | cfgDataWr32 (v0 v1 v2 v3 : Byte)
  | portRdBad (o n : Nat)
  | portWrBad (o : Nat) (data : List Byte)
  | rcNew
  | fnNewT0 (dst n : Nat) (vendor device : Half) (base sub progif rev : Byte) (ssvid ssid : Half)
  | fnNewT1 (dst n : Nat) (vendor device : Half) (base sub progif rev : Byte)
  | devNew (dst n : Nat)
  | devNewDummy (dst n : Nat)
  | busNew (dst n : Nat)
  | csRd8 (target : FnRef) (r o : Nat)
  | csWr8 (target : FnRef) (r o : Nat) (v : Byte)
  | csRd16 (target : FnRef) (r h : Nat)
  | csWr16 (target : FnRef) (r h : Nat) (v : Half)
  | csRd32 (target : FnRef) (r : Nat)
  | csWr32 (target : FnRef) (r : Nat) (v : Dword)
  | devAddFn (target : DevRef) (src : FnSrc)
  | devGetFn (target : DevRef) (f : Nat)
  | devRemoveFn (target : DevRef) (f dst : Nat)
  | devRd (target : DevRef) (f r : Nat)
  | devWr (target : DevRef) (f r o : Nat) (data : List Byte)
  | busAddBus (p : BusRef) (src : BusSrc)
  | busAddDev (p : BusRef) (src : DevSrc)
  | busGetBus (p : BusRef) (b : Nat)
  | busGetDev (p : BusRef) (d : Nat)
  | busRemoveBus (p : BusRef) (b dst : Nat)
  | busRemoveDev (p : BusRef) (d dst : Nat)
  | busRd (p : BusRef) (b d f r : Nat)
  | busWr (p : BusRef) (b d f r o : Nat) (data : List Byte)
  | rcSetAddr (o : Nat) (data : List Byte)
  | rcParseAddr
  | rcReadSpace
  | rcWriteSpace (o : Nat) (data : List Byte)
deriving DecidableEq, Repr

/-- Who issues an operation (rule R281): one of the guest agents (rule R283), or the host. -/
inductive Agent where
  | guest (i : Nat)
  | host
deriving DecidableEq, Repr

/-- An operation as it is handed to the block: a port read or write as the dispatcher delivers it (rules R91 and
R252), or a 16-bit descriptor (rule R98) followed by its operands: the data bytes of a write in transfer order, or
the operands of a host call (rule R93) as natural numbers. -/
inductive Op where
  | read (o n : Nat)
  | write (o : Nat) (data : List Byte)
  | coded (D : BitVec 16) (operands : List Nat)
deriving DecidableEq, Repr

/-- One operation an agent has presented and the block has not yet performed. -/
structure Request where
  agent : Agent
  op : Op
deriving DecidableEq, Repr

end Sys2Proof
end

