-- ==== Sys2Proof/WellFormed.lean ====
section
/-! DEFINITION. The well-shaped test of a guest span, and which terms of `Instr` are operations of the block. -/

namespace Sys2Proof

/-- `WS(o, n)` of rule R67 and 44_port_transactions.md: at least one byte, inside the window, inside one
sub-window. -/
def wellShaped (o n : Nat) : Bool :=
  decide (1 ≤ n) && decide (o + n ≤ Config.windowSize) &&
    decide (o / Config.subwindowSize = (o + n - 1) / Config.subwindowSize)

/-- The operand checks of a row that its operand types do not make: the two malformed rows take exactly the
spans that are not well-shaped (rules R248 and R249). -/
def Instr.wellFormed : Instr → Bool
  | .portRdBad o n => !wellShaped o n
  | .portWrBad o data => !wellShaped o data.length
  | .cfgAddrRd8 _ | .cfgAddrRd16 _ | .cfgAddrRd24 _ | .cfgAddrRd32 => true
  | .cfgAddrWr8 .. | .cfgAddrWr16 .. | .cfgAddrWr24 .. | .cfgAddrWr32 .. => true
  | .cfgDataRd8 _ | .cfgDataRd16 _ | .cfgDataRd24 _ | .cfgDataRd32 => true
  | .cfgDataWr8 .. | .cfgDataWr16 .. | .cfgDataWr24 .. | .cfgDataWr32 .. => true
  | .rcNew | .fnNewT0 .. | .fnNewT1 .. | .devNew .. | .devNewDummy .. | .busNew .. => true
  | .csRd8 .. | .csWr8 .. | .csRd16 .. | .csWr16 .. | .csRd32 .. | .csWr32 .. => true
  | .devAddFn .. | .devGetFn .. | .devRemoveFn .. | .devRd .. | .devWr .. => true
  | .busAddBus .. | .busAddDev .. | .busGetBus .. | .busGetDev .. => true
  | .busRemoveBus .. | .busRemoveDev .. | .busRd .. | .busWr .. => true
  | .rcSetAddr .. | .rcParseAddr | .rcReadSpace | .rcWriteSpace .. => true

/-- Whether an operation is a guest port transaction (classes 00 and 01 of rule R98) and not a host operation. -/
def Instr.isGuest : Instr → Bool
  | .cfgAddrRd8 _ | .cfgAddrRd16 _ | .cfgAddrRd24 _ | .cfgAddrRd32 => true
  | .cfgAddrWr8 .. | .cfgAddrWr16 .. | .cfgAddrWr24 .. | .cfgAddrWr32 .. => true
  | .cfgDataRd8 _ | .cfgDataRd16 _ | .cfgDataRd24 _ | .cfgDataRd32 => true
  | .cfgDataWr8 .. | .cfgDataWr16 .. | .cfgDataWr24 .. | .cfgDataWr32 .. => true
  | .portRdBad .. | .portWrBad .. => true
  | .rcNew | .fnNewT0 .. | .fnNewT1 .. | .devNew .. | .devNewDummy .. | .busNew .. => false
  | .csRd8 .. | .csWr8 .. | .csRd16 .. | .csWr16 .. | .csRd32 .. | .csWr32 .. => false
  | .devAddFn .. | .devGetFn .. | .devRemoveFn .. | .devRd .. | .devWr .. => false
  | .busAddBus .. | .busAddDev .. | .busGetBus .. | .busGetDev .. => false
  | .busRemoveBus .. | .busRemoveDev .. | .busRd .. | .busWr .. => false
  | .rcSetAddr .. | .rcParseAddr | .rcReadSpace | .rcWriteSpace .. => false

end Sys2Proof
end

