-- ==== Sys2Proof/Decode.lean ====
section
/-! DEFINITION. The operation descriptor: its layout (rule R98), the opcode map as data (rules R100 and R101), the
decoder of a presented operation, and after it the encoder. The descriptor is the spec's own notation; the form of
the operands that follow it is the model's (log 6). -/

namespace Sys2Proof

/-- Why a presented operation names no operation of the block (rules R99 and R103). -/
inductive DecodeError where
  /-- class `11` of rule R98 -/
  | reservedClass
  /-- a descriptor with a bit set that rule R98 says must be zero -/
  | reservedBits
  /-- a host operation code that no row of rule R101 assigns -/
  | unassignedCode
  /-- the operands after the descriptor are not an operand list of its row (log 6) -/
  | badOperands
deriving DecidableEq, Repr

/-! ## The opcode map as the spec tabulates it -/

/-- One row of the opcode map. `maxOffset` is the row's guard `o mod 4 ≤ maxOffset` (3 where the row has none). -/
structure OpcodeRow where
  mnemonic : String
  pattern : BitVec 16
  mask : BitVec 16
  maxOffset : Nat
deriving DecidableEq, Repr

/-- The guest rows in decode order (rule R100). -/
def guestRows : List OpcodeRow :=
  [⟨"CFGADDR_RD8", 0x0100, 0xFFFC, 3⟩, ⟨"CFGADDR_RD16", 0x0200, 0xFFFC, 2⟩, ⟨"CFGADDR_RD24", 0x0300, 0xFFFC, 1⟩,
   ⟨"CFGADDR_RD32", 0x0400, 0xFFFF, 3⟩, ⟨"CFGADDR_WR8", 0x4100, 0xFFFC, 3⟩, ⟨"CFGADDR_WR16", 0x4200, 0xFFFC, 2⟩,
   ⟨"CFGADDR_WR24", 0x4300, 0xFFFC, 1⟩, ⟨"CFGADDR_WR32", 0x4400, 0xFFFF, 3⟩, ⟨"CFGDATA_RD8", 0x0104, 0xFFFC, 3⟩,
   ⟨"CFGDATA_RD16", 0x0204, 0xFFFC, 2⟩, ⟨"CFGDATA_RD24", 0x0304, 0xFFFC, 1⟩, ⟨"CFGDATA_RD32", 0x0404, 0xFFFF, 3⟩,
   ⟨"CFGDATA_WR8", 0x4104, 0xFFFC, 3⟩, ⟨"CFGDATA_WR16", 0x4204, 0xFFFC, 2⟩, ⟨"CFGDATA_WR24", 0x4304, 0xFFFC, 1⟩,
   ⟨"CFGDATA_WR32", 0x4404, 0xFFFF, 3⟩, ⟨"PORT_RD_BAD", 0x0000, 0xF000, 3⟩, ⟨"PORT_WR_BAD", 0x4000, 0xF000, 3⟩]

/-- The host rows: operation code and mnemonic (rule R101). -/
def hostCodes : List (BitVec 16 × String) :=
  [(0x01, "RC_NEW"), (0x02, "FN_NEW_T0"), (0x03, "FN_NEW_T1"), (0x04, "DEV_NEW"), (0x05, "DEV_NEW_DUMMY"),
   (0x06, "BUS_NEW"), (0x10, "CS_RD8"), (0x11, "CS_WR8"), (0x12, "CS_RD16"), (0x13, "CS_WR16"), (0x14, "CS_RD32"),
   (0x15, "CS_WR32"), (0x20, "DEV_ADD_FN"), (0x21, "DEV_GET_FN"), (0x22, "DEV_REMOVE_FN"), (0x23, "DEV_RD"),
   (0x24, "DEV_WR"), (0x30, "BUS_ADD_BUS"), (0x31, "BUS_ADD_DEV"), (0x32, "BUS_GET_BUS"), (0x33, "BUS_GET_DEV"),
   (0x34, "BUS_REMOVE_BUS"), (0x35, "BUS_REMOVE_DEV"), (0x36, "BUS_RD"), (0x37, "BUS_WR"), (0x40, "RC_SET_ADDR"),
   (0x41, "RC_PARSE_ADDR"), (0x42, "RC_READ_SPACE"), (0x43, "RC_WRITE_SPACE")]

/-- All 47 rows of the opcode map, in table order. -/
def opcodeRows : List OpcodeRow :=
  guestRows ++ hostCodes.map (fun c => ⟨c.2, 0x8000#16 ||| c.1, 0xFFFF, 3⟩)

/-- The row that takes descriptor `D`: the first that matches and whose guard holds (rule R99). -/
def rowOf (D : BitVec 16) : Option OpcodeRow :=
  opcodeRows.find? (fun row => decide (D &&& row.mask = row.pattern) && decide (D.toNat % 4 ≤ row.maxOffset))

/-- The mnemonic of an operation's row in the opcode table. -/
def Instr.mnemonic : Instr → String
  | .cfgAddrRd8 _ => "CFGADDR_RD8"
  | .cfgAddrRd16 _ => "CFGADDR_RD16"
  | .cfgAddrRd24 _ => "CFGADDR_RD24"
  | .cfgAddrRd32 => "CFGADDR_RD32"
  | .cfgAddrWr8 .. => "CFGADDR_WR8"
  | .cfgAddrWr16 .. => "CFGADDR_WR16"
  | .cfgAddrWr24 .. => "CFGADDR_WR24"
  | .cfgAddrWr32 .. => "CFGADDR_WR32"
  | .cfgDataRd8 _ => "CFGDATA_RD8"
  | .cfgDataRd16 _ => "CFGDATA_RD16"
  | .cfgDataRd24 _ => "CFGDATA_RD24"
  | .cfgDataRd32 => "CFGDATA_RD32"
  | .cfgDataWr8 .. => "CFGDATA_WR8"
  | .cfgDataWr16 .. => "CFGDATA_WR16"
  | .cfgDataWr24 .. => "CFGDATA_WR24"
  | .cfgDataWr32 .. => "CFGDATA_WR32"
  | .portRdBad .. => "PORT_RD_BAD"
  | .portWrBad .. => "PORT_WR_BAD"
  | .rcNew => "RC_NEW"
  | .fnNewT0 .. => "FN_NEW_T0"
  | .fnNewT1 .. => "FN_NEW_T1"
  | .devNew .. => "DEV_NEW"
  | .devNewDummy .. => "DEV_NEW_DUMMY"
  | .busNew .. => "BUS_NEW"
  | .csRd8 .. => "CS_RD8"
  | .csWr8 .. => "CS_WR8"
  | .csRd16 .. => "CS_RD16"
  | .csWr16 .. => "CS_WR16"
  | .csRd32 .. => "CS_RD32"
  | .csWr32 .. => "CS_WR32"
  | .devAddFn .. => "DEV_ADD_FN"
  | .devGetFn .. => "DEV_GET_FN"
  | .devRemoveFn .. => "DEV_REMOVE_FN"
  | .devRd .. => "DEV_RD"
  | .devWr .. => "DEV_WR"
  | .busAddBus .. => "BUS_ADD_BUS"
  | .busAddDev .. => "BUS_ADD_DEV"
  | .busGetBus .. => "BUS_GET_BUS"
  | .busGetDev .. => "BUS_GET_DEV"
  | .busRemoveBus .. => "BUS_REMOVE_BUS"
  | .busRemoveDev .. => "BUS_REMOVE_DEV"
  | .busRd .. => "BUS_RD"
  | .busWr .. => "BUS_WR"
  | .rcSetAddr .. => "RC_SET_ADDR"
  | .rcParseAddr => "RC_PARSE_ADDR"
  | .rcReadSpace => "RC_READ_SPACE"
  | .rcWriteSpace .. => "RC_WRITE_SPACE"

/-! ## Reading operands

Each reader takes its operand from the front of the list and gives back the rest, or nothing where the list is too
short or a number does not fit its width (log 6). -/

/-- One natural number: a node number, a register index, a byte offset or a name of the host's (rule R93). -/
def takeNat : List Nat → Option (Nat × List Nat)
  | [] => none
  | x :: rest => some (x, rest)

/-- One value of `w` bits. -/
def takeBits (w : Nat) : List Nat → Option (BitVec w × List Nat)
  | [] => none
  | x :: rest => if x < 2 ^ w then some (BitVec.ofNat w x, rest) else none

/-- `n` values of `w` bits. -/
def takeBitsList (w : Nat) : Nat → List Nat → Option (List (BitVec w) × List Nat)
  | 0, xs => some ([], xs)
  | n + 1, xs => do
    let (v, xs) ← takeBits w xs
    let (vs, xs) ← takeBitsList w n xs
    return (v :: vs, xs)

/-- A byte list: its length, then its bytes. -/
def takeBytes (xs : List Nat) : Option (List Byte × List Nat) := do
  let (n, xs) ← takeNat xs
  takeBitsList 8 n xs

/-- A Bus name: 0 for Bus 0 or `h + 1` for the detached bus `h`, the length of the path, the path. -/
def takeBusRef : List Nat → Option (BusRef × List Nat)
  | base :: n :: xs =>
    if n ≤ xs.length then
      some (⟨match base with | 0 => none | h + 1 => some h, xs.take n⟩, xs.drop n)
    else none
  | _ => none

/-- A Device target: 0, its bus and its number, or `h + 1` for the detached device `h`. -/
def takeDevRef : List Nat → Option (DevRef × List Nat)
  | [] => none
  | 0 :: xs => do
    let (p, xs) ← takeBusRef xs
    let (d, xs) ← takeNat xs
    return (.node p d, xs)
  | (h + 1) :: xs => some (.held h, xs)

/-- A Function target: 0, its Device and its number, or `h + 1` for the detached function `h`. -/
def takeFnRef : List Nat → Option (FnRef × List Nat)
  | [] => none
  | 0 :: xs => do
    let (u, xs) ← takeDevRef xs
    let (f, xs) ← takeNat xs
    return (.inDev u f, xs)
  | (h + 1) :: xs => some (.held h, xs)

/-- The arguments of FN_NEW_T0 after the number, in the order of rule R127. -/
def takeType0 (xs : List Nat) : Option (HeaderArgs × List Nat) := do
  let (vendor, xs) ← takeBits 16 xs
  let (device, xs) ← takeBits 16 xs
  let (base, xs) ← takeBits 8 xs
  let (sub, xs) ← takeBits 8 xs
  let (progif, xs) ← takeBits 8 xs
  let (rev, xs) ← takeBits 8 xs
  let (ssvid, xs) ← takeBits 16 xs
  let (ssid, xs) ← takeBits 16 xs
  return (.type0 vendor device base sub progif rev ssvid ssid, xs)

/-- The arguments of FN_NEW_T1 after the number, in the order of rule R128. -/
def takeType1 (xs : List Nat) : Option (HeaderArgs × List Nat) := do
  let (vendor, xs) ← takeBits 16 xs
  let (device, xs) ← takeBits 16 xs
  let (base, xs) ← takeBits 8 xs
  let (sub, xs) ← takeBits 8 xs
  let (progif, xs) ← takeBits 8 xs
  let (rev, xs) ← takeBits 8 xs
  return (.type1 vendor device base sub progif rev, xs)

/-- A Function value: 0 or 1 and the operands of FN_NEW_T0 or FN_NEW_T1, or `h + 2` for the held function `h`. -/
def takeFnSrc : List Nat → Option (FnSrc × List Nat)
  | [] => none
  | 0 :: xs => do
    let (n, xs) ← takeNat xs
    let (args, xs) ← takeType0 xs
    return (.made n args, xs)
  | 1 :: xs => do
    let (n, xs) ← takeNat xs
    let (args, xs) ← takeType1 xs
    return (.made n args, xs)
  | (h + 2) :: xs => some (.held h, xs)

/-- A Device value: 0 and the number of a DEV_NEW, 1 and the number of a DEV_NEW_DUMMY, or `h + 2` for the held
device `h`. -/
def takeDevSrc : List Nat → Option (DevSrc × List Nat)
  | [] => none
  | 0 :: xs => do
    let (n, xs) ← takeNat xs
    return (.made n, xs)
  | 1 :: xs => do
    let (n, xs) ← takeNat xs
    return (.madeDummy n, xs)
  | (h + 2) :: xs => some (.held h, xs)

/-- A Bus value: 0 and the number of a BUS_NEW, or `h + 1` for the held bus `h`. -/
def takeBusSrc : List Nat → Option (BusSrc × List Nat)
  | [] => none
  | 0 :: xs => do
    let (n, xs) ← takeNat xs
    return (.made n, xs)
  | (h + 1) :: xs => some (.held h, xs)

/-- The end of an operand list: nothing may be left. -/
def finish (i : Instr) : List Nat → Option Instr
  | [] => some i
  | _ :: _ => none

/-! ## The decoder -/

/-- The row of a port read `(RD, o, n)` (rule R100: `o div 4` is the sub-window, the guard is on `o mod 4`). -/
def guestRead (o n : Nat) : Instr :=
  match o / 4, n with
  | 0, 1 => .cfgAddrRd8 ⟨o % 4, Nat.mod_lt o (by decide)⟩
  | 0, 2 => if h : o % 4 < 3 then .cfgAddrRd16 ⟨o % 4, h⟩ else .portRdBad o n
  | 0, 3 => if h : o % 4 < 2 then .cfgAddrRd24 ⟨o % 4, h⟩ else .portRdBad o n
  | 0, 4 => if o % 4 = 0 then .cfgAddrRd32 else .portRdBad o n
  | 1, 1 => .cfgDataRd8 ⟨o % 4, Nat.mod_lt o (by decide)⟩
  | 1, 2 => if h : o % 4 < 3 then .cfgDataRd16 ⟨o % 4, h⟩ else .portRdBad o n
  | 1, 3 => if h : o % 4 < 2 then .cfgDataRd24 ⟨o % 4, h⟩ else .portRdBad o n
  | 1, 4 => if o % 4 = 0 then .cfgDataRd32 else .portRdBad o n
  | _, _ => .portRdBad o n

/-- The row of a port write `(WR, o, data)` (rule R100). -/
def guestWrite (o : Nat) (data : List Byte) : Instr :=
  match o / 4, data with
  | 0, [v] => .cfgAddrWr8 ⟨o % 4, Nat.mod_lt o (by decide)⟩ v
  | 0, [v0, v1] => if h : o % 4 < 3 then .cfgAddrWr16 ⟨o % 4, h⟩ v0 v1 else .portWrBad o data
  | 0, [v0, v1, v2] => if h : o % 4 < 2 then .cfgAddrWr24 ⟨o % 4, h⟩ v0 v1 v2 else .portWrBad o data
  | 0, [v0, v1, v2, v3] => if o % 4 = 0 then .cfgAddrWr32 v0 v1 v2 v3 else .portWrBad o data
  | 1, [v] => .cfgDataWr8 ⟨o % 4, Nat.mod_lt o (by decide)⟩ v
  | 1, [v0, v1] => if h : o % 4 < 3 then .cfgDataWr16 ⟨o % 4, h⟩ v0 v1 else .portWrBad o data
  | 1, [v0, v1, v2] => if h : o % 4 < 2 then .cfgDataWr24 ⟨o % 4, h⟩ v0 v1 v2 else .portWrBad o data
  | 1, [v0, v1, v2, v3] => if o % 4 = 0 then .cfgDataWr32 v0 v1 v2 v3 else .portWrBad o data
  | _, _ => .portWrBad o data

/-- The operands of FN_NEW_T0, after the name the host keeps the result under. -/
def decodeFnNewT0 (xs : List Nat) : Option Instr := do
  let (dst, xs) ← takeNat xs
  let (n, xs) ← takeNat xs
  match ← takeType0 xs with
  | (.type0 vendor device base sub progif rev ssvid ssid, xs) =>
    finish (.fnNewT0 dst n vendor device base sub progif rev ssvid ssid) xs
  | (.type1 .., _) => none

/-- The operands of FN_NEW_T1, after the name the host keeps the result under. -/
def decodeFnNewT1 (xs : List Nat) : Option Instr := do
  let (dst, xs) ← takeNat xs
  let (n, xs) ← takeNat xs
  match ← takeType1 xs with
  | (.type1 vendor device base sub progif rev, xs) =>
    finish (.fnNewT1 dst n vendor device base sub progif rev) xs
  | (.type0 .., _) => none

/-- The two natural operands of DEV_NEW, DEV_NEW_DUMMY and BUS_NEW: the host's name and the node's number. -/
def decodeNew (mk : Nat → Nat → Instr) (xs : List Nat) : Option Instr := do
  let (dst, xs) ← takeNat xs
  let (n, xs) ← takeNat xs
  finish (mk dst n) xs

/-- A Function target and two natural numbers (CS_RD8, CS_RD16). -/
def decodeFnNatNat (mk : FnRef → Nat → Nat → Instr) (xs : List Nat) : Option Instr := do
  let (t, xs) ← takeFnRef xs
  let (r, xs) ← takeNat xs
  let (o, xs) ← takeNat xs
  finish (mk t r o) xs

/-- A Function target, two natural numbers and a value of `w` bits (CS_WR8, CS_WR16). -/
def decodeFnNatNatBits (w : Nat) (mk : FnRef → Nat → Nat → BitVec w → Instr) (xs : List Nat) : Option Instr := do
  let (t, xs) ← takeFnRef xs
  let (r, xs) ← takeNat xs
  let (o, xs) ← takeNat xs
  let (v, xs) ← takeBits w xs
  finish (mk t r o v) xs

/-- The operands of CS_RD32. -/
def decodeCsRd32 (xs : List Nat) : Option Instr := do
  let (t, xs) ← takeFnRef xs
  let (r, xs) ← takeNat xs
  finish (.csRd32 t r) xs

/-- The operands of CS_WR32. -/
def decodeCsWr32 (xs : List Nat) : Option Instr := do
  let (t, xs) ← takeFnRef xs
  let (r, xs) ← takeNat xs
  let (v, xs) ← takeBits 32 xs
  finish (.csWr32 t r v) xs

/-- The operands of DEV_ADD_FN. -/
def decodeDevAddFn (xs : List Nat) : Option Instr := do
  let (t, xs) ← takeDevRef xs
  let (src, xs) ← takeFnSrc xs
  finish (.devAddFn t src) xs

/-- The operands of DEV_GET_FN. -/
def decodeDevGetFn (xs : List Nat) : Option Instr := do
  let (t, xs) ← takeDevRef xs
  let (f, xs) ← takeNat xs
  finish (.devGetFn t f) xs

/-- A Device target and two natural numbers (DEV_REMOVE_FN, DEV_RD). -/
def decodeDevNatNat (mk : DevRef → Nat → Nat → Instr) (xs : List Nat) : Option Instr := do
  let (t, xs) ← takeDevRef xs
  let (f, xs) ← takeNat xs
  let (r, xs) ← takeNat xs
  finish (mk t f r) xs

/-- The operands of DEV_WR. -/
def decodeDevWr (xs : List Nat) : Option Instr := do
  let (t, xs) ← takeDevRef xs
  let (f, xs) ← takeNat xs
  let (r, xs) ← takeNat xs
  let (o, xs) ← takeNat xs
  let (data, xs) ← takeBytes xs
  finish (.devWr t f r o data) xs

/-- The operands of BUS_ADD_BUS. -/
def decodeBusAddBus (xs : List Nat) : Option Instr := do
  let (p, xs) ← takeBusRef xs
  let (src, xs) ← takeBusSrc xs
  finish (.busAddBus p src) xs

/-- The operands of BUS_ADD_DEV. -/
def decodeBusAddDev (xs : List Nat) : Option Instr := do
  let (p, xs) ← takeBusRef xs
  let (src, xs) ← takeDevSrc xs
  finish (.busAddDev p src) xs

/-- A Bus name and one natural number (BUS_GET_BUS, BUS_GET_DEV). -/
def decodeBusNat (mk : BusRef → Nat → Instr) (xs : List Nat) : Option Instr := do
  let (p, xs) ← takeBusRef xs
  let (b, xs) ← takeNat xs
  finish (mk p b) xs

/-- A Bus name and two natural numbers (BUS_REMOVE_BUS, BUS_REMOVE_DEV). -/
def decodeBusNatNat (mk : BusRef → Nat → Nat → Instr) (xs : List Nat) : Option Instr := do
  let (p, xs) ← takeBusRef xs
  let (b, xs) ← takeNat xs
  let (dst, xs) ← takeNat xs
  finish (mk p b dst) xs

/-- The operands of BUS_RD. -/
def decodeBusRd (xs : List Nat) : Option Instr := do
  let (p, xs) ← takeBusRef xs
  let (b, xs) ← takeNat xs
  let (d, xs) ← takeNat xs
  let (f, xs) ← takeNat xs
  let (r, xs) ← takeNat xs
  finish (.busRd p b d f r) xs

/-- The operands of BUS_WR. -/
def decodeBusWr (xs : List Nat) : Option Instr := do
  let (p, xs) ← takeBusRef xs
  let (b, xs) ← takeNat xs
  let (d, xs) ← takeNat xs
  let (f, xs) ← takeNat xs
  let (r, xs) ← takeNat xs
  let (o, xs) ← takeNat xs
  let (data, xs) ← takeBytes xs
  finish (.busWr p b d f r o data) xs

/-- A byte offset and a byte list (RC_SET_ADDR, RC_WRITE_SPACE). -/
def decodeOffsetData (mk : Nat → List Byte → Instr) (xs : List Nat) : Option Instr := do
  let (o, xs) ← takeNat xs
  let (data, xs) ← takeBytes xs
  finish (mk o data) xs

/-- An operand list that does not fit its row. -/
def orBadOperands : Option Instr → Except DecodeError Instr
  | some i => .ok i
  | none => .error .badOperands

/-- The host rows (rule R101): operation code and operands. -/
def decodeHost (code : Nat) (xs : List Nat) : Except DecodeError Instr :=
  match code with
  | 0x01 => orBadOperands (finish .rcNew xs)
  | 0x02 => orBadOperands (decodeFnNewT0 xs)
  | 0x03 => orBadOperands (decodeFnNewT1 xs)
  | 0x04 => orBadOperands (decodeNew .devNew xs)
  | 0x05 => orBadOperands (decodeNew .devNewDummy xs)
  | 0x06 => orBadOperands (decodeNew .busNew xs)
  | 0x10 => orBadOperands (decodeFnNatNat .csRd8 xs)
  | 0x11 => orBadOperands (decodeFnNatNatBits 8 .csWr8 xs)
  | 0x12 => orBadOperands (decodeFnNatNat .csRd16 xs)
  | 0x13 => orBadOperands (decodeFnNatNatBits 16 .csWr16 xs)
  | 0x14 => orBadOperands (decodeCsRd32 xs)
  | 0x15 => orBadOperands (decodeCsWr32 xs)
  | 0x20 => orBadOperands (decodeDevAddFn xs)
  | 0x21 => orBadOperands (decodeDevGetFn xs)
  | 0x22 => orBadOperands (decodeDevNatNat .devRemoveFn xs)
  | 0x23 => orBadOperands (decodeDevNatNat .devRd xs)
  | 0x24 => orBadOperands (decodeDevWr xs)
  | 0x30 => orBadOperands (decodeBusAddBus xs)
  | 0x31 => orBadOperands (decodeBusAddDev xs)
  | 0x32 => orBadOperands (decodeBusNat .busGetBus xs)
  | 0x33 => orBadOperands (decodeBusNat .busGetDev xs)
  | 0x34 => orBadOperands (decodeBusNatNat .busRemoveBus xs)
  | 0x35 => orBadOperands (decodeBusNatNat .busRemoveDev xs)
  | 0x36 => orBadOperands (decodeBusRd xs)
  | 0x37 => orBadOperands (decodeBusWr xs)
  | 0x40 => orBadOperands (decodeOffsetData .rcSetAddr xs)
  | 0x41 => orBadOperands (finish .rcParseAddr xs)
  | 0x42 => orBadOperands (finish .rcReadSpace xs)
  | 0x43 => orBadOperands (decodeOffsetData .rcWriteSpace xs)
  | _ => .error .unassignedCode

/-- The fields of a descriptor (rule R98). -/
def descriptorClass (D : BitVec 16) : Nat := (D.extractLsb' 14 2).toNat
/-- `D[13:12]`, which must be zero in a guest class. -/
def descriptorGuestZero (D : BitVec 16) : Nat := (D.extractLsb' 12 2).toNat
/-- `D[11:8]`, the byte count of a guest class. -/
def descriptorCount (D : BitVec 16) : Nat := (D.extractLsb' 8 4).toNat
/-- `D[7:0]`, the window offset of a guest class and the operation code of the host class. -/
def descriptorLow (D : BitVec 16) : Nat := (D.extractLsb' 0 8).toNat
/-- `D[13:8]`, which must be zero in the host class. -/
def descriptorHostZero (D : BitVec 16) : Nat := (D.extractLsb' 8 6).toNat

/-- A guest read descriptor: it carries no operand word. -/
def decodeGuestRead (D : BitVec 16) (operands : List Nat) : Except DecodeError Instr :=
  if descriptorGuestZero D ≠ 0 then .error .reservedBits
  else orBadOperands (finish (guestRead (descriptorLow D) (descriptorCount D)) operands)

/-- A guest write descriptor: its operands are its `n` data bytes in transfer order. -/
def decodeGuestWrite (D : BitVec 16) (operands : List Nat) : Except DecodeError Instr :=
  if descriptorGuestZero D ≠ 0 then .error .reservedBits
  else orBadOperands (do
    let (data, rest) ← takeBitsList 8 (descriptorCount D) operands
    finish (guestWrite (descriptorLow D) data) rest)

/-- The decoder: total on every presented operation, refusing by name what rule R99 refuses. -/
def decode : Op → Except DecodeError Instr
  | .read o n => .ok (guestRead o n)
  | .write o data => .ok (guestWrite o data)
  | .coded D operands =>
    match descriptorClass D with
    | 0 => decodeGuestRead D operands
    | 1 => decodeGuestWrite D operands
    | 2 => if descriptorHostZero D ≠ 0 then .error .reservedBits else decodeHost (descriptorLow D) operands
    | _ => .error .reservedClass

/-- The fewest operand words of zeros, at most `fuel` beyond `n`, with which a descriptor is an operation: none
for a row with no operands, one per data byte of a guest write, and so on. -/
def zeroOperandsFrom (D : BitVec 16) : Nat → Nat → Option (List Nat)
  | 0, _ => none
  | fuel + 1, n =>
    match decode (.coded D (List.replicate n 0)) with
    | .ok _ => some (List.replicate n 0)
    | .error _ => zeroOperandsFrom D fuel (n + 1)

/-- The operation of an opcode-table word: the descriptor `w` of `nbits` bits followed by operand words of zeros. -/
def tableWordOp (nbits w : Nat) : Op :=
  let D := BitVec.ofNat 16 (w % 2 ^ nbits)
  .coded D ((zeroOperandsFrom D 17 0).getD [])

/-- What the decoder reads from an opcode-table word (`none` where it refuses). -/
def decodeTableWord (nbits w : Nat) : Option Instr :=
  match decode (tableWordOp nbits w) with
  | .ok i => some i
  | .error _ => none

/-! ## The encoder -/

/-- A guest descriptor from its class, byte count and window offset (rule R98). -/
def guestDescriptor (cls n o : Nat) : BitVec 16 :=
  BitVec.ofNat 2 cls ++ 0#2 ++ BitVec.ofNat 4 n ++ BitVec.ofNat 8 o

/-- A port read as an operation: its descriptor where it has one (rule R98), the bare triple otherwise. -/
def encodeRead (o n : Nat) : Op :=
  if o < 256 ∧ n < 16 then .coded (guestDescriptor 0 n o) [] else .read o n

/-- A port write as an operation, its data bytes after the descriptor. -/
def encodeWrite (o : Nat) (data : List Byte) : Op :=
  if o < 256 ∧ data.length < 16 then .coded (guestDescriptor 1 data.length o) (data.map BitVec.toNat)
  else .write o data

/-- A host operation from its code (rule R101) and operands. -/
def encodeHost (code : BitVec 16) (operands : List Nat) : Op := .coded (0x8000#16 ||| code) operands

/-- A Bus name as operands. -/
def putBusRef (p : BusRef) : List Nat :=
  (match p.base with | none => 0 | some h => h + 1) :: p.path.length :: p.path

/-- A Device target as operands. -/
def putDevRef : DevRef → List Nat
  | .node p d => 0 :: (putBusRef p ++ [d])
  | .held h => [h + 1]

/-- A Function target as operands. -/
def putFnRef : FnRef → List Nat
  | .inDev u f => 0 :: (putDevRef u ++ [f])
  | .held h => [h + 1]

/-- The arguments of a function constructor as operands. -/
def putHeaderArgs : HeaderArgs → List Nat
  | .type0 vendor device base sub progif rev ssvid ssid =>
    [vendor.toNat, device.toNat, base.toNat, sub.toNat, progif.toNat, rev.toNat, ssvid.toNat, ssid.toNat]
  | .type1 vendor device base sub progif rev =>
    [vendor.toNat, device.toNat, base.toNat, sub.toNat, progif.toNat, rev.toNat]

/-- A Function value as operands. -/
def putFnSrc : FnSrc → List Nat
  | .held h => [h + 2]
  | .made n (.type0 vendor device base sub progif rev ssvid ssid) =>
    0 :: n :: putHeaderArgs (.type0 vendor device base sub progif rev ssvid ssid)
  | .made n (.type1 vendor device base sub progif rev) =>
    1 :: n :: putHeaderArgs (.type1 vendor device base sub progif rev)

/-- A Device value as operands. -/
def putDevSrc : DevSrc → List Nat
  | .held h => [h + 2]
  | .made n => [0, n]
  | .madeDummy n => [1, n]

/-- A Bus value as operands. -/
def putBusSrc : BusSrc → List Nat
  | .held h => [h + 1]
  | .made n => [0, n]

/-- A byte list as operands. -/
def putBytes (data : List Byte) : List Nat := data.length :: data.map BitVec.toNat

/-- The encoder, from the same tables as the decoder. -/
def encode : Instr → Op
  | .cfgAddrRd8 k => encodeRead k 1
  | .cfgAddrRd16 k => encodeRead k 2
  | .cfgAddrRd24 k => encodeRead k 3
  | .cfgAddrRd32 => encodeRead 0 4
  | .cfgAddrWr8 k v => encodeWrite k [v]
  | .cfgAddrWr16 k v0 v1 => encodeWrite k [v0, v1]
  | .cfgAddrWr24 k v0 v1 v2 => encodeWrite k [v0, v1, v2]
  | .cfgAddrWr32 v0 v1 v2 v3 => encodeWrite 0 [v0, v1, v2, v3]
  | .cfgDataRd8 k => encodeRead (4 + k) 1
  | .cfgDataRd16 k => encodeRead (4 + k) 2
  | .cfgDataRd24 k => encodeRead (4 + k) 3
  | .cfgDataRd32 => encodeRead 4 4
  | .cfgDataWr8 k v => encodeWrite (4 + k) [v]
  | .cfgDataWr16 k v0 v1 => encodeWrite (4 + k) [v0, v1]
  | .cfgDataWr24 k v0 v1 v2 => encodeWrite (4 + k) [v0, v1, v2]
  | .cfgDataWr32 v0 v1 v2 v3 => encodeWrite 4 [v0, v1, v2, v3]
  | .portRdBad o n => encodeRead o n
  | .portWrBad o data => encodeWrite o data
  | .rcNew => encodeHost 0x01 []
  | .fnNewT0 dst n vendor device base sub progif rev ssvid ssid =>
    encodeHost 0x02 (dst :: n :: putHeaderArgs (.type0 vendor device base sub progif rev ssvid ssid))
  | .fnNewT1 dst n vendor device base sub progif rev =>
    encodeHost 0x03 (dst :: n :: putHeaderArgs (.type1 vendor device base sub progif rev))
  | .devNew dst n => encodeHost 0x04 [dst, n]
  | .devNewDummy dst n => encodeHost 0x05 [dst, n]
  | .busNew dst n => encodeHost 0x06 [dst, n]
  | .csRd8 t r o => encodeHost 0x10 (putFnRef t ++ [r, o])
  | .csWr8 t r o v => encodeHost 0x11 (putFnRef t ++ [r, o, v.toNat])
  | .csRd16 t r h => encodeHost 0x12 (putFnRef t ++ [r, h])
  | .csWr16 t r h v => encodeHost 0x13 (putFnRef t ++ [r, h, v.toNat])
  | .csRd32 t r => encodeHost 0x14 (putFnRef t ++ [r])
  | .csWr32 t r v => encodeHost 0x15 (putFnRef t ++ [r, v.toNat])
  | .devAddFn t src => encodeHost 0x20 (putDevRef t ++ putFnSrc src)
  | .devGetFn t f => encodeHost 0x21 (putDevRef t ++ [f])
  | .devRemoveFn t f dst => encodeHost 0x22 (putDevRef t ++ [f, dst])
  | .devRd t f r => encodeHost 0x23 (putDevRef t ++ [f, r])
  | .devWr t f r o data => encodeHost 0x24 (putDevRef t ++ ([f, r, o] ++ putBytes data))
  | .busAddBus p src => encodeHost 0x30 (putBusRef p ++ putBusSrc src)
  | .busAddDev p src => encodeHost 0x31 (putBusRef p ++ putDevSrc src)
  | .busGetBus p b => encodeHost 0x32 (putBusRef p ++ [b])
  | .busGetDev p d => encodeHost 0x33 (putBusRef p ++ [d])
  | .busRemoveBus p b dst => encodeHost 0x34 (putBusRef p ++ [b, dst])
  | .busRemoveDev p d dst => encodeHost 0x35 (putBusRef p ++ [d, dst])
  | .busRd p b d f r => encodeHost 0x36 (putBusRef p ++ [b, d, f, r])
  | .busWr p b d f r o data => encodeHost 0x37 (putBusRef p ++ ([b, d, f, r, o] ++ putBytes data))
  | .rcSetAddr o data => encodeHost 0x40 (o :: putBytes data)
  | .rcParseAddr => encodeHost 0x41 []
  | .rcReadSpace => encodeHost 0x42 []
  | .rcWriteSpace o data => encodeHost 0x43 (o :: putBytes data)

end Sys2Proof
end

