-- ==== Sys2Proof/Machine/Maps.lean ====
section
/-! DEFINITION. Finite maps keyed by a natural number that each entry carries (rules R24, R25 and R28: a map is
"keyed by the child's own declared number"): a list in the one canonical form of strictly rising keys, so that
equal maps are equal data. The same operations serve the trees and the host's held nodes. -/

namespace Sys2Proof.Machine

/-- The entry with key `k`, if the map has one. -/
def mapFind {α : Type} (key : α → Nat) (k : Nat) : List α → Option α
  | [] => none
  | x :: rest => if key x = k then some x else mapFind key k rest

/-- The map with entry `x` under its own key, in place of an entry with that key. -/
def mapInsert {α : Type} (key : α → Nat) (x : α) : List α → List α
  | [] => [x]
  | y :: rest =>
    if key x < key y then x :: y :: rest
    else if key x = key y then x :: rest
    else y :: mapInsert key x rest

/-- The map without key `k`. -/
def mapErase {α : Type} (key : α → Nat) (k : Nat) : List α → List α
  | [] => []
  | x :: rest => if key x = k then mapErase key k rest else x :: mapErase key k rest

/-- The map with the entry of key `k` replaced by its image under `g`. -/
def mapUpdate {α : Type} (key : α → Nat) (k : Nat) (g : α → α) : List α → List α
  | [] => []
  | x :: rest => if key x = k then g x :: rest else x :: mapUpdate key k g rest

/-- The canonical form: keys strictly rising, each below `bound`. -/
def mapWf {α : Type} (key : α → Nat) (bound : Nat) (m : List α) : Bool :=
  decide ((m.map key).Pairwise (· < ·)) && m.all (fun x => decide (key x < bound))

/-- The canonical form of a map whose keys have no bound (the host's names of its held nodes). -/
def mapRising {α : Type} (key : α → Nat) (m : List α) : Bool :=
  decide ((m.map key).Pairwise (· < ·))

end Sys2Proof.Machine
end

