-- ==== Sys2Proof/Machine/Operands.lean ====
section
/-! DEFINITION. Operand assembly: byte lanes and half-words of a register (rule R14), little-endian values (rules
R14, R65 and R96), and the fields of `config_address` (rules R31, R92 and R95). The block has no flags (rule R22),
so there is no file of flag computations. -/

namespace Sys2Proof.Machine

/-- `lane(v, k) = v[8k+7:8k]` (rule R14). -/
def lane (v : Dword) (k : Nat) : Byte := v.extractLsb' (8 * k) 8

/-- `setlane(v, k, b)` (rule R14): clear the lane, then or the byte into it. -/
def setLane (v : Dword) (k : Nat) (b : Byte) : Dword :=
  (v &&& ~~~(0xFF#32 <<< (8 * k))) ||| (b.setWidth 32 <<< (8 * k))

/-- `v[16h+15:16h]` (rule R122). -/
def half (v : Dword) (h : Nat) : Half := v.extractLsb' (16 * h) 16

/-- The half-word write of rule R123: clear the half, then or the value into it. -/
def setHalf (v : Dword) (h : Nat) (x : Half) : Dword :=
  (v &&& ~~~(0xFFFF#32 <<< (16 * h))) ||| (x.setWidth 32 <<< (16 * h))

/-- The lanes `o`, `o + 1`, … of `v` written with `data` in order (the loop of rule R210). -/
def setLanes (v : Dword) (o : Nat) : List Byte → Dword
  | [] => v
  | b :: rest => setLanes (setLane v o b) (o + 1) rest

/-- `LE(b0, b1)` (rule R14). -/
def le16 (b0 b1 : Byte) : Half := b1 ++ b0

/-- `LE(b0, b1, b2, b3)` (rule R14). -/
def le32 (b0 b1 b2 b3 : Byte) : Dword := b3 ++ b2 ++ b1 ++ b0

/-- `bytesLE(v, s, n)`, the list `lane(v, s), …, lane(v, s+n-1)` (rule R14). -/
def bytesLE (v : Dword) (s : Nat) : Nat → List Byte
  | 0 => []
  | n + 1 => lane v s :: bytesLE v (s + 1) n

/-- `CA[31]`, the enable bit (rule R31). -/
def caEnabled (ca : Dword) : Bool := ca.getLsbD 31

/-- `bus = CA[23:16]` (rule R95). -/
def caBus (ca : Dword) : Nat := (ca.extractLsb' 16 8).toNat

/-- `device = CA[15:11]` (rule R95). -/
def caDevice (ca : Dword) : Nat := (ca.extractLsb' 11 5).toNat

/-- `function = CA[10:8]` (rule R95). -/
def caFunction (ca : Dword) : Nat := (ca.extractLsb' 8 3).toNat

/-- `register = CA[7:2]` (rule R95). -/
def caRegister (ca : Dword) : Nat := (ca.extractLsb' 2 6).toNat

/-- The all-ones dword that stands for an absent register (rules R15 and R213). -/
def allOnes : Dword := 0xFFFFFFFF#32

end Sys2Proof.Machine
end

