-- ==== Sys2Proof/Machine/RegFile.lean ====
section
/-! DEFINITION. The register file of one function (rules R27 and R120 to R126) and the headers that the function
constructors write into it (rules R127 and R128). -/

namespace Sys2Proof.Machine

/-- `cs[0..1023]` (rule R27). -/
abbrev ConfigSpace := Vector Dword Config.registerCount

/-- The three fixed regions of a register file (rules R10 and R27). -/
inductive Region where
  | header
  | deviceSpecific
  | extended
deriving DecidableEq, Repr

/-- The region of register `r`, from the region sizes of rule R10; an index past the file is in none. Storage is the
same in all three (rule R33). -/
def registerRegion (r : Nat) : Option Region :=
  if r < Config.headerRegisters then some .header
  else if r < Config.headerRegisters + Config.deviceRegisters then some .deviceSpecific
  else if r < Config.headerRegisters + Config.deviceRegisters + Config.extendedRegisters then some .extended
  else none

/-- `NEW_CS`: every register zero (rule R126). -/
def newSpace : ConfigSpace := Vector.replicate Config.registerCount 0#32

/-- CS_RD32 (rule R124). -/
def csRead32 (cs : ConfigSpace) (r : Nat) : Option Dword := cs[r]?

/-- CS_WR32 (rule R125): an index past the file is dropped. -/
def csWrite32 (cs : ConfigSpace) (r : Nat) (v : Dword) : ConfigSpace := cs.setIfInBounds r v

/-- CS_RD8 (rule R120). -/
def csRead8 (cs : ConfigSpace) (r o : Nat) : Option Byte :=
  if o < 4 then (csRead32 cs r).map (fun v => lane v o) else none

/-- CS_WR8 (rule R121). -/
def csWrite8 (cs : ConfigSpace) (r o : Nat) (b : Byte) : ConfigSpace :=
  match csRead32 cs r with
  | some v => if o < 4 then csWrite32 cs r (setLane v o b) else cs
  | none => cs

/-- CS_RD16 (rule R122); `h` is a half-word index. -/
def csRead16 (cs : ConfigSpace) (r h : Nat) : Option Half :=
  if h < 2 then (csRead32 cs r).map (fun v => half v h) else none

/-- CS_WR16 (rule R123); `h` is a half-word index. -/
def csWrite16 (cs : ConfigSpace) (r h : Nat) (x : Half) : ConfigSpace :=
  match csRead32 cs r with
  | some v => if h < 2 then csWrite32 cs r (setHalf v h x) else cs
  | none => cs

/-- CS_WR8 of each byte in turn, from byte offset `o` (the fallback loop of rule R164). -/
def csWriteBytes (cs : ConfigSpace) (r o : Nat) : List Byte → ConfigSpace
  | [] => cs
  | b :: rest => csWriteBytes (csWrite8 cs r o b) r (o + 1) rest

/-- The dispatch of rule R164 on a function's register file: the guard on offset plus length, then the accessor
that the length selects. -/
def csWriteData (cs : ConfigSpace) (r o : Nat) (data : List Byte) : ConfigSpace :=
  if o + data.length > 4 then cs
  else match data with
    | [v] => csWrite8 cs r o v
    | [v0, v1] => if o % 2 ≠ 0 then cs else csWrite16 cs r (o / 2) (le16 v0 v1)
    | [v0, v1, v2, v3] => csWrite32 cs r (le32 v0 v1 v2 v3)
    | _ => csWriteBytes cs r o data

/-- `device << 16 | vendor`, dword 0 of both header types (rules R127 and R128). -/
def idDword (vendor device : Half) : Dword := (device.setWidth 32 <<< 16) ||| vendor.setWidth 32

/-- `base << 24 | sub << 16 | progif << 8 | rev`, dword 2 of both header types. -/
def classDword (base sub progif rev : Byte) : Dword :=
  (base.setWidth 32 <<< 24) ||| (sub.setWidth 32 <<< 16) ||| (progif.setWidth 32 <<< 8) ||| rev.setWidth 32

/-- The register file FN_NEW_T0 builds, its writes in the order of rule R127. -/
def type0Space (vendor device : Half) (base sub progif rev : Byte) (ssvid ssid : Half) : ConfigSpace :=
  let cs := csWrite32 newSpace 0 (idDword vendor device)
  let cs := csWrite32 cs 2 (classDword base sub progif rev)
  let cs := csWrite8 cs 3 2 0x00#8
  csWrite32 cs 11 ((ssid.setWidth 32 <<< 16) ||| ssvid.setWidth 32)

/-- The register file FN_NEW_T1 builds, its writes in the order of rule R128. -/
def type1Space (vendor device : Half) (base sub progif rev : Byte) : ConfigSpace :=
  let cs := csWrite32 newSpace 0 (idDword vendor device)
  let cs := csWrite32 cs 2 (classDword base sub progif rev)
  let cs := csWrite8 cs 3 2 0x01#8
  let cs := csWrite8 cs 6 0 0x00#8
  let cs := csWrite8 cs 6 1 0x00#8
  let cs := csWrite8 cs 6 2 0x00#8
  let cs := csWrite16 cs 7 1 0x0000#16
  let cs := csWrite32 cs 8 Config.t1Dword8Init
  csWrite32 cs 15 Config.t1Dword15Init

/-- The register file the constructor selected by a parameter builds (rules R166 and R218). -/
def headerSpace : HeaderArgs → ConfigSpace
  | .type0 vendor device base sub progif rev ssvid ssid => type0Space vendor device base sub progif rev ssvid ssid
  | .type1 vendor device base sub progif rev => type1Space vendor device base sub progif rev

end Sys2Proof.Machine
end

