-- ==== Sys2Proof/Machine/Tree.lean ====
section
/-! DEFINITION. The nodes of the routing tree (rules R24 to R28) and what a node does: function slots and register
routing of a Device (rules R160 to R166), children, devices, paths and routing of a Bus (rules R180 to R188). -/

namespace Sys2Proof.Machine

/-- `kind` of rule R26: which constructor made the function; the two kinds act alike. -/
inductive FnKind where
  | hostBridge
  | generic
deriving DecidableEq, Repr

/-- A Function node (rule R26). -/
structure Function where
  number : Nat
  kind : FnKind
  cs : ConfigSpace
deriving DecidableEq, Repr

/-- A Device node (rule R25); `functions` is a map keyed by the functions' own numbers. -/
structure Device where
  number : Nat
  functions : List Function
deriving DecidableEq, Repr

/-- The child buses of a Bus node: a list of buses, each written as its number, its devices and its own child
buses (a bus holds buses, so the two types are one recursion). -/
inductive Buses where
  | nil
  | cons (number : Nat) (devices : List Device) (children : Buses) (rest : Buses)
deriving DecidableEq, Repr

/-- A Bus node (rule R24); `buses` and `devices` are maps keyed by the nodes' own numbers. -/
structure Bus where
  number : Nat
  buses : Buses
  devices : List Device
deriving DecidableEq, Repr

/-- The child buses as a list of Bus nodes. -/
def busesToList : Buses → List Bus
  | .nil => []
  | .cons n devices children rest => ⟨n, children, devices⟩ :: busesToList rest

/-- A list of Bus nodes as child buses. -/
def busesOfList : List Bus → Buses
  | [] => .nil
  | B :: rest => .cons B.number B.devices B.buses (busesOfList rest)

/-! ## Functions and devices -/

/-- The function with its register file replaced; its number and kind never change (rule R129). -/
def withSpace (F : Function) (cs : ConfigSpace) : Function := { F with cs := cs }

/-- FN_NEW with the arguments a parameter selects. -/
def newFunction (n : Nat) (kind : FnKind) (args : HeaderArgs) : Function := ⟨n, kind, headerSpace args⟩

/-- `D.functions[f]` (rule R17). -/
def deviceFn (D : Device) (f : Nat) : Option Function := mapFind Function.number f D.functions

/-- `D.functions[F.number] <- F` (rule R160). -/
def deviceInsertFn (D : Device) (F : Function) : Device :=
  { D with functions := mapInsert Function.number F D.functions }

/-- `delete D.functions[f]` (rule R162). -/
def deviceEraseFn (D : Device) (f : Nat) : Device :=
  { D with functions := mapErase Function.number f D.functions }

/-- The device with its function `f` replaced by its image under `g`. -/
def deviceUpdateFn (D : Device) (f : Nat) (g : Function → Function) : Device :=
  { D with functions := mapUpdate Function.number f g D.functions }

/-- DEV_RD (rule R163). -/
def deviceRead (D : Device) (f r : Nat) : Option Dword :=
  match deviceFn D f with
  | none => none
  | some F => csRead32 F.cs r

/-- DEV_WR (rule R164); a missing function leaves the device as it is. -/
def deviceWrite (D : Device) (f r o : Nat) (data : List Byte) : Device :=
  deviceUpdateFn D f (fun F => withSpace F (csWriteData F.cs r o data))

/-- DEV_NEW (rule R165). -/
def newDevice (n : Nat) : Device := ⟨n, []⟩

/-- DEV_NEW_DUMMY (rule R166): function 0 is the dummy function. -/
def newDummyDevice (n : Nat) : Device := ⟨n, [newFunction 0 .generic Config.dummyFnArgs]⟩

/-! ## Buses -/

/-- The child buses of a node as a list. -/
def busChildren (B : Bus) : List Bus := busesToList B.buses

/-- The bus with another list of child buses. -/
def busWithChildren (B : Bus) (children : List Bus) : Bus := { B with buses := busesOfList children }

/-- `B.buses[b]` (rule R17). -/
def busChild (B : Bus) (b : Nat) : Option Bus := mapFind Bus.number b (busChildren B)

/-- `B.devices[d]` (rule R17). -/
def busDevice (B : Bus) (d : Nat) : Option Device := mapFind Device.number d B.devices

/-- `B.buses[C.number] <- C` (rule R180). -/
def busInsertBus (B C : Bus) : Bus := busWithChildren B (mapInsert Bus.number C (busChildren B))

/-- `delete B.buses[b]` (rule R187). -/
def busEraseBus (B : Bus) (b : Nat) : Bus := busWithChildren B (mapErase Bus.number b (busChildren B))

/-- `B.devices[D.number] <- D` (rule R181). -/
def busInsertDev (B : Bus) (D : Device) : Bus := { B with devices := mapInsert Device.number D B.devices }

/-- `delete B.devices[d]` (rule R188). -/
def busEraseDev (B : Bus) (d : Nat) : Bus := { B with devices := mapErase Device.number d B.devices }

/-- The bus with its device `d` replaced by its image under `g`. -/
def busUpdateDev (B : Bus) (d : Nat) (g : Device → Device) : Bus :=
  { B with devices := mapUpdate Device.number d g B.devices }

/-- BUS_NEW (rule R182). -/
def newBus (n : Nat) : Bus := ⟨n, .nil, []⟩

/-- `node(p)` from a bus: follow the child numbers of the path (rule R17). -/
def nodeAt (B : Bus) : List Nat → Option Bus
  | [] => some B
  | b :: p =>
    match busChild B b with
    | none => none
    | some C => nodeAt C p

/-- The bus with the node at a path replaced by its image under `g`. -/
def updateAt (g : Bus → Bus) : List Nat → Bus → Bus
  | [], B => g B
  | b :: p, B => busWithChildren B (mapUpdate Bus.number b (updateAt g p) (busChildren B))

/-- The recursion of rule R183 into the child buses: the child keyed by `b`, which first compares `b` with its own
number and else looks among its own children. -/
def busesReach (b : Nat) : Buses → Option Bus
  | .nil => none
  | .cons n devices children rest =>
    if n = b then (if b = n then some ⟨n, children, devices⟩ else busesReach b children)
    else busesReach b rest

/-- The Bus node at which a coordinate with bus number `b` resolves, from `B` (rule R183: the local check first). -/
def busReach (B : Bus) (b : Nat) : Option Bus :=
  if b = B.number then some B else busesReach b B.buses

/-- The same recursion, replacing the node reached by its image under `g` (rule R184). -/
def busesUpdateReached (g : Bus → Bus) (b : Nat) : Buses → Buses
  | .nil => .nil
  | .cons n devices children rest =>
    if n = b then
      (if b = n then
        let C := g ⟨n, children, devices⟩
        .cons C.number C.devices C.buses rest
      else .cons n devices (busesUpdateReached g b children) rest)
    else .cons n devices children (busesUpdateReached g b rest)

/-- The bus with the node reached for bus number `b` replaced by its image under `g`. -/
def busUpdateReached (g : Bus → Bus) (B : Bus) (b : Nat) : Bus :=
  if b = B.number then g B else { B with buses := busesUpdateReached g b B.buses }

/-- BUS_RD (rule R183). -/
def busRead (B : Bus) (b d f r : Nat) : Option Dword :=
  match busReach B b with
  | none => none
  | some C =>
    match busDevice C d with
    | none => none
    | some D => deviceRead D f r

/-- BUS_WR (rule R184); an absent target leaves the tree as it is. -/
def busWrite (B : Bus) (b d f r o : Nat) (data : List Byte) : Bus :=
  busUpdateReached (fun C => busUpdateDev C d (fun D => deviceWrite D f r o data)) B b

/-- Bus 0 as RC_NEW builds it (rule R218) from a host-bridge constructor: no child bus, device 0 with the host
bridge as function 0. -/
def rootWith (args : HeaderArgs) : Bus := ⟨0, .nil, [⟨0, [newFunction 0 .hostBridge args]⟩]⟩

end Sys2Proof.Machine
end

