-- ==== Sys2Proof/Machine/State.lean ====
section
/-! DEFINITION. The state (rule R23, with the host's held nodes of rule R38 and the operations and results in
transit), why a step can stop, and the state after reset (rules R39 and R218). -/

namespace Sys2Proof.Machine

/-- The structural errors of rule R270. -/
inductive StructuralError where
  | invalidBusNumber
  | busSlotInUse
  | invalidDeviceNumber
  | deviceSlotInUse
  | invalidFunctionNumber
  | functionSlotInUse
deriving DecidableEq, Repr

/-- The numeric codes of rule R270 (D16). -/
def StructuralError.code : StructuralError → Nat
  | .invalidBusNumber => 1
  | .busSlotInUse => 2
  | .invalidDeviceNumber => 3
  | .deviceSlotInUse => 4
  | .invalidFunctionNumber => 5
  | .functionSlotInUse => 6

/-- The 4-tuple of rule R211. -/
structure Coordinate where
  bus : Nat
  device : Nat
  function : Nat
  register : Nat
deriving DecidableEq, Repr

/-- What an operation returns to its caller (rules R15, R16 and R93). `none` in an optional value is the spec's
`absent`. -/
inductive Reply where
  /-- an operation without a result, or a write that was dropped -/
  | nothing
  /-- a successful add -/
  | ok
  /-- a structural error (rule R271) -/
  | error (e : StructuralError)
  /-- the bytes of a port read, the first at the lowest offset -/
  | bytes (data : List Byte)
  | byte (v : Option Byte)
  | half (v : Option Half)
  | dword (v : Option Dword)
  /-- the dword of RC_READ_SPACE, where `absent` has become all ones (rule R213) -/
  | space (v : Dword)
  | coordinate (c : Coordinate)
  | function (F : Option Function)
  | device (D : Option Device)
  | bus (B : Option Bus)
  /-- the fresh block of RC_NEW -/
  | constructed
deriving DecidableEq, Repr

/-- The faults of the block: none. "The block never traps" (rule R278), and "A model has no fault outcome for any
guest transaction" (rule R273); a structural error is a reply, after which the block goes on (rule R271). -/
inductive Fault where
deriving DecidableEq, Repr

/-- Why a step is refused. Each is safe: the spec gives the operation no step. -/
inductive Refusal where
  /-- Raised by `exec` for an instruction without a meaning. No arm of this model raises it. -/
  | notModelled (mnemonic : String)
  /-- Raised by a host operation whose path or target names no node: "it has no step and changes nothing" (rule
  R94). Safe: the source's calls take node handles, which always exist. -/
  | noSuchNode
  /-- Raised by the step for a presented operation that is no operation of the block (rule R99 refuses the
  descriptor, or its operands are no operand list of its row, log 6). Safe: it "name[s] no operation of the
  hardware" (rule R103). -/
  | notAnOperation (e : DecodeError)
deriving DecidableEq, Repr

/-- Everything the machine holds. `ca` and `root` are the block's architectural state `S` (rule R23); the three
`held` maps are the nodes the host holds (rule R38), each under a number the host chose; `pending`, `reply` and
`caller` are the model's own: the operations presented and not yet performed, the result of the last operation,
and the agent it returned to. -/
structure State where
  ca : Dword
  root : Bus
  heldFns : List (Nat × Function)
  heldDevs : List (Nat × Device)
  heldBuses : List (Nat × Bus)
  pending : List Request
  reply : Reply
  caller : Option Agent
deriving DecidableEq, Repr

/-- The state after reset, which is construction (rules R39, R218 and R300), with nothing presented and nothing
held. -/
def State.reset : State where
  ca := Config.configAddressReset
  root := rootWith Config.hostBridgeArgs
  heldFns := []
  heldDevs := []
  heldBuses := []
  pending := []
  reply := .nothing
  caller := none

end Sys2Proof.Machine
end

