-- ==== Sys2Proof/Machine/Ops.lean ====
section
/-! DEFINITION. The named operations over the state: one update per field, nodes by name (rules R17 and R94), the
address register and the data access through Bus 0 (rules R210 to R214), the generic port contract (rules R230 and
R231), and the return of a structural error (rule R271), which is this block's only exceptional result: it has no
trap to take and none to return from (rules R278 and R279). -/

namespace Sys2Proof.Machine

/-! ## One update per field -/

/-- The state with the result of an operation returned to its caller. -/
def answer (s : State) (r : Reply) : State := { s with reply := r }
/-- The state with `CA <- v`. -/
def setCa (s : State) (v : Dword) : State := { s with ca := v }
/-- The state with another Bus 0. -/
def setRoot (s : State) (B : Bus) : State := { s with root := B }
/-- The state with other held functions. -/
def setHeldFns (s : State) (m : List (Nat × Function)) : State := { s with heldFns := m }
/-- The state with other held devices. -/
def setHeldDevs (s : State) (m : List (Nat × Device)) : State := { s with heldDevs := m }
/-- The state with other held buses. -/
def setHeldBuses (s : State) (m : List (Nat × Bus)) : State := { s with heldBuses := m }
/-- The state in which an agent's operation has been taken from the front of the pending ones. -/
def taken (s : State) (rest : List Request) (a : Agent) : State := { s with pending := rest, caller := some a }

/-! ## Held nodes (rule R38) -/

/-- The function the host holds under a name. -/
def heldFn (s : State) (h : Nat) : Option Function := (mapFind Prod.fst h s.heldFns).map Prod.snd
/-- The device the host holds under a name. -/
def heldDev (s : State) (h : Nat) : Option Device := (mapFind Prod.fst h s.heldDevs).map Prod.snd
/-- The bus the host holds under a name. -/
def heldBus (s : State) (h : Nat) : Option Bus := (mapFind Prod.fst h s.heldBuses).map Prod.snd

/-- The host holds a function under a name, in place of what it held there. -/
def holdFn (s : State) (h : Nat) (F : Function) : State := setHeldFns s (mapInsert Prod.fst (h, F) s.heldFns)
/-- The host holds a device under a name. -/
def holdDev (s : State) (h : Nat) (D : Device) : State := setHeldDevs s (mapInsert Prod.fst (h, D) s.heldDevs)
/-- The host holds a bus under a name. -/
def holdBus (s : State) (h : Nat) (B : Bus) : State := setHeldBuses s (mapInsert Prod.fst (h, B) s.heldBuses)

/-- The host no longer holds the function, which an add has moved into a device (log 3). -/
def releaseFn (s : State) (h : Nat) : State := setHeldFns s (mapErase Prod.fst h s.heldFns)
/-- The host no longer holds the device. -/
def releaseDev (s : State) (h : Nat) : State := setHeldDevs s (mapErase Prod.fst h s.heldDevs)
/-- The host no longer holds the bus. -/
def releaseBus (s : State) (h : Nat) : State := setHeldBuses s (mapErase Prod.fst h s.heldBuses)

/-! ## The node an add inserts (rule R107) -/

/-- The Function value of an add: a held function, or the result of a constructor (rules R127 and R128). -/
def srcFn (s : State) : FnSrc → Option Function
  | .held h => heldFn s h
  | .made n args => some (newFunction n .generic args)

/-- The Device value of an add. -/
def srcDev (s : State) : DevSrc → Option Device
  | .held h => heldDev s h
  | .made n => some (newDevice n)
  | .madeDummy n => some (newDummyDevice n)

/-- The Bus value of an add. -/
def srcBus (s : State) : BusSrc → Option Bus
  | .held h => heldBus s h
  | .made n => some (newBus n)

/-- The state in which an inserted function is the host's no longer (log 3). -/
def useFn (s : State) : FnSrc → State
  | .held h => releaseFn s h
  | .made _ _ => s

/-- The state in which an inserted device is the host's no longer. -/
def useDev (s : State) : DevSrc → State
  | .held h => releaseDev s h
  | .made _ => s
  | .madeDummy _ => s

/-- The state in which an inserted bus is the host's no longer. -/
def useBus (s : State) : BusSrc → State
  | .held h => releaseBus s h
  | .made _ => s

/-! ## Nodes by name (rules R17, R63 and R94) -/

/-- The Bus node a path starts from: Bus 0 or a bus the host holds. -/
def busBase (s : State) : Option Nat → Option Bus
  | none => some s.root
  | some h => heldBus s h

/-- `node(p)`, or nothing where the path names no node. -/
def busAt (s : State) (p : BusRef) : Option Bus :=
  match busBase s p.base with
  | none => none
  | some B => nodeAt B p.path

/-- The Device a target names. -/
def devAt (s : State) : DevRef → Option Device
  | .held h => heldDev s h
  | .node p d =>
    match busAt s p with
    | none => none
    | some B => busDevice B d

/-- The Function a target names. -/
def fnAt (s : State) : FnRef → Option Function
  | .held h => heldFn s h
  | .inDev u f =>
    match devAt s u with
    | none => none
    | some D => deviceFn D f

/-- The state with the Bus node at `p` replaced by its image under `g`. -/
def updateBus (s : State) (p : BusRef) (g : Bus → Bus) : State :=
  match p.base with
  | none => setRoot s (updateAt g p.path s.root)
  | some h => setHeldBuses s (mapUpdate Prod.fst h (fun e => (e.1, updateAt g p.path e.2)) s.heldBuses)

/-- The state with the Device a target names replaced by its image under `g`. -/
def updateDev (s : State) (t : DevRef) (g : Device → Device) : State :=
  match t with
  | .held h => setHeldDevs s (mapUpdate Prod.fst h (fun e => (e.1, g e.2)) s.heldDevs)
  | .node p d => updateBus s p (fun B => busUpdateDev B d g)

/-- The state with the Function a target names replaced by its image under `g`. -/
def updateFn (s : State) (t : FnRef) (g : Function → Function) : State :=
  match t with
  | .held h => setHeldFns s (mapUpdate Prod.fst h (fun e => (e.1, g e.2)) s.heldFns)
  | .inDev u f => updateDev s u (fun D => deviceUpdateFn D f g)

/-- The outcome of one operation. -/
abbrev Result := Host.Outcome State Fault Refusal

/-- Run an operation on a node, or refuse it where its name names none (rule R94). -/
def onNode {α : Type} (node : Option α) (run : α → Result) : Result :=
  match node with
  | none => .refused .noSuchNode
  | some x => run x

/-- `raise E` (rules R16 and R271): the error is the result and nothing else changes. -/
def raise (s : State) (e : StructuralError) : Result := .next (answer s (.error e))

/-! ## The address register and the data access (rules R210 to R214) -/

/-- RC_SET_ADDR on the register (rule R210). -/
def setAddress (s : State) (o : Nat) (data : List Byte) : State :=
  if o + data.length > 4 then s else setCa s (setLanes s.ca o data)

/-- RC_PARSE_ADDR (rule R211). -/
def parseAddress (ca : Dword) : Coordinate := ⟨caBus ca, caDevice ca, caFunction ca, caRegister ca⟩

/-- RC_READ_SPACE (rules R212 and R213). -/
def readSpace (s : State) : Dword :=
  if caEnabled s.ca then
    let c := parseAddress s.ca
    (busRead s.root c.bus c.device c.function c.register).getD allOnes
  else allOnes

/-- RC_WRITE_SPACE (rule R214). -/
def writeSpace (s : State) (o : Nat) (data : List Byte) : State :=
  if caEnabled s.ca then
    let c := parseAddress s.ca
    setRoot s (busWrite s.root c.bus c.device c.function c.register o data)
  else s

/-! ## The generic port contract -/

/-- `MemRead(o, n)` (rule R230). -/
def portRead (s : State) (o n : Nat) : List Byte :=
  if wellShaped o n then bytesLE (if o < 4 then s.ca else readSpace s) (o % 4) n
  else List.replicate n 0xFF#8

/-- `MemWrite(o, n, d)` (rule R231). -/
def portWrite (s : State) (o : Nat) (data : List Byte) : State :=
  if wellShaped o data.length then (if o < 4 then setAddress s o data else writeSpace s (o - 4) data)
  else s

end Sys2Proof.Machine
end

