-- ==== Sys2Proof/Machine/Accessors.lean ====
section
/-! DEFINITION. The meanings of the register-file accessors and the function constructors
(40_configuration_space.md). An accessor's target is a node of a tree or a detached function (rule R94); a target
that names no node is refused. -/

namespace Sys2Proof.Machine

/-- CS_RD8 (rule R120). -/
def execCsRd8 (t : FnRef) (r o : Nat) (s : State) : Result :=
  onNode (fnAt s t) (fun F => .next (answer s (.byte (csRead8 F.cs r o))))

/-- CS_WR8 (rule R121). -/
def execCsWr8 (t : FnRef) (r o : Nat) (v : Byte) (s : State) : Result :=
  onNode (fnAt s t) (fun _ =>
    .next (answer (updateFn s t (fun F => withSpace F (csWrite8 F.cs r o v))) .nothing))

/-- CS_RD16 (rule R122). -/
def execCsRd16 (t : FnRef) (r h : Nat) (s : State) : Result :=
  onNode (fnAt s t) (fun F => .next (answer s (.half (csRead16 F.cs r h))))

/-- CS_WR16 (rule R123). -/
def execCsWr16 (t : FnRef) (r h : Nat) (v : Half) (s : State) : Result :=
  onNode (fnAt s t) (fun _ =>
    .next (answer (updateFn s t (fun F => withSpace F (csWrite16 F.cs r h v))) .nothing))

/-- CS_RD32 (rule R124). -/
def execCsRd32 (t : FnRef) (r : Nat) (s : State) : Result :=
  onNode (fnAt s t) (fun F => .next (answer s (.dword (csRead32 F.cs r))))

/-- CS_WR32 (rule R125). -/
def execCsWr32 (t : FnRef) (r : Nat) (v : Dword) (s : State) : Result :=
  onNode (fnAt s t) (fun _ =>
    .next (answer (updateFn s t (fun F => withSpace F (csWrite32 F.cs r v))) .nothing))

/-- FN_NEW_T0 (rule R127): the host holds the new function under `dst` (rule R38). -/
def execFnNewT0 (dst n : Nat) (vendor device : Half) (base sub progif rev : Byte) (ssvid ssid : Half)
    (s : State) : Result :=
  let F : Function := newFunction n .generic (.type0 vendor device base sub progif rev ssvid ssid)
  .next (answer (holdFn s dst F) (.function (some F)))

/-- FN_NEW_T1 (rule R128): the host holds the new function under `dst` (rule R38). -/
def execFnNewT1 (dst n : Nat) (vendor device : Half) (base sub progif rev : Byte) (s : State) : Result :=
  let F : Function := newFunction n .generic (.type1 vendor device base sub progif rev)
  .next (answer (holdFn s dst F) (.function (some F)))

end Sys2Proof.Machine
end

