-- ==== Sys2Proof/Machine/BusTree.lean ====
section
/-! DEFINITION. The meanings of the Bus operations (42_bus.md, rules R180 to R188). A path that names no node, or an
add whose source names no held node, is refused (rule R94). -/

namespace Sys2Proof.Machine

/-- BUS_ADD_BUS (rule R180). The inserted bus leaves the host's hands first (rule R38, log 3), so a path that starts
from the very bus to be inserted names no node: a bus is never inserted into itself (rule R28). -/
def execBusAddBus (p : BusRef) (src : BusSrc) (s : State) : Result :=
  onNode (srcBus s src) (fun C =>
    onNode (busAt (useBus s src) p) (fun B =>
      if C.number ≥ Config.maxBusNumber then raise s .invalidBusNumber
      else if (busChild B C.number).isSome then raise s .busSlotInUse
      else .next (answer (updateBus (useBus s src) p (fun B => busInsertBus B C)) .ok)))

/-- BUS_ADD_DEV (rule R181). -/
def execBusAddDev (p : BusRef) (src : DevSrc) (s : State) : Result :=
  onNode (busAt s p) (fun B =>
    onNode (srcDev s src) (fun D =>
      if D.number ≥ Config.maxDeviceNumber then raise s .invalidDeviceNumber
      else if (busDevice B D.number).isSome then raise s .deviceSlotInUse
      else .next (answer (useDev (updateBus s p (fun B => busInsertDev B D)) src) .ok)))

/-- BUS_NEW (rule R182): the host holds the new bus under `dst`. -/
def execBusNew (dst n : Nat) (s : State) : Result :=
  .next (answer (holdBus s dst (newBus n)) (.bus (some (newBus n))))

/-- BUS_RD (rule R183). -/
def execBusRd (p : BusRef) (b d f r : Nat) (s : State) : Result :=
  onNode (busAt s p) (fun B => .next (answer s (.dword (busRead B b d f r))))

/-- BUS_WR (rule R184). -/
def execBusWr (p : BusRef) (b d f r o : Nat) (data : List Byte) (s : State) : Result :=
  onNode (busAt s p) (fun _ =>
    .next (answer (updateBus s p (fun B => busWrite B b d f r o data)) .nothing))

/-- BUS_GET_BUS (rule R185): a snapshot of a direct child. -/
def execBusGetBus (p : BusRef) (b : Nat) (s : State) : Result :=
  onNode (busAt s p) (fun B => .next (answer s (.bus (busChild B b))))

/-- BUS_GET_DEV (rule R186): a snapshot of a device. -/
def execBusGetDev (p : BusRef) (d : Nat) (s : State) : Result :=
  onNode (busAt s p) (fun B => .next (answer s (.device (busDevice B d))))

/-- BUS_REMOVE_BUS (rule R187): the host holds the removed bus, with all below it, under `dst` (rule R38). -/
def execBusRemoveBus (p : BusRef) (b dst : Nat) (s : State) : Result :=
  onNode (busAt s p) (fun B =>
    match busChild B b with
    | none => .next (answer s (.bus none))
    | some C => .next (answer (holdBus (updateBus s p (fun B => busEraseBus B b)) dst C) (.bus (some C))))

/-- BUS_REMOVE_DEV (rule R188): the host holds the removed device under `dst` (rule R38). -/
def execBusRemoveDev (p : BusRef) (d dst : Nat) (s : State) : Result :=
  onNode (busAt s p) (fun B =>
    match busDevice B d with
    | none => .next (answer s (.device none))
    | some D => .next (answer (holdDev (updateBus s p (fun B => busEraseDev B d)) dst D) (.device (some D))))

end Sys2Proof.Machine
end

