-- ==== Sys2Proof/Machine/Devices.lean ====
section
/-! DEFINITION. The meanings of the Device operations (41_device.md, rules R160 to R166). A target that names no
device, or an add whose source names no held function, is refused (rule R94). -/

namespace Sys2Proof.Machine

/-- DEV_ADD_FN (rule R160): the number check, then the slot check (rule R275). A function that is inserted is the
host's no longer (rule R38, log 3). -/
def execDevAddFn (t : DevRef) (src : FnSrc) (s : State) : Result :=
  onNode (devAt s t) (fun D =>
    onNode (srcFn s src) (fun F =>
      if F.number ≥ Config.maxFunctionNumber then raise s .invalidFunctionNumber
      else if (deviceFn D F.number).isSome then raise s .functionSlotInUse
      else .next (answer (useFn (updateDev s t (fun D => deviceInsertFn D F)) src) .ok)))

/-- DEV_GET_FN (rule R161): a snapshot of the node. -/
def execDevGetFn (t : DevRef) (f : Nat) (s : State) : Result :=
  onNode (devAt s t) (fun D => .next (answer s (.function (deviceFn D f))))

/-- DEV_REMOVE_FN (rule R162): the host holds the removed function under `dst` (rule R38). -/
def execDevRemoveFn (t : DevRef) (f dst : Nat) (s : State) : Result :=
  onNode (devAt s t) (fun D =>
    match deviceFn D f with
    | none => .next (answer s (.function none))
    | some F => .next (answer (holdFn (updateDev s t (fun D => deviceEraseFn D f)) dst F) (.function (some F))))

/-- DEV_RD (rule R163). -/
def execDevRd (t : DevRef) (f r : Nat) (s : State) : Result :=
  onNode (devAt s t) (fun D => .next (answer s (.dword (deviceRead D f r))))

/-- DEV_WR (rule R164). -/
def execDevWr (t : DevRef) (f r o : Nat) (data : List Byte) (s : State) : Result :=
  onNode (devAt s t) (fun _ =>
    .next (answer (updateDev s t (fun D => deviceWrite D f r o data)) .nothing))

/-- DEV_NEW (rule R165): the host holds the new device under `dst`. -/
def execDevNew (dst n : Nat) (s : State) : Result :=
  .next (answer (holdDev s dst (newDevice n)) (.device (some (newDevice n))))

/-- DEV_NEW_DUMMY (rule R166): the host holds the new device under `dst`. -/
def execDevNewDummy (dst n : Nat) (s : State) : Result :=
  .next (answer (holdDev s dst (newDummyDevice n)) (.device (some (newDummyDevice n))))

end Sys2Proof.Machine
end

