-- ==== Sys2Proof/Machine/Port.lean ====
section
/-! DEFINITION. The meanings of the guest port transactions (44_port_transactions.md, rules R232 to R249), each from
its own rule's pseudocode. `k` is the offset inside the sub-window. No guest transaction faults or is refused (rule
R273). -/

namespace Sys2Proof.Machine

/-! ## Address sub-window reads -/

/-- CFGADDR_RD8 (rule R232). -/
def execCfgAddrRd8 (k : Fin 4) (s : State) : Result := .next (answer s (.bytes [lane s.ca k]))

/-- CFGADDR_RD16 (rule R233). -/
def execCfgAddrRd16 (k : Fin 3) (s : State) : Result :=
  .next (answer s (.bytes [lane s.ca k, lane s.ca (k + 1)]))

/-- CFGADDR_RD24 (rule R234). -/
def execCfgAddrRd24 (k : Fin 2) (s : State) : Result :=
  .next (answer s (.bytes [lane s.ca k, lane s.ca (k + 1), lane s.ca (k + 2)]))

/-- CFGADDR_RD32 (rule R235). -/
def execCfgAddrRd32 (s : State) : Result := .next (answer s (.bytes (bytesLE s.ca 0 4)))

/-! ## Address sub-window writes -/

/-- CFGADDR_WR8 (rule R236). -/
def execCfgAddrWr8 (k : Fin 4) (v : Byte) (s : State) : Result :=
  .next (answer (setAddress s k [v]) .nothing)

/-- CFGADDR_WR16 (rule R237). -/
def execCfgAddrWr16 (k : Fin 3) (v0 v1 : Byte) (s : State) : Result :=
  .next (answer (setAddress s k [v0, v1]) .nothing)

/-- CFGADDR_WR24 (rule R238). -/
def execCfgAddrWr24 (k : Fin 2) (v0 v1 v2 : Byte) (s : State) : Result :=
  .next (answer (setAddress s k [v0, v1, v2]) .nothing)

/-- CFGADDR_WR32 (rule R239). -/
def execCfgAddrWr32 (v0 v1 v2 v3 : Byte) (s : State) : Result :=
  .next (answer (setAddress s 0 [v0, v1, v2, v3]) .nothing)

/-! ## Data sub-window reads -/

/-- CFGDATA_RD8 (rule R240). -/
def execCfgDataRd8 (k : Fin 4) (s : State) : Result := .next (answer s (.bytes [lane (readSpace s) k]))

/-- CFGDATA_RD16 (rule R241). -/
def execCfgDataRd16 (k : Fin 3) (s : State) : Result :=
  .next (answer s (.bytes [lane (readSpace s) k, lane (readSpace s) (k + 1)]))

/-- CFGDATA_RD24 (rule R242). -/
def execCfgDataRd24 (k : Fin 2) (s : State) : Result :=
  .next (answer s (.bytes [lane (readSpace s) k, lane (readSpace s) (k + 1), lane (readSpace s) (k + 2)]))

/-- CFGDATA_RD32 (rule R243). -/
def execCfgDataRd32 (s : State) : Result := .next (answer s (.bytes (bytesLE (readSpace s) 0 4)))

/-! ## Data sub-window writes -/

/-- CFGDATA_WR8 (rule R244). -/
def execCfgDataWr8 (k : Fin 4) (v : Byte) (s : State) : Result :=
  .next (answer (writeSpace s k [v]) .nothing)

/-- CFGDATA_WR16 (rule R245); at an odd offset the write is dropped on its way (rule R164). -/
def execCfgDataWr16 (k : Fin 3) (v0 v1 : Byte) (s : State) : Result :=
  .next (answer (writeSpace s k [v0, v1]) .nothing)

/-- CFGDATA_WR24 (rule R246). -/
def execCfgDataWr24 (k : Fin 2) (v0 v1 v2 : Byte) (s : State) : Result :=
  .next (answer (writeSpace s k [v0, v1, v2]) .nothing)

/-- CFGDATA_WR32 (rule R247). -/
def execCfgDataWr32 (v0 v1 v2 v3 : Byte) (s : State) : Result :=
  .next (answer (writeSpace s 0 [v0, v1, v2, v3]) .nothing)

/-! ## Malformed shapes -/

/-- PORT_RD_BAD (rule R248): `n` bytes of 0xFF, whatever the offset. -/
def execPortRdBad (_o n : Nat) (s : State) : Result := .next (answer s (.bytes (List.replicate n 0xFF#8)))

/-- PORT_WR_BAD (rule R249): dropped. -/
def execPortWrBad (_o : Nat) (_data : List Byte) (s : State) : Result := .next (answer s .nothing)

end Sys2Proof.Machine
end

