-- ==== Sys2Proof/Machine/RootComplex.lean ====
section
/-! DEFINITION. The meanings of the RootComplex operations (43_root_complex.md, rules R210 to R218). -/

namespace Sys2Proof.Machine

/-- RC_NEW (rule R218): the block becomes the fresh `S = (CA, root)`; what the host holds is no part of the block
(rule R38) and stays (log 2). -/
def execRcNew (s : State) : Result :=
  .next (answer (setRoot (setCa s Config.configAddressReset) (rootWith Config.hostBridgeArgs)) .constructed)

/-- RC_SET_ADDR (rule R210). -/
def execRcSetAddr (o : Nat) (data : List Byte) (s : State) : Result :=
  .next (answer (setAddress s o data) .nothing)

/-- RC_PARSE_ADDR (rule R211). -/
def execRcParseAddr (s : State) : Result := .next (answer s (.coordinate (parseAddress s.ca)))

/-- RC_READ_SPACE (rule R212). -/
def execRcReadSpace (s : State) : Result := .next (answer s (.space (readSpace s)))

/-- RC_WRITE_SPACE (rule R214). -/
def execRcWriteSpace (o : Nat) (data : List Byte) (s : State) : Result :=
  .next (answer (writeSpace s o data) .nothing)

end Sys2Proof.Machine
end

