-- ==== Sys2Proof/Machine/Dispatch.lean ====
section
/-! DEFINITION. One arm per operation of the opcode table, each a call of its meaning. -/

namespace Sys2Proof.Machine

/-- One operation, performed as one indivisible step (rule R70). -/
def exec (i : Instr) (s : State) : Host.Outcome State Fault Refusal :=
  match i with
  | .cfgAddrRd8 k => Sys2Proof.Machine.execCfgAddrRd8 k s
  | .cfgAddrRd16 k => Sys2Proof.Machine.execCfgAddrRd16 k s
  | .cfgAddrRd24 k => Sys2Proof.Machine.execCfgAddrRd24 k s
  | .cfgAddrRd32 => Sys2Proof.Machine.execCfgAddrRd32 s
  | .cfgAddrWr8 k v => Sys2Proof.Machine.execCfgAddrWr8 k v s
  | .cfgAddrWr16 k v0 v1 => Sys2Proof.Machine.execCfgAddrWr16 k v0 v1 s
  | .cfgAddrWr24 k v0 v1 v2 => Sys2Proof.Machine.execCfgAddrWr24 k v0 v1 v2 s
  | .cfgAddrWr32 v0 v1 v2 v3 => Sys2Proof.Machine.execCfgAddrWr32 v0 v1 v2 v3 s
  | .cfgDataRd8 k => Sys2Proof.Machine.execCfgDataRd8 k s
  | .cfgDataRd16 k => Sys2Proof.Machine.execCfgDataRd16 k s
  | .cfgDataRd24 k => Sys2Proof.Machine.execCfgDataRd24 k s
  | .cfgDataRd32 => Sys2Proof.Machine.execCfgDataRd32 s
  | .cfgDataWr8 k v => Sys2Proof.Machine.execCfgDataWr8 k v s
  | .cfgDataWr16 k v0 v1 => Sys2Proof.Machine.execCfgDataWr16 k v0 v1 s
  | .cfgDataWr24 k v0 v1 v2 => Sys2Proof.Machine.execCfgDataWr24 k v0 v1 v2 s
  | .cfgDataWr32 v0 v1 v2 v3 => Sys2Proof.Machine.execCfgDataWr32 v0 v1 v2 v3 s
  | .portRdBad o n => Sys2Proof.Machine.execPortRdBad o n s
  | .portWrBad o data => Sys2Proof.Machine.execPortWrBad o data s
  | .rcNew => Sys2Proof.Machine.execRcNew s
  | .fnNewT0 dst n vendor device base sub progif rev ssvid ssid => Sys2Proof.Machine.execFnNewT0 dst n vendor device base sub progif rev ssvid ssid s
  | .fnNewT1 dst n vendor device base sub progif rev => Sys2Proof.Machine.execFnNewT1 dst n vendor device base sub progif rev s
  | .devNew dst n => Sys2Proof.Machine.execDevNew dst n s
  | .devNewDummy dst n => Sys2Proof.Machine.execDevNewDummy dst n s
  | .busNew dst n => Sys2Proof.Machine.execBusNew dst n s
  | .csRd8 target r o => Sys2Proof.Machine.execCsRd8 target r o s
  | .csWr8 target r o v => Sys2Proof.Machine.execCsWr8 target r o v s
  | .csRd16 target r h => Sys2Proof.Machine.execCsRd16 target r h s
  | .csWr16 target r h v => Sys2Proof.Machine.execCsWr16 target r h v s
  | .csRd32 target r => Sys2Proof.Machine.execCsRd32 target r s
  | .csWr32 target r v => Sys2Proof.Machine.execCsWr32 target r v s
  | .devAddFn target src => Sys2Proof.Machine.execDevAddFn target src s
  | .devGetFn target f => Sys2Proof.Machine.execDevGetFn target f s
  | .devRemoveFn target f dst => Sys2Proof.Machine.execDevRemoveFn target f dst s
  | .devRd target f r => Sys2Proof.Machine.execDevRd target f r s
  | .devWr target f r o data => Sys2Proof.Machine.execDevWr target f r o data s
  | .busAddBus p src => Sys2Proof.Machine.execBusAddBus p src s
  | .busAddDev p src => Sys2Proof.Machine.execBusAddDev p src s
  | .busGetBus p b => Sys2Proof.Machine.execBusGetBus p b s
  | .busGetDev p d => Sys2Proof.Machine.execBusGetDev p d s
  | .busRemoveBus p b dst => Sys2Proof.Machine.execBusRemoveBus p b dst s
  | .busRemoveDev p d dst => Sys2Proof.Machine.execBusRemoveDev p d dst s
  | .busRd p b d f r => Sys2Proof.Machine.execBusRd p b d f r s
  | .busWr p b d f r o data => Sys2Proof.Machine.execBusWr p b d f r o data s
  | .rcSetAddr o data => Sys2Proof.Machine.execRcSetAddr o data s
  | .rcParseAddr => Sys2Proof.Machine.execRcParseAddr s
  | .rcReadSpace => Sys2Proof.Machine.execRcReadSpace s
  | .rcWriteSpace o data => Sys2Proof.Machine.execRcWriteSpace o data s

end Sys2Proof.Machine
end

