-- ==== Sys2Proof/Machine/Step.lean ====
section
/-! DEFINITION. One step: the operation an agent presented next is decoded and performed (rules R21, R70 and R76).
The block fetches nothing (rule R80); `State.pending` stands for the agents' calls (log 5). -/

namespace Sys2Proof.Machine

/-- One step. With nothing presented the passive block stays as it is (rule R21, log 5). -/
def step (s : State) : Host.Outcome State Fault Refusal :=
  match s.pending with
  | [] => .next s
  | q :: rest =>
    match decode q.op with
    | .error e => .refused (.notAnOperation e)
    | .ok i => exec i (taken s rest q.agent)

/-- `s` with the operation of an opcode-table word presented next, by the host agent, which may issue every
operation (rule R281). -/
def State.withFetchWord (s : State) (nbits w : Nat) : State :=
  { s with pending := ⟨.host, tableWordOp nbits w⟩ :: s.pending }

end Sys2Proof.Machine
end

