-- ==== Sys2Proof/Safety.lean ====
section
/-! DEFINITION. The terms in which statements speak: which agent may issue what (rule R281), the invariants of the
tree (rule R28), what of a state is topology and what is register contents, where a guest's data access goes, and
a run of several operations. -/

namespace Sys2Proof.Machine

/-! ## Agents (rules R281 and R283) -/

/-- What an agent may issue: a guest, one of the `N_GUEST`, port transactions only; the host everything. -/
def mayIssue : Agent → Instr → Bool
  | .guest n, i => decide (n < Config.guestCount) && i.isGuest
  | .host, _ => true

/-- A presented operation that its agent may issue. -/
def requestLegal (q : Request) : Bool :=
  match decode q.op with
  | .ok i => mayIssue q.agent i
  | .error _ => false

/-! ## The invariants of the tree (rule R28, with the ranges of rules R24 to R26) -/

/-- The functions of a device: keyed by their own numbers, each number once, all below 8. -/
def deviceWf (D : Device) : Bool := mapWf Function.number Config.maxFunctionNumber D.functions

/-- The devices of a bus: each number once, all below 32, each device well-formed. -/
def devicesWf (m : List Device) : Bool := mapWf Device.number Config.maxDeviceNumber m && m.all deviceWf

/-- The child buses of a bus: each number once, all below 256. -/
def childrenWf (bs : Buses) : Bool := mapWf Bus.number Config.maxBusNumber (busesToList bs)

/-- Every bus below a node is well-formed. -/
def busesWf : Buses → Bool
  | .nil => true
  | .cons _ devices children rest => devicesWf devices && childrenWf children && busesWf children && busesWf rest

/-- A bus and everything below it is well-formed; its own number is its parent's to check (D17). -/
def busWf (B : Bus) : Bool := devicesWf B.devices && childrenWf B.buses && busesWf B.buses

/-- The invariant of the machine: Bus 0 is numbered 0 (rule R23), its tree and every node the host holds keep rule
R28, and the host's names are each used once. -/
def stateWf (s : State) : Bool :=
  decide (s.root.number = 0) && busWf s.root &&
    mapRising Prod.fst s.heldFns && mapRising Prod.fst s.heldDevs && mapRising Prod.fst s.heldBuses &&
    s.heldDevs.all (fun e => deviceWf e.2) && s.heldBuses.all (fun e => busWf e.2)

/-! ## Topology apart from register contents -/

/-- A function with its register file blanked: what is left is its number and its kind (rule R129). -/
def fnBare (F : Function) : Function := withSpace F newSpace

/-- A device with every register file blanked. -/
def deviceBare (D : Device) : Device := { D with functions := D.functions.map fnBare }

/-- Child buses with every register file blanked. -/
def busesBare : Buses → Buses
  | .nil => .nil
  | .cons n devices children rest => .cons n (devices.map deviceBare) (busesBare children) (busesBare rest)

/-- A bus with every register file below it blanked. -/
def busBare (B : Bus) : Bus := ⟨B.number, busesBare B.buses, B.devices.map deviceBare⟩

/-- A state with every register file blanked: equal bare states have the same nodes in the same places under the
same names, the same `CA`, the same pending operations, the same reply and the same caller. -/
def stateBare (s : State) : State where
  ca := s.ca
  root := busBare s.root
  heldFns := s.heldFns.map (fun e => (e.1, fnBare e.2))
  heldDevs := s.heldDevs.map (fun e => (e.1, deviceBare e.2))
  heldBuses := s.heldBuses.map (fun e => (e.1, busBare e.2))
  pending := s.pending
  reply := s.reply
  caller := s.caller

/-- Register `r` of the function a target names (rule R17's `cs(F)[r]`), absent where there is none. -/
def regAt (s : State) (t : FnRef) (r : Nat) : Option Dword :=
  match fnAt s t with
  | none => none
  | some F => csRead32 F.cs r

/-- The register that a coordinate names at the bus `B` itself (the local branch of rule R183). -/
def localRegister (B : Bus) (d f r : Nat) : Option Dword :=
  match busDevice B d with
  | none => none
  | some D => deviceRead D f r

/-- The name of the child `b` of the bus that `p` names. -/
def below (p : BusRef) (b : Nat) : BusRef := ⟨p.base, p.path ++ [b]⟩

/-- The bus at which a guest's data access resolves: Bus 0 itself, or its direct child (rule R189). -/
def guestBus (s : State) : BusRef :=
  if caBus s.ca = s.root.number then ⟨none, []⟩ else ⟨none, [caBus s.ca]⟩

/-- The function that `CA` selects (rules R211 and R189). -/
def guestTarget (s : State) : FnRef := .inDev (.node (guestBus s) (caDevice s.ca)) (caFunction s.ca)

/-- The shapes DEV_WR drops (rule R164): past the register, or two bytes at an odd offset. -/
def writeDropped (o n : Nat) : Bool := decide (o + n > 4) || (decide (n = 2) && decide (o % 2 ≠ 0))

/-! ## Several operations -/

/-- Operations performed one after the other, stopping at the first that is refused. -/
def execAll : List Instr → State → Result
  | [], s => .next s
  | i :: rest, s =>
    match exec i s with
    | .next t => execAll rest t
    | .fault e => .fault e
    | .refused e => .refused e

/-- The operations that write `CA`: an address-window write, RC_SET_ADDR and RC_NEW (rule R216). -/
def writesAddress : Instr → Bool
  | .cfgAddrWr8 .. | .cfgAddrWr16 .. | .cfgAddrWr24 .. | .cfgAddrWr32 .. | .rcSetAddr .. | .rcNew => true
  | .cfgAddrRd8 _ | .cfgAddrRd16 _ | .cfgAddrRd24 _ | .cfgAddrRd32 => false
  | .cfgDataRd8 _ | .cfgDataRd16 _ | .cfgDataRd24 _ | .cfgDataRd32 => false
  | .cfgDataWr8 .. | .cfgDataWr16 .. | .cfgDataWr24 .. | .cfgDataWr32 .. => false
  | .portRdBad .. | .portWrBad .. => false
  | .fnNewT0 .. | .fnNewT1 .. | .devNew .. | .devNewDummy .. | .busNew .. => false
  | .csRd8 .. | .csWr8 .. | .csRd16 .. | .csWr16 .. | .csRd32 .. | .csWr32 .. => false
  | .devAddFn .. | .devGetFn .. | .devRemoveFn .. | .devRd .. | .devWr .. => false
  | .busAddBus .. | .busAddDev .. | .busGetBus .. | .busGetDev .. => false
  | .busRemoveBus .. | .busRemoveDev .. | .busRd .. | .busWr .. => false
  | .rcParseAddr | .rcReadSpace | .rcWriteSpace .. => false

/-- The operations that set `CA[31]`, the bit 7 of the byte they write into lane 3 (rules R31 and R210). -/
def setsEnable : Instr → Bool
  | .cfgAddrWr8 k v => decide (k = 3) && v.getLsbD 7
  | .cfgAddrWr16 k _ v1 => decide (k = 2) && v1.getLsbD 7
  | .cfgAddrWr24 k _ _ v2 => decide (k = 1) && v2.getLsbD 7
  | .cfgAddrWr32 _ _ _ v3 => v3.getLsbD 7
  | .rcSetAddr o data =>
    decide (o + data.length = 4) && (match data.getLast? with | some v => v.getLsbD 7 | none => false)
  | .cfgAddrRd8 _ | .cfgAddrRd16 _ | .cfgAddrRd24 _ | .cfgAddrRd32 => false
  | .cfgDataRd8 _ | .cfgDataRd16 _ | .cfgDataRd24 _ | .cfgDataRd32 => false
  | .cfgDataWr8 .. | .cfgDataWr16 .. | .cfgDataWr24 .. | .cfgDataWr32 .. => false
  | .portRdBad .. | .portWrBad .. => false
  | .rcNew | .fnNewT0 .. | .fnNewT1 .. | .devNew .. | .devNewDummy .. | .busNew .. => false
  | .csRd8 .. | .csWr8 .. | .csRd16 .. | .csWr16 .. | .csRd32 .. | .csWr32 .. => false
  | .devAddFn .. | .devGetFn .. | .devRemoveFn .. | .devRd .. | .devWr .. => false
  | .busAddBus .. | .busAddDev .. | .busGetBus .. | .busGetDev .. => false
  | .busRemoveBus .. | .busRemoveDev .. | .busRd .. | .busWr .. => false
  | .rcParseAddr | .rcReadSpace | .rcWriteSpace .. => false

/-- The operations that change which nodes exist: RC_NEW, the constructors, the adds and the removals (rules R30
and R38). -/
def changesTopology : Instr → Bool
  | .rcNew | .fnNewT0 .. | .fnNewT1 .. | .devNew .. | .devNewDummy .. | .busNew .. => true
  | .devAddFn .. | .devRemoveFn .. | .busAddBus .. | .busAddDev .. | .busRemoveBus .. | .busRemoveDev .. => true
  | .cfgAddrRd8 _ | .cfgAddrRd16 _ | .cfgAddrRd24 _ | .cfgAddrRd32 => false
  | .cfgAddrWr8 .. | .cfgAddrWr16 .. | .cfgAddrWr24 .. | .cfgAddrWr32 .. => false
  | .cfgDataRd8 _ | .cfgDataRd16 _ | .cfgDataRd24 _ | .cfgDataRd32 => false
  | .cfgDataWr8 .. | .cfgDataWr16 .. | .cfgDataWr24 .. | .cfgDataWr32 .. => false
  | .portRdBad .. | .portWrBad .. => false
  | .csRd8 .. | .csWr8 .. | .csRd16 .. | .csWr16 .. | .csRd32 .. | .csWr32 .. => false
  | .devGetFn .. | .devRd .. | .devWr .. | .busGetBus .. | .busGetDev .. | .busRd .. | .busWr .. => false
  | .rcSetAddr .. | .rcParseAddr | .rcReadSpace | .rcWriteSpace .. => false

/-- The operations that only read (rule R72): they return a result and change nothing else. -/
def onlyReads : Instr → Bool
  | .cfgAddrRd8 _ | .cfgAddrRd16 _ | .cfgAddrRd24 _ | .cfgAddrRd32 => true
  | .cfgDataRd8 _ | .cfgDataRd16 _ | .cfgDataRd24 _ | .cfgDataRd32 => true
  | .portRdBad .. | .csRd8 .. | .csRd16 .. | .csRd32 .. => true
  | .devGetFn .. | .devRd .. | .busGetBus .. | .busGetDev .. | .busRd .. => true
  | .rcParseAddr | .rcReadSpace => true
  | .cfgAddrWr8 .. | .cfgAddrWr16 .. | .cfgAddrWr24 .. | .cfgAddrWr32 .. => false
  | .cfgDataWr8 .. | .cfgDataWr16 .. | .cfgDataWr24 .. | .cfgDataWr32 .. => false
  | .portWrBad .. | .rcNew | .fnNewT0 .. | .fnNewT1 .. | .devNew .. | .devNewDummy .. | .busNew .. => false
  | .csWr8 .. | .csWr16 .. | .csWr32 .. | .devAddFn .. | .devRemoveFn .. | .devWr .. => false
  | .busAddBus .. | .busAddDev .. | .busRemoveBus .. | .busRemoveDev .. | .busWr .. => false
  | .rcSetAddr .. | .rcWriteSpace .. => false

/-- The nodes an operation names all exist: exactly when rule R94 lets it run. -/
def namesNodes (s : State) : Instr → Bool
  | .csRd8 t _ _ | .csWr8 t _ _ _ | .csRd16 t _ _ | .csWr16 t _ _ _ | .csRd32 t _ | .csWr32 t _ _ => (fnAt s t).isSome
  | .devAddFn t src => (devAt s t).isSome && (srcFn s src).isSome
  | .devGetFn t _ | .devRemoveFn t _ _ | .devRd t _ _ | .devWr t _ _ _ _ => (devAt s t).isSome
  | .busAddBus p src => (srcBus s src).isSome && (busAt (useBus s src) p).isSome
  | .busAddDev p src => (busAt s p).isSome && (srcDev s src).isSome
  | .busGetBus p _ | .busGetDev p _ | .busRemoveBus p _ _ | .busRemoveDev p _ _ => (busAt s p).isSome
  | .busRd p _ _ _ _ | .busWr p _ _ _ _ _ _ => (busAt s p).isSome
  | .cfgAddrRd8 _ | .cfgAddrRd16 _ | .cfgAddrRd24 _ | .cfgAddrRd32 => true
  | .cfgAddrWr8 .. | .cfgAddrWr16 .. | .cfgAddrWr24 .. | .cfgAddrWr32 .. => true
  | .cfgDataRd8 _ | .cfgDataRd16 _ | .cfgDataRd24 _ | .cfgDataRd32 => true
  | .cfgDataWr8 .. | .cfgDataWr16 .. | .cfgDataWr24 .. | .cfgDataWr32 .. => true
  | .portRdBad .. | .portWrBad .. => true
  | .rcNew | .fnNewT0 .. | .fnNewT1 .. | .devNew .. | .devNewDummy .. | .busNew .. => true
  | .rcSetAddr .. | .rcParseAddr | .rcReadSpace | .rcWriteSpace .. => true

end Sys2Proof.Machine
end

