-- ==== Sys2Proof/Certificates/Slice0/Obligations.lean ====
section
/-! DEFINITION. The statements for the provers. `next (answer s r)` says that an operation completes with reply `r`
and changes nothing else; `stateBare` is a state with its register files blanked, so that two equal bare states agree
in everything but register contents. -/

open Sys2Proof Sys2Proof.Machine

/-! ## Encoding -/

/-- Decoding what the encoder wrote gives back every well-formed operation, with every operand at every value. The
form of operands beyond the descriptor is the model's (log 6). -/
def Obligations.DecodeOfEncode : Prop :=
  ∀ i : Instr, i.wellFormed = true → decode (encode i) = .ok i

/-- What decodes is well-formed, and a descriptor with its operands has one meaning only: the encoder writes the very
same one. That an operation has one operand list only rests on the operand layout, the model's choice (log 6). -/
def Obligations.DecodedOperationsAreCanonical : Prop :=
  ∀ (op : Op) (i : Instr), decode op = .ok i →
    i.wellFormed = true ∧ ∀ D operands, op = .coded D operands → encode i = op

/-- Rule R99: the decoder takes the first row of the opcode map that matches and whose guard holds; a descriptor no
row takes is refused whatever follows it, and one a row takes is an operation with some operands. -/
def Obligations.DecoderTakesFirstMatchingRow : Prop :=
  (∀ D operands i, decode (.coded D operands) = .ok i → (rowOf D).map OpcodeRow.mnemonic = some i.mnemonic) ∧
  (∀ D, rowOf D = none → ∀ operands, ∃ e, decode (.coded D operands) = .error e ∧ e ≠ .badOperands) ∧
  (∀ D row, rowOf D = some row → ∃ operands i, decode (.coded D operands) = .ok i)

/-- A few words of rules R98, R100 and R101, one of each family, and one of each refused shape. The descriptors are
the spec's; the operands after them, and the zero operands that `decodeTableWord` supplies, are the model's choice
(log 6). -/
def Obligations.SampleWordsDecode : Prop :=
  decodeTableWord 16 0x0102 = some (.cfgAddrRd8 2) ∧
  decode (.coded 0x4201 [0x08, 0x02]) = .ok (.cfgAddrWr16 1 0x08 0x02) ∧
  decodeTableWord 16 0x0305 = some (.cfgDataRd24 1) ∧
  decode (.coded 0x4404 [0xEF, 0xBE, 0xAD, 0xDE]) = .ok (.cfgDataWr32 0xEF 0xBE 0xAD 0xDE) ∧
  decodeTableWord 16 0x0203 = some (.portRdBad 3 2) ∧
  decodeTableWord 16 0x4004 = some (.portWrBad 4 []) ∧
  decodeTableWord 16 0x8001 = some .rcNew ∧
  decodeTableWord 16 0x8014 = some (.csRd32 (.inDev (.node ⟨none, []⟩ 0) 0) 0) ∧
  decodeTableWord 16 0x8020 = some (.devAddFn (.node ⟨none, []⟩ 0) (.made 0 (.type0 0 0 0 0 0 0 0 0))) ∧
  decodeTableWord 16 0x8037 = some (.busWr ⟨none, []⟩ 0 0 0 0 0 []) ∧
  decodeTableWord 16 0x8042 = some .rcReadSpace ∧
  decode (.coded 0xC000 []) = .error .reservedClass ∧
  decode (.coded 0x1100 []) = .error .reservedBits ∧
  decode (.coded 0x8107 []) = .error .reservedBits ∧
  decode (.coded 0x8007 []) = .error .unassignedCode

/-! ## The step -/

/-- A step takes the operation presented next from the front of the pending ones, records who presented it, and
performs what it decodes to. (That presented operations wait in a list is the model's form of rule R76, log 5.) -/
def Obligations.StepPerformsDecodedOperation : Prop :=
  ∀ (s : State) (q : Request) (rest : List Request) (i : Instr),
    s.pending = q :: rest → decode q.op = .ok i →
      step s = exec i { s with pending := rest, caller := some q.agent }

/-- The model's choice (log 5): with nothing presented the passive block stays as it is; and a presented word that is
no operation is refused by its reason (rule R99). -/
def Obligations.StepWithoutOperation : Prop :=
  (∀ s : State, s.pending = [] → step s = .next s) ∧
  (∀ (s : State) (q : Request) (rest : List Request) (e : DecodeError),
    s.pending = q :: rest → decode q.op = .error e → step s = .refused (.notAnOperation e))

/-- Every port read and every port write that the dispatcher can hand over has a result, whatever its offset and
length: a read of `n` bytes returns `n` bytes and changes nothing, a write returns nothing and changes at most `CA`
or register contents. -/
def Obligations.EveryPortTransactionHasAResult : Prop :=
  (∀ (s : State) (a : Agent) (o n : Nat) (rest : List Request), s.pending = ⟨a, .read o n⟩ :: rest →
    ∃ data : List Byte, data.length = n ∧ step s = .next (answer (taken s rest a) (.bytes data))) ∧
  (∀ (s : State) (a : Agent) (o : Nat) (data : List Byte) (rest : List Request),
    s.pending = ⟨a, .write o data⟩ :: rest →
      ∃ t, step s = .next t ∧ stateBare t = stateBare (answer (setCa (taken s rest a) t.ca) .nothing))

/-- A span too far or too long for a descriptor has the semantics of the malformed rows. -/
def Obligations.SpansWithoutDescriptorAreMalformed : Prop :=
  ∀ (o : Nat),
    (∀ n, (256 ≤ o ∨ 16 ≤ n) → decode (.read o n) = .ok (.portRdBad o n)) ∧
    (∀ data : List Byte, (256 ≤ o ∨ 16 ≤ data.length) → decode (.write o data) = .ok (.portWrBad o data))

/-! ## Reset and the invariant -/

/-- Rule R39: `CA`, Bus 0, its one device, the one function of that device, and its register file. -/
def Obligations.ResetIsTheConstructedBlock : Prop :=
  State.reset.ca = 0x00000000#32 ∧ State.reset.root.number = 0 ∧ busChildren State.reset.root = [] ∧
  ∃ D F, State.reset.root.devices = [D] ∧ D.number = 0 ∧ D.functions = [F] ∧ F.number = 0 ∧
    F.kind = .hostBridge ∧ F.cs = headerSpace Config.hostBridgeArgs

/-- The host bridge's registers after reset, whichever header the OPEN `HOST_BRIDGE_ARGS` selects: the registers its
constructor writes, and zero in every other. -/
def Obligations.ResetRegistersOfHostBridge : Prop :=
  ∀ r, r < 1024 →
    regAt State.reset (.inDev (.node ⟨none, []⟩ 0) 0) r = some
      (match Config.hostBridgeArgs with
      | .type0 vendor device base sub progif rev ssvid ssid =>
        if r = 0 then device ++ vendor else if r = 2 then base ++ sub ++ progif ++ rev
        else if r = 11 then ssid ++ ssvid else 0#32
      | .type1 vendor device base sub progif rev =>
        if r = 0 then device ++ vendor else if r = 2 then base ++ sub ++ progif ++ rev
        else if r = 3 then 0x00010000#32 else if r = 8 then Config.t1Dword8Init
        else if r = 15 then Config.t1Dword15Init else 0#32)

/-- The invariant of rule R28 (each number once, in range, at every node of every tree) is kept by every step. -/
def Obligations.StepKeepsTreeInvariant : Prop :=
  ∀ s t : State, stateWf s = true → step s = .next t → stateWf t = true

/-- The invariant holds after reset. -/
def Obligations.ResetSatisfiesTreeInvariant : Prop := stateWf State.reset = true

/-- The state that RC_NEW makes of the block is the reset state; what the host holds and what is presented is no
part of the block and stays (the model's choice, log 2). -/
def Obligations.RcNewConstructsTheResetBlock : Prop :=
  ∀ s : State, exec .rcNew s =
    .next { s with ca := State.reset.ca, root := State.reset.root, reply := .constructed }

/-- `CA[31]` is 0 after reset, and operations none of which sets it keep it 0, address writes that leave it clear and
RC_NEW among them; until one sets it, every data-window read returns all ones and every data-window write is dropped. -/
def Obligations.DataWindowIsClosedAfterReset : Prop :=
  State.reset.ca.getLsbD 31 = false ∧
  ∀ (is : List Instr) (r s : State), r.ca.getLsbD 31 = false → execAll is r = .next s →
    (∀ i ∈ is, setsEnable i = false) →
    s.ca.getLsbD 31 = false ∧
    (∀ o n, wellShaped o n = true → 4 ≤ o →
      exec (guestRead o n) s = .next (answer s (.bytes (List.replicate n 0xFF#8)))) ∧
    (∀ o data, 4 ≤ o → exec (guestWrite o data) s = .next (answer s .nothing))

/-! ## Port transactions -/

/-- Rule R230: every row of the guest read map meets the one generic contract of a port read. -/
def Obligations.GuestReadsMeetThePortContract : Prop :=
  ∀ (o n : Nat) (s : State), exec (guestRead o n) s =
    .next (answer s (.bytes
      (if wellShaped o n then bytesLE (if o < 4 then s.ca else readSpace s) (o % 4) n
       else List.replicate n 0xFF#8)))

/-- Rule R231: every row of the guest write map meets the one generic contract of a port write, and the window test
adds no behaviour of its own. -/
def Obligations.GuestWritesMeetThePortContract : Prop :=
  ∀ (o : Nat) (data : List Byte) (s : State),
    exec (guestWrite o data) s = .next (answer
      (if wellShaped o data.length then (if o < 4 then setAddress s o data else writeSpace s (o - 4) data) else s)
      .nothing) ∧
    (o < 4 → exec (guestWrite o data) s = .next (answer (setAddress s o data) .nothing)) ∧
    (4 ≤ o → exec (guestWrite o data) s = .next (answer (writeSpace s (o - 4) data) .nothing))

/-- Address-window reads: the addressed bits of `CA`, whatever the enable bit, and no change of state. -/
def Obligations.AddressReadsReturnTheLanesOfCA : Prop :=
  ∀ s : State,
    (∀ k : Fin 4, exec (.cfgAddrRd8 k) s = .next (answer s (.bytes [s.ca.extractLsb' (8 * k) 8]))) ∧
    (∀ k : Fin 3, ∃ b0 b1 : Byte, exec (.cfgAddrRd16 k) s = .next (answer s (.bytes [b0, b1])) ∧
      b1 ++ b0 = s.ca.extractLsb' (8 * k) 16) ∧
    (∀ k : Fin 2, ∃ b0 b1 b2 : Byte, exec (.cfgAddrRd24 k) s = .next (answer s (.bytes [b0, b1, b2])) ∧
      b2 ++ b1 ++ b0 = s.ca.extractLsb' (8 * k) 24) ∧
    (∃ b0 b1 b2 b3 : Byte, exec .cfgAddrRd32 s = .next (answer s (.bytes [b0, b1, b2, b3])) ∧
      b3 ++ b2 ++ b1 ++ b0 = s.ca)

/-- Data-window reads: the addressed bits of the dword `w`, which is the register that `CA` selects when the
mechanism is enabled and the register is there, and all ones otherwise; and no change of state. -/
def Obligations.DataReadsReturnTheLanesOfTheSelectedRegister : Prop :=
  ∀ (s : State) (w : Dword),
    w = (if s.ca.getLsbD 31 then (regAt s (guestTarget s) (s.ca.extractLsb' 2 6).toNat).getD 0xFFFFFFFF#32
         else 0xFFFFFFFF#32) →
    (∀ k : Fin 4, exec (.cfgDataRd8 k) s = .next (answer s (.bytes [w.extractLsb' (8 * k) 8]))) ∧
    (∀ k : Fin 3, ∃ b0 b1 : Byte, exec (.cfgDataRd16 k) s = .next (answer s (.bytes [b0, b1])) ∧
      b1 ++ b0 = w.extractLsb' (8 * k) 16) ∧
    (∀ k : Fin 2, ∃ b0 b1 b2 : Byte, exec (.cfgDataRd24 k) s = .next (answer s (.bytes [b0, b1, b2])) ∧
      b2 ++ b1 ++ b0 = w.extractLsb' (8 * k) 24) ∧
    (∃ b0 b1 b2 b3 : Byte, exec .cfgDataRd32 s = .next (answer s (.bytes [b0, b1, b2, b3])) ∧
      b3 ++ b2 ++ b1 ++ b0 = w)

/-- Address-window writes of 1 to 4 bytes, and RC_SET_ADDR: the addressed lanes of `CA` take the bytes in order when
the write fits the register, `CA` keeps every other lane, and nothing else changes; a write that does not fit changes
nothing. -/
def Obligations.AddressWritesSetTheLanesOfCA : Prop :=
  ∀ s : State,
    let effect := fun (i : Instr) (o : Nat) (data : List Byte) =>
      ∃ v : Dword, exec i s = .next { s with ca := v, reply := .nothing } ∧
        (o + data.length > 4 → v = s.ca) ∧
        (o + data.length ≤ 4 → ∀ j < 4, v.extractLsb' (8 * j) 8 =
          if o ≤ j then (data[j - o]?).getD (s.ca.extractLsb' (8 * j) 8) else s.ca.extractLsb' (8 * j) 8)
    (∀ (k : Fin 4) v, effect (.cfgAddrWr8 k v) k [v]) ∧
    (∀ (k : Fin 3) v0 v1, effect (.cfgAddrWr16 k v0 v1) k [v0, v1]) ∧
    (∀ (k : Fin 2) v0 v1 v2, effect (.cfgAddrWr24 k v0 v1 v2) k [v0, v1, v2]) ∧
    (∀ v0 v1 v2 v3, effect (.cfgAddrWr32 v0 v1 v2 v3) 0 [v0, v1, v2, v3]) ∧
    (∀ o data, effect (.rcSetAddr o data) o data)

/-- Data-window writes of 1 to 4 bytes, and RC_WRITE_SPACE: when the mechanism is enabled and the selected register is
there, its addressed lanes take the bytes in order unless the shape is dropped (past the register, or two bytes at an
odd offset); every other register of every function keeps its value, nothing else changes, and otherwise nothing
changes at all. -/
def Obligations.DataWritesSetTheLanesOfTheSelectedRegister : Prop :=
  ∀ s : State,
    let target := guestTarget s
    let r := (s.ca.extractLsb' 2 6).toNat
    let effect := fun (i : Instr) (o : Nat) (data : List Byte) =>
      ∃ t, exec i s = .next t ∧ stateBare t = stateBare (answer s .nothing) ∧
        (∀ u q, (u, q) ≠ (target, r) → regAt t u q = regAt s u q) ∧
        ((s.ca.getLsbD 31 = false ∨ regAt s target r = none ∨ o + data.length > 4 ∨
          (data.length = 2 ∧ o % 2 = 1)) → t = answer s .nothing) ∧
        (s.ca.getLsbD 31 = true → o + data.length ≤ 4 → ¬ (data.length = 2 ∧ o % 2 = 1) →
          ∀ v, regAt s target r = some v → ∃ w, regAt t target r = some w ∧
            ∀ j < 4, w.extractLsb' (8 * j) 8 =
              if o ≤ j then (data[j - o]?).getD (v.extractLsb' (8 * j) 8) else v.extractLsb' (8 * j) 8)
    (∀ (k : Fin 4) v, effect (.cfgDataWr8 k v) k [v]) ∧
    (∀ (k : Fin 3) v0 v1, effect (.cfgDataWr16 k v0 v1) k [v0, v1]) ∧
    (∀ (k : Fin 2) v0 v1 v2, effect (.cfgDataWr24 k v0 v1 v2) k [v0, v1, v2]) ∧
    (∀ v0 v1 v2 v3, effect (.cfgDataWr32 v0 v1 v2 v3) 0 [v0, v1, v2, v3]) ∧
    (∀ o data, effect (.rcWriteSpace o data) o data)

/-- The malformed rows: a read returns its length in 0xFF bytes, a write is dropped, and neither changes anything. -/
def Obligations.MalformedSpansReadOnesAndDropWrites : Prop :=
  ∀ s : State,
    (∀ o n, exec (.portRdBad o n) s = .next (answer s (.bytes (List.replicate n 0xFF#8)))) ∧
    (∀ o data, exec (.portWrBad o data) s = .next (answer s .nothing))

/-- Rule R251: while `CA[31] = 0` the data window reads all ones and drops writes. -/
def Obligations.DisabledDataWindow : Prop :=
  ∀ s : State, s.ca.getLsbD 31 = false →
    (∀ o n, wellShaped o n = true → 4 ≤ o →
      exec (guestRead o n) s = .next (answer s (.bytes (List.replicate n 0xFF#8)))) ∧
    (∀ o data, 4 ≤ o → exec (guestWrite o data) s = .next (answer s .nothing))

/-- Rule R215: the disabled mechanism reads all ones and writes nothing, whatever else `CA` holds. -/
def Obligations.DisabledMechanismIsInert : Prop :=
  ∀ s : State, s.ca.getLsbD 31 = false →
    exec .rcReadSpace s = .next (answer s (.space 0xFFFFFFFF#32)) ∧
    ∀ o data, exec (.rcWriteSpace o data) s = .next (answer s .nothing)

/-- What a dword written to the address port leaves, it reads back after any operations that do not write `CA`
(RC_NEW, which makes a new block, is one that does: log 2). -/
def Obligations.AddressReadsBack : Prop :=
  ∀ (s t u : State) (is : List Instr) (v0 v1 v2 v3 : Byte),
    exec (.cfgAddrWr32 v0 v1 v2 v3) s = .next t → (∀ i ∈ is, writesAddress i = false) → execAll is t = .next u →
      exec .cfgAddrRd32 u = .next (answer u (.bytes [v0, v1, v2, v3]))

/-- Rule R77: between one guest's address write and its data read another agent's address write may come, and the
data access then uses the other agent's `CA`. -/
def Obligations.InterleavedAddressWriteRedirectsTheDataAccess : Prop :=
  ∀ (s : State) (n : Nat) (other : Agent) (a0 a1 a2 a3 b0 b1 b2 b3 : Byte) (rest : List Request),
    s.pending = ⟨.guest n, .write 0 [a0, a1, a2, a3]⟩ :: ⟨other, .write 0 [b0, b1, b2, b3]⟩ ::
      ⟨.guest n, .read 4 4⟩ :: rest →
    ∃ t, Sys2Proof.core.run 3 s = .next t ∧ t.caller = some (.guest n) ∧ t.pending = rest ∧
      t.ca = b3 ++ b2 ++ b1 ++ b0 ∧ t.root = s.root ∧
      t.reply = .bytes (bytesLE (readSpace (setCa s (b3 ++ b2 ++ b1 ++ b0))) 0 4)

/-- One guest read cannot tell an absent function from a present one whose registers read all ones: two blocks with
the same `CA` whose coordinates read the same after the all-ones substitution answer every guest read alike. -/
def Obligations.GuestReadsCannotTellAbsentFromAllOnes : Prop :=
  ∀ (s t : State), s.ca = t.ca →
    (∀ b d f r, b < 256 → d < 32 → f < 8 → r < 64 →
      (busRead s.root b d f r).getD allOnes = (busRead t.root b d f r).getD allOnes) →
    ∀ o n, ∃ data, exec (guestRead o n) s = .next (answer s (.bytes data)) ∧
      exec (guestRead o n) t = .next (answer t (.bytes data))

/-! ## Rules over all operations -/

/-- Rule R216: `CA` changes only by an address write, RC_SET_ADDR or RC_NEW. -/
def Obligations.OnlyAddressWritesChangeCA : Prop :=
  ∀ (i : Instr) (s t : State), exec i s = .next t → t.ca ≠ s.ca → writesAddress i = true

/-- A read of any kind returns its result and changes nothing else. -/
def Obligations.ReadsChangeNothing : Prop :=
  ∀ (i : Instr) (s t : State), onlyReads i = true → exec i s = .next t → t = answer s t.reply

/-- Apart from RC_NEW, the constructors, the adds and the removals, no operation changes which nodes exist, their
numbers, their kinds or their places. -/
def Obligations.OnlyTopologyOperationsChangeTopology : Prop :=
  ∀ (i : Instr) (s t : State), changesTopology i = false → exec i s = .next t →
    stateBare t = stateBare (answer (setCa s t.ca) t.reply)

/-- No guest transaction changes the topology, a register from 64 on, or anything the host holds. -/
def Obligations.GuestsReachOnlyTheLegacyRegisters : Prop :=
  ∀ (i : Instr) (s t : State), i.isGuest = true → exec i s = .next t →
    stateBare t = stateBare (answer (setCa s t.ca) t.reply) ∧
    t.heldFns = s.heldFns ∧ t.heldDevs = s.heldDevs ∧ t.heldBuses = s.heldBuses ∧
    ∀ u r, 64 ≤ r → regAt t u r = regAt s u r

/-- A step that performs what a guest agent may present is always a next state, never a structural error, and leaves
the topology and the registers from 64 on as they were. -/
def Obligations.LegalGuestStepsAreConfined : Prop :=
  ∀ (s : State) (n : Nat) (op : Op) (rest : List Request),
    s.pending = ⟨.guest n, op⟩ :: rest → requestLegal ⟨.guest n, op⟩ = true →
      ∃ t, step s = .next t ∧ t.pending = rest ∧ t.caller = some (.guest n) ∧ (∀ e, t.reply ≠ .error e) ∧
        busBare t.root = busBare s.root ∧ ∀ u r, 64 ≤ r → regAt t u r = regAt s u r

/-- Rule R271: a structural error is the result of the operation, and nothing else changes. -/
def Obligations.StructuralErrorsChangeNothing : Prop :=
  ∀ (i : Instr) (s t : State) (e : StructuralError),
    exec i s = .next t → t.reply = .error e → t = answer s (.error e)

/-- Rules R270 and R274: each structural error comes from the add operation it belongs to, so none from a guest. -/
def Obligations.OnlyAddsRaiseErrors : Prop :=
  ∀ (i : Instr) (s t : State) (e : StructuralError), exec i s = .next t → t.reply = .error e →
    i.isGuest = false ∧
    (((∃ p src, i = .busAddBus p src) ∧ (e = .invalidBusNumber ∨ e = .busSlotInUse)) ∨
     ((∃ p src, i = .busAddDev p src) ∧ (e = .invalidDeviceNumber ∨ e = .deviceSlotInUse)) ∨
     ((∃ u src, i = .devAddFn u src) ∧ (e = .invalidFunctionNumber ∨ e = .functionSlotInUse)))

/-- An operation is refused exactly when it names a node that is not there, and completes otherwise. Which names there
are outside the block's own tree (held sources, detached trees) and that BUS_ADD_BUS looks for its path after its source
has left the host's hands is the model's choice (logs 3 and 9). -/
def Obligations.OperationsAreRefusedExactlyForMissingNodes : Prop :=
  ∀ (i : Instr) (s : State),
    (namesNodes s i = false → exec i s = .refused .noSuchNode) ∧
    (namesNodes s i = true → ∃ t, exec i s = .next t)

/-- Rule R275: in each add the number check comes before the slot check. -/
def Obligations.AddChecksNumberThenSlot : Prop :=
  (∀ (s : State) (p : BusRef) (src : BusSrc) (B C : Bus),
    srcBus s src = some C → busAt (useBus s src) p = some B →
      (256 ≤ C.number → exec (.busAddBus p src) s = .next (answer s (.error .invalidBusNumber))) ∧
      (C.number < 256 → (busChild B C.number).isSome = true →
        exec (.busAddBus p src) s = .next (answer s (.error .busSlotInUse)))) ∧
  (∀ (s : State) (p : BusRef) (src : DevSrc) (B : Bus) (D : Device),
    busAt s p = some B → srcDev s src = some D →
      (32 ≤ D.number → exec (.busAddDev p src) s = .next (answer s (.error .invalidDeviceNumber))) ∧
      (D.number < 32 → (busDevice B D.number).isSome = true →
        exec (.busAddDev p src) s = .next (answer s (.error .deviceSlotInUse)))) ∧
  (∀ (s : State) (u : DevRef) (src : FnSrc) (D : Device) (F : Function),
    devAt s u = some D → srcFn s src = some F →
      (8 ≤ F.number → exec (.devAddFn u src) s = .next (answer s (.error .invalidFunctionNumber))) ∧
      (F.number < 8 → (deviceFn D F.number).isSome = true →
        exec (.devAddFn u src) s = .next (answer s (.error .functionSlotInUse))))

/-! ## The register file -/

/-- The three register reads: the addressed bits of a register of the file, `absent` past the file or past the
register, and no change of state. -/
def Obligations.RegisterReads : Prop :=
  ∀ (s : State) (u : FnRef) (F : Function), fnAt s u = some F → ∀ r : Nat,
    (∀ o, exec (.csRd8 u r o) s = .next (answer s (.byte
      (if h : r < 1024 ∧ o < 4 then some ((F.cs[r]'h.1).extractLsb' (8 * o) 8) else none)))) ∧
    (∀ h, exec (.csRd16 u r h) s = .next (answer s (.half
      (if h' : r < 1024 ∧ h < 2 then some ((F.cs[r]'h'.1).extractLsb' (16 * h) 16) else none)))) ∧
    exec (.csRd32 u r) s = .next (answer s (.dword (if h : r < 1024 then some F.cs[r] else none)))

/-- The three register writes: the addressed bits of one register of one function take the value, an index or offset
out of range is dropped, and every other register of every function, the topology and `CA` keep their values. -/
def Obligations.RegisterWrites : Prop :=
  ∀ (s : State) (u : FnRef) (F : Function), fnAt s u = some F → ∀ r : Nat,
    let effect := fun (i : Instr) (g : Dword → Dword) =>
      ∃ t, exec i s = .next t ∧ stateBare t = stateBare (answer s .nothing) ∧
        (∀ w q, (w, q) ≠ (u, r) → regAt t w q = regAt s w q) ∧ regAt t u r = (regAt s u r).map g
    (∀ o (b : Byte), effect (.csWr8 u r o b) (fun v =>
      if o < 4 then (v &&& ~~~(0xFF#32 <<< (8 * o))) ||| (b.setWidth 32 <<< (8 * o)) else v)) ∧
    (∀ h (x : Half), effect (.csWr16 u r h x) (fun v =>
      if h < 2 then (v &&& ~~~(0xFFFF#32 <<< (16 * h))) ||| (x.setWidth 32 <<< (16 * h)) else v)) ∧
    (∀ v, effect (.csWr32 u r v) (fun _ => v))

/-- Rule R130: byte round trip and non-interference. -/
def Obligations.ByteWriteRoundTrip : Prop :=
  ∀ (s t : State) (u : FnRef) (r o : Nat) (b : Byte), r < 1024 → o < 4 → exec (.csWr8 u r o b) s = .next t →
    exec (.csRd8 u r o) t = .next (answer t (.byte (some b))) ∧
    (∀ k < 4, k ≠ o → ∀ v, exec (.csRd8 u r k) s = .next (answer s (.byte v)) →
      exec (.csRd8 u r k) t = .next (answer t (.byte v))) ∧
    (∀ w q, (w, q) ≠ (u, r) → regAt t w q = regAt s w q)

/-- Rule R131: past the register file every read accessor is absent and every write accessor changes no register. -/
def Obligations.OutOfBoundsAccessesAreInert : Prop :=
  ∀ (s : State) (u : FnRef) (F : Function) (r : Nat), fnAt s u = some F → 1024 ≤ r →
    (∀ o, exec (.csRd8 u r o) s = .next (answer s (.byte none))) ∧
    (∀ h, exec (.csRd16 u r h) s = .next (answer s (.half none))) ∧
    exec (.csRd32 u r) s = .next (answer s (.dword none)) ∧
    (∀ i, ((∃ o b, i = .csWr8 u r o b) ∨ (∃ h x, i = .csWr16 u r h x) ∨ (∃ v, i = .csWr32 u r v)) →
      ∃ t, exec i s = .next t ∧ ∀ w q, regAt t w q = regAt s w q)

/-- Rule R132: four byte writes in any order compose to the dword. -/
def Obligations.FourByteWritesCompose : Prop :=
  ∀ (s : State) (u : FnRef) (F : Function) (r : Nat) (v : Dword) (order : List Nat),
    fnAt s u = some F → r < 1024 → order.Perm [0, 1, 2, 3] →
      ∃ t, execAll (order.map (fun k => .csWr8 u r k (v.extractLsb' (8 * k) 8))) s = .next t ∧
        exec (.csRd32 u r) t = .next (answer t (.dword (some v)))

/-- Rule R133: a half-word read is its two byte reads, a dword read its four lanes, and a half-word write leaves the
same register as its two byte writes. -/
def Obligations.WidthsAreConsistent : Prop :=
  ∀ (s : State) (u : FnRef) (F : Function) (r : Nat), fnAt s u = some F → r < 1024 →
    (∀ h < 2, ∃ b0 b1 : Byte,
      exec (.csRd8 u r (2 * h)) s = .next (answer s (.byte (some b0))) ∧
      exec (.csRd8 u r (2 * h + 1)) s = .next (answer s (.byte (some b1))) ∧
      exec (.csRd16 u r h) s = .next (answer s (.half (some (b0.setWidth 16 ||| (b1.setWidth 16 <<< 8)))))) ∧
    (∃ v, regAt s u r = some v ∧ exec (.csRd32 u r) s = .next (answer s (.dword (some
      ((lane v 0).setWidth 32 ||| ((lane v 1).setWidth 32 <<< 8) ||| ((lane v 2).setWidth 32 <<< 16) |||
        ((lane v 3).setWidth 32 <<< 24)))))) ∧
    (∀ h < 2, ∀ (x : Half) (t t' : State), exec (.csWr16 u r h x) s = .next t →
      execAll [.csWr8 u r (2 * h) (x.extractLsb' 0 8), .csWr8 u r (2 * h + 1) (x.extractLsb' 8 8)] s = .next t' →
        regAt t u r = regAt t' u r)

/-- FN_NEW_T0 and FN_NEW_T1: the new function has the number given, kind Generic and the header of its type, every
other register zero; the host holds it under the name it gave (log 3), and nothing else changes. -/
def Obligations.FunctionConstructors : Prop :=
  ∀ (s : State) (dst n : Nat) (vendor device : Half) (base sub progif rev : Byte),
    let effect := fun (i : Instr) (header : Nat → Dword) =>
      ∃ F t, exec i s = .next t ∧ t.reply = .function (some F) ∧ F.number = n ∧ F.kind = .generic ∧
        (∀ r, csRead32 F.cs r = if r < 1024 then some (header r) else none) ∧
        t = { s with heldFns := t.heldFns, reply := t.reply } ∧
        ∀ k, heldFn t k = if k = dst then some F else heldFn s k
    (∀ ssvid ssid, effect (.fnNewT0 dst n vendor device base sub progif rev ssvid ssid) (fun r =>
      if r = 0 then device ++ vendor else if r = 2 then base ++ sub ++ progif ++ rev
      else if r = 11 then ssid ++ ssvid else 0#32)) ∧
    effect (.fnNewT1 dst n vendor device base sub progif rev) (fun r =>
      if r = 0 then device ++ vendor else if r = 2 then base ++ sub ++ progif ++ rev
      else if r = 3 then 0x00010000#32 else if r = 8 then Config.t1Dword8Init
      else if r = 15 then Config.t1Dword15Init else 0#32)

/-! ## Devices -/

/-- DEV_NEW, DEV_NEW_DUMMY and BUS_NEW: the empty device, the device with only the dummy function 0, and the empty
bus, each with the number given; the host holds the new node under the name it gave (log 3), and nothing else
changes. -/
def Obligations.NodeConstructors : Prop :=
  ∀ (s : State) (dst n : Nat),
    (∃ t, exec (.devNew dst n) s = .next t ∧ t.reply = .device (some ⟨n, []⟩) ∧
      t = { s with heldDevs := t.heldDevs, reply := t.reply } ∧
      ∀ k, heldDev t k = if k = dst then some ⟨n, []⟩ else heldDev s k) ∧
    (∃ F t, exec (.devNewDummy dst n) s = .next t ∧ t.reply = .device (some ⟨n, [F]⟩) ∧
      F.number = 0 ∧ F.kind = .generic ∧ F.cs = headerSpace Config.dummyFnArgs ∧
      t = { s with heldDevs := t.heldDevs, reply := t.reply } ∧
      ∀ k, heldDev t k = if k = dst then some ⟨n, [F]⟩ else heldDev s k) ∧
    (∃ t, exec (.busNew dst n) s = .next t ∧ t.reply = .bus (some ⟨n, .nil, []⟩) ∧
      t = { s with heldBuses := t.heldBuses, reply := t.reply } ∧
      ∀ k, heldBus t k = if k = dst then some ⟨n, .nil, []⟩ else heldBus s k)

/-- DEV_ADD_FN into a free slot: the device gains the function under its own number, keeps its other functions and
its number; every other device, every bus, `CA` and the held buses stay; and the function is the host's no longer
(the model's reading of rule R38, log 3). -/
def Obligations.AddFunctionFillsTheSlot : Prop :=
  ∀ (s : State) (u : DevRef) (src : FnSrc) (D : Device) (F : Function),
    devAt s u = some D → srcFn s src = some F → F.number < 8 → deviceFn D F.number = none →
      ∃ t D', exec (.devAddFn u src) s = .next t ∧ t.reply = .ok ∧ t.ca = s.ca ∧ t.pending = s.pending ∧
        t.caller = s.caller ∧ devAt t u = some D' ∧ D'.number = D.number ∧
        (∀ f, deviceFn D' f = if f = F.number then some F else deviceFn D f) ∧
        (∀ w, w ≠ u → devAt t w = devAt s w) ∧
        (∀ p, (busAt t p).map Bus.number = (busAt s p).map Bus.number) ∧
        ∀ k, heldFn t k = if src = .held k then none else heldFn s k

/-- DEV_REMOVE_FN: an occupied slot is emptied, the function is returned and held by the host (log 3), and every other
function, device and bus stays; an empty slot returns `absent` and nothing changes. -/
def Obligations.RemoveFunctionEmptiesTheSlot : Prop :=
  ∀ (s : State) (u : DevRef) (f dst : Nat) (D : Device), devAt s u = some D →
    (deviceFn D f = none → exec (.devRemoveFn u f dst) s = .next (answer s (.function none))) ∧
    (∀ F, deviceFn D f = some F →
      ∃ t D', exec (.devRemoveFn u f dst) s = .next t ∧ t.reply = .function (some F) ∧ t.ca = s.ca ∧
        t.pending = s.pending ∧ t.caller = s.caller ∧ devAt t u = some D' ∧ D'.number = D.number ∧
        (∀ g, deviceFn D' g = if g = f then none else deviceFn D g) ∧
        (∀ w, w ≠ u → devAt t w = devAt s w) ∧
        (∀ p, (busAt t p).map Bus.number = (busAt s p).map Bus.number) ∧
        ∀ k, heldFn t k = if k = dst then some F else heldFn s k)

/-- Rule R169: a slot that a removal emptied can be filled again. -/
def Obligations.RemovedFunctionSlotIsFree : Prop :=
  ∀ (s t : State) (u : DevRef) (f dst : Nat) (F : Function) (src : FnSrc) (F' : Function),
    stateWf s = true → exec (.devRemoveFn u f dst) s = .next t → t.reply = .function (some F) →
      srcFn t src = some F' → F'.number = f →
        ∃ t', exec (.devAddFn u src) t = .next t' ∧ t'.reply = .ok

/-- DEV_RD returns the register of the function, `absent` for a missing function or an index past the file; and no
change of state. -/
def Obligations.DeviceReadReturnsTheRegister : Prop :=
  ∀ (s : State) (u : DevRef) (D : Device) (f r : Nat), devAt s u = some D →
    exec (.devRd u f r) s = .next (answer s (.dword
      (match deviceFn D f with
      | none => none
      | some F => if h : r < 1024 then some F.cs[r] else none)))

/-- DEV_WR: unless its shape is dropped, the addressed lanes of the register of the function take the bytes in order;
every other register of every function keeps its value, those of the functions and devices the host holds among them,
the topology stays, and a missing function changes nothing. -/
def Obligations.DeviceWriteSetsTheLanes : Prop :=
  ∀ (s : State) (u : DevRef) (D : Device) (f r o : Nat) (data : List Byte), devAt s u = some D →
    ∃ t D', exec (.devWr u f r o data) s = .next t ∧ stateBare t = stateBare (answer s .nothing) ∧
      t.heldFns = s.heldFns ∧ (∀ v q, (v, q) ≠ (.inDev u f, r) → regAt t v q = regAt s v q) ∧
      (deviceFn D f = none → t = answer s .nothing) ∧
      (∀ w, w ≠ u → devAt t w = devAt s w) ∧ devAt t u = some D' ∧
      (∀ g, g ≠ f → deviceFn D' g = deviceFn D g) ∧
      (deviceFn D f = none → D' = D) ∧
      (∀ F, deviceFn D f = some F → ∃ F', deviceFn D' f = some F' ∧ F'.kind = F.kind ∧
        (∀ q, q ≠ r → csRead32 F'.cs q = csRead32 F.cs q) ∧
        ((o + data.length > 4 ∨ (data.length = 2 ∧ o % 2 = 1) ∨ 1024 ≤ r) → F' = F) ∧
        (o + data.length ≤ 4 → ¬ (data.length = 2 ∧ o % 2 = 1) → ∀ v, csRead32 F.cs r = some v →
          ∃ w, csRead32 F'.cs r = some w ∧ ∀ j < 4, w.extractLsb' (8 * j) 8 =
            if o ≤ j then (data[j - o]?).getD (v.extractLsb' (8 * j) 8) else v.extractLsb' (8 * j) 8))

/-! ## Buses -/

/-- The three lookups return what the longer name names, and change nothing: DEV_GET_FN a function of the device,
BUS_GET_BUS a direct child, BUS_GET_DEV a device. -/
def Obligations.LookupsReturnTheNamedNode : Prop :=
  ∀ s : State,
    (∀ (p : BusRef) (B : Bus), busAt s p = some B →
      (∀ b, exec (.busGetBus p b) s = .next (answer s (.bus (busAt s (below p b))))) ∧
      ∀ d, exec (.busGetDev p d) s = .next (answer s (.device (devAt s (.node p d))))) ∧
    ∀ (u : DevRef) (D : Device) (f : Nat), devAt s u = some D →
      exec (.devGetFn u f) s = .next (answer s (.function (fnAt s (.inDev u f))))

/-- BUS_ADD_DEV into a free slot: the bus gains the device under its own number; every other device, every bus, `CA`
and the held functions stay; and the device is the host's no longer (log 3). -/
def Obligations.AddDeviceFillsTheSlot : Prop :=
  ∀ (s : State) (p : BusRef) (src : DevSrc) (B : Bus) (D : Device),
    busAt s p = some B → srcDev s src = some D → D.number < 32 → busDevice B D.number = none →
      ∃ t, exec (.busAddDev p src) s = .next t ∧ t.reply = .ok ∧ t.ca = s.ca ∧ t.pending = s.pending ∧
        t.caller = s.caller ∧ t.heldFns = s.heldFns ∧ devAt t (.node p D.number) = some D ∧
        (∀ q d, (q, d) ≠ (p, D.number) → devAt t (.node q d) = devAt s (.node q d)) ∧
        (∀ q, (busAt t q).map Bus.number = (busAt s q).map Bus.number) ∧
        ∀ k, heldDev t k = if src = .held k then none else heldDev s k

/-- BUS_ADD_BUS into a free slot: under the child's own number below the bus stands the child with everything below
it; every other bus and device, `CA`, and the held functions and devices stay; and the child is the host's no longer
(the model's reading of rule R38, log 3). -/
def Obligations.AddBusFillsTheSlot : Prop :=
  ∀ (s : State) (p : BusRef) (src : BusSrc) (B C : Bus),
    srcBus s src = some C → busAt (useBus s src) p = some B → C.number < 256 → busChild B C.number = none →
      ∃ t, exec (.busAddBus p src) s = .next t ∧ t.reply = .ok ∧ t.ca = s.ca ∧ t.pending = s.pending ∧
        t.caller = s.caller ∧ t.heldFns = s.heldFns ∧ t.heldDevs = s.heldDevs ∧
        (∀ q, busAt t ⟨p.base, p.path ++ C.number :: q⟩ = nodeAt C q) ∧
        (∀ q, (∀ r, q ≠ ⟨p.base, p.path ++ C.number :: r⟩) →
          (∀ k, src = .held k → q.base ≠ some k) →
          (busAt t q).map Bus.number = (busAt s q).map Bus.number ∧
          (busAt t q).map Bus.devices = (busAt s q).map Bus.devices) ∧
        ∀ k, src = .held k → ∀ q, busAt t ⟨some k, q⟩ = none

/-- BUS_REMOVE_DEV: an occupied slot is emptied, the device is returned and held by the host (log 3), and every other device
and every bus stays; an empty slot returns `absent` and nothing changes. -/
def Obligations.RemoveDeviceEmptiesTheSlot : Prop :=
  ∀ (s : State) (p : BusRef) (d dst : Nat) (B : Bus), busAt s p = some B →
    (busDevice B d = none → exec (.busRemoveDev p d dst) s = .next (answer s (.device none))) ∧
    (∀ D, busDevice B d = some D →
      ∃ t, exec (.busRemoveDev p d dst) s = .next t ∧ t.reply = .device (some D) ∧ t.ca = s.ca ∧
        t.pending = s.pending ∧ t.caller = s.caller ∧ t.heldFns = s.heldFns ∧ devAt t (.node p d) = none ∧
        (∀ q e, (q, e) ≠ (p, d) → devAt t (.node q e) = devAt s (.node q e)) ∧
        (∀ q, (busAt t q).map Bus.number = (busAt s q).map Bus.number) ∧
        ∀ k, heldDev t k = if k = dst then some D else heldDev s k)

/-- BUS_REMOVE_BUS: the child leaves the tree with everything below it, is returned and held by the host; every other
bus and device, `CA`, and the held functions and devices stay; an empty slot returns `absent` and nothing changes.
(What the host held under the name it keeps the child by, it drops: log 3.) -/
def Obligations.RemoveBusEmptiesTheSlot : Prop :=
  ∀ (s : State) (p : BusRef) (b dst : Nat) (B : Bus), busAt s p = some B →
    (busChild B b = none → exec (.busRemoveBus p b dst) s = .next (answer s (.bus none))) ∧
    (∀ C, busChild B b = some C →
      ∃ t, exec (.busRemoveBus p b dst) s = .next t ∧ t.reply = .bus (some C) ∧ t.ca = s.ca ∧
        t.pending = s.pending ∧ t.caller = s.caller ∧ t.heldFns = s.heldFns ∧ t.heldDevs = s.heldDevs ∧
        (∀ q, busAt t ⟨some dst, q⟩ = nodeAt C q) ∧
        (p.base ≠ some dst → ∀ q, busAt t ⟨p.base, p.path ++ b :: q⟩ = none) ∧
        ∀ q, (∀ r, q ≠ ⟨p.base, p.path ++ b :: r⟩) → q.base ≠ some dst →
          (busAt t q).map Bus.number = (busAt s q).map Bus.number ∧
          (busAt t q).map Bus.devices = (busAt s q).map Bus.devices)

/-- BUS_RD resolves at the bus itself when the number is its own, else at its direct child of that number, and is
`absent` beyond: no bus two levels down is reached, and nothing changes. -/
def Obligations.BusReadResolvesWithinOneLevel : Prop :=
  ∀ (s : State) (p : BusRef) (B : Bus) (b d f r : Nat), busAt s p = some B →
    exec (.busRd p b d f r) s = .next (answer s (.dword
      (if b = B.number then regAt s (.inDev (.node p d) f) r else regAt s (.inDev (.node (below p b) d) f) r)))

/-- BUS_WR: the register at the bus itself, or at its direct child of that number, takes the bytes in the addressed
lanes unless the shape is dropped; every other register of every function, the topology and `CA` keep their values. -/
def Obligations.BusWriteResolvesWithinOneLevel : Prop :=
  ∀ (s : State) (p : BusRef) (B : Bus) (b d f r o : Nat) (data : List Byte), busAt s p = some B →
    let target : FnRef := if b = B.number then .inDev (.node p d) f else .inDev (.node (below p b) d) f
    ∃ t, exec (.busWr p b d f r o data) s = .next t ∧ stateBare t = stateBare (answer s .nothing) ∧
      (∀ u q, (u, q) ≠ (target, r) → regAt t u q = regAt s u q) ∧
      ((regAt s target r = none ∨ o + data.length > 4 ∨ (data.length = 2 ∧ o % 2 = 1)) → t = answer s .nothing) ∧
      (o + data.length ≤ 4 → ¬ (data.length = 2 ∧ o % 2 = 1) → ∀ v, regAt s target r = some v →
        ∃ w, regAt t target r = some w ∧ ∀ j < 4, w.extractLsb' (8 * j) 8 =
          if o ≤ j then (data[j - o]?).getD (v.extractLsb' (8 * j) 8) else v.extractLsb' (8 * j) 8)

/-- Rule R193: an access for a direct child's number issued against the bus is the access issued against the child. -/
def Obligations.RoutingThroughAParentEqualsRoutingAtTheChild : Prop :=
  ∀ (s : State) (p : BusRef) (B C : Bus) (b d f r : Nat),
    busAt s p = some B → busChild B b = some C → b ≠ B.number →
      exec (.busRd p b d f r) s = exec (.busRd (below p b) b d f r) s ∧
      ∀ o data, exec (.busWr p b d f r o data) s = exec (.busWr (below p b) b d f r o data) s

/-- Rule R191: a child whose number is its parent's own is never reached from the parent: inserting it changes no
read from the parent, whatever the coordinate, and no write from the parent changes it; so too for a guest, whatever
`CA`, and a child of Bus 0 numbered 0. -/
def Obligations.ShadowedChildIsNeverReached : Prop :=
  (∀ (s t : State) (p : BusRef) (src : BusSrc) (B C : Bus), busAt s p = some B → srcBus s src = some C →
    C.number = B.number → exec (.busAddBus p src) s = .next t → t.reply = .ok →
      (∀ b d f r, ∃ v, exec (.busRd p b d f r) s = .next (answer s (.dword v)) ∧
        exec (.busRd p b d f r) t = .next (answer t (.dword v))) ∧
      (p = ⟨none, []⟩ → ∀ ca o n, ∃ data,
        exec (guestRead o n) (setCa s ca) = .next (answer (setCa s ca) (.bytes data)) ∧
        exec (guestRead o n) (setCa t ca) = .next (answer (setCa t ca) (.bytes data)))) ∧
  (∀ (s t : State) (p : BusRef) (B : Bus) (b d f r o : Nat) (data : List Byte), busAt s p = some B →
    exec (.busWr p b d f r o data) s = .next t →
      busAt t (below p B.number) = busAt s (below p B.number)) ∧
  (∀ (s t : State) (o : Nat) (data : List Byte),
    exec (guestWrite o data) s = .next t → busAt t ⟨none, [s.root.number]⟩ = busAt s ⟨none, [s.root.number]⟩)

/-- A guest reaches Bus 0 and its direct children only: with any other bus number in `CA`, a bus deeper in the tree
among them, every data-window read is all ones and every data-window write is dropped. -/
def Obligations.GuestsReachOnlyBusZeroAndItsChildren : Prop :=
  ∀ s : State, caBus s.ca ≠ s.root.number → busAt s ⟨none, [caBus s.ca]⟩ = none →
    (∀ o n, wellShaped o n = true → 4 ≤ o →
      exec (guestRead o n) s = .next (answer s (.bytes (List.replicate n 0xFF#8)))) ∧
    (∀ o data, 4 ≤ o → exec (guestWrite o data) s = .next (answer s .nothing))

/-- Rule R192: a bus holds at most 32 devices; 32 adds to an empty bus succeed and a 33rd fails; removing any device
makes its slot available again. -/
def Obligations.BusHoldsAtMost32Devices : Prop :=
  ∀ (s : State) (p : BusRef) (B : Bus), stateWf s = true → busAt s p = some B →
    B.devices.length ≤ 32 ∧
    (B.devices = [] → ∃ t B', execAll ((List.range 32).map (fun n => .busAddDev p (.made n))) s = .next t ∧
      busAt t p = some B' ∧ B'.devices.length = 32) ∧
    (B.devices.length = 32 → ∀ src D, srcDev s src = some D →
      ∃ e, exec (.busAddDev p src) s = .next (answer s (.error e)) ∧
        (e = .deviceSlotInUse ∨ e = .invalidDeviceNumber)) ∧
    (∀ d D dst, busDevice B d = some D → ∃ t, exec (.busRemoveDev p d dst) s = .next t ∧
      ∀ src D', srcDev t src = some D' → D'.number = d →
        ∃ t', exec (.busAddDev p src) t = .next t' ∧ t'.reply = .ok)

/-! ## RootComplex -/

/-- RC_PARSE_ADDR and RC_READ_SPACE: the fields of `CA` by their bits, and the register they select, all ones where
the mechanism is disabled or the register is absent; and no change of state. -/
def Obligations.RootComplexReads : Prop :=
  ∀ s : State,
    exec .rcParseAddr s = .next (answer s (.coordinate ⟨s.ca.toNat / 2 ^ 16 % 256, s.ca.toNat / 2 ^ 11 % 32,
      s.ca.toNat / 2 ^ 8 % 8, s.ca.toNat / 4 % 64⟩)) ∧
    exec .rcReadSpace s = .next (answer s (.space
      (if s.ca.toNat < 2 ^ 31 then 0xFFFFFFFF#32
       else (regAt s (guestTarget s) (s.ca.toNat / 4 % 64)).getD 0xFFFFFFFF#32)))
end

