-- ==== Sys2Proof/Laws/Decode.lean ====
section
/-! SUPPORT. Each operand reader takes back what the encoder put, and a descriptor gives back the fields it was made
of. -/

namespace Sys2Proof

@[simp] theorem takeNat_cons (x : Nat) (xs : List Nat) : takeNat (x :: xs) = some (x, xs) := rfl
@[simp] theorem finish_nil (i : Instr) : finish i [] = some i := rfl

@[simp] theorem takeBits_toNat {w : Nat} (v : BitVec w) (xs : List Nat) :
    takeBits w (v.toNat :: xs) = some (v, xs) := by
  simp [takeBits, v.isLt]

@[simp] theorem takeBitsList_map {w : Nat} (vs : List (BitVec w)) (xs : List Nat) :
    takeBitsList w vs.length (vs.map BitVec.toNat ++ xs) = some (vs, xs) := by
  induction vs with
  | nil => rfl
  | cons v vs ih => simp [takeBitsList, ih]

@[simp] theorem takeBitsList_map_nil {w : Nat} (vs : List (BitVec w)) :
    takeBitsList w vs.length (vs.map BitVec.toNat) = some (vs, []) := by
  simpa using takeBitsList_map vs []

@[simp] theorem takeBytes_putBytes (data : List Byte) : takeBytes (putBytes data) = some (data, []) := by
  simp [takeBytes, putBytes]

@[simp] theorem takeBusRef_putBusRef (p : BusRef) (xs : List Nat) :
    takeBusRef (putBusRef p ++ xs) = some (p, xs) := by
  obtain ⟨base, path⟩ := p
  cases base <;> simp [putBusRef, takeBusRef]

@[simp] theorem takeDevRef_putDevRef (t : DevRef) (xs : List Nat) :
    takeDevRef (putDevRef t ++ xs) = some (t, xs) := by
  cases t <;> simp [putDevRef, takeDevRef]

@[simp] theorem takeFnRef_putFnRef (t : FnRef) (xs : List Nat) :
    takeFnRef (putFnRef t ++ xs) = some (t, xs) := by
  cases t <;> simp [putFnRef, takeFnRef]

@[simp] theorem takeFnSrc_putFnSrc (src : FnSrc) : takeFnSrc (putFnSrc src) = some (src, []) := by
  cases src with
  | held h => rfl
  | made n args => cases args <;> simp [putFnSrc, putHeaderArgs, takeFnSrc, takeType0, takeType1]

@[simp] theorem takeDevSrc_putDevSrc (src : DevSrc) : takeDevSrc (putDevSrc src) = some (src, []) := by
  cases src <;> rfl

@[simp] theorem takeBusSrc_putBusSrc (src : BusSrc) : takeBusSrc (putBusSrc src) = some (src, []) := by
  cases src <;> rfl

/-- The fields of a guest descriptor are the numbers it was made of (rule R98). -/
theorem guestDescriptor_fields (cls n o : Nat) (hc : cls < 4) (hn : n < 16) (ho : o < 256) :
    descriptorClass (guestDescriptor cls n o) = cls ∧ descriptorGuestZero (guestDescriptor cls n o) = 0 ∧
      descriptorCount (guestDescriptor cls n o) = n ∧ descriptorLow (guestDescriptor cls n o) = o := by
  have h : (guestDescriptor cls n o).toNat = cls * 2 ^ 14 + n * 2 ^ 8 + o := by
    simp only [guestDescriptor, BitVec.toNat_append, BitVec.toNat_ofNat]
    rw [Nat.mod_eq_of_lt (show cls < 2 ^ 2 by omega), Nat.mod_eq_of_lt (show n < 2 ^ 4 by omega),
      Nat.mod_eq_of_lt (show o < 2 ^ 8 by omega)]
    rw [← Nat.shiftLeft_add_eq_or_of_lt (show 0 % 2 ^ 2 < 2 ^ 2 by decide),
      ← Nat.shiftLeft_add_eq_or_of_lt (show n < 2 ^ 4 by omega),
      ← Nat.shiftLeft_add_eq_or_of_lt (show o < 2 ^ 8 by omega)]
    simp only [Nat.shiftLeft_eq]
    omega
  simp only [descriptorClass, descriptorGuestZero, descriptorCount, descriptorLow, BitVec.extractLsb'_toNat, h,
    Nat.shiftRight_eq_div_pow]
  refine ⟨?_, ?_, ?_, ?_⟩ <;> omega

/-- A guest read with a descriptor decodes to the row of its span. -/
theorem decode_encodeRead (o n : Nat) : decode (encodeRead o n) = .ok (guestRead o n) := by
  unfold encodeRead
  split
  · next h =>
    obtain ⟨hc, hz, hn, ho⟩ := guestDescriptor_fields 0 n o (by decide) h.2 h.1
    simp [decode, hc, decodeGuestRead, hz, hn, ho, orBadOperands]
  · rfl

/-- A guest write with a descriptor decodes to the row of its span. -/
theorem decode_encodeWrite (o : Nat) (data : List Byte) : decode (encodeWrite o data) = .ok (guestWrite o data) := by
  unfold encodeWrite
  split
  · next h =>
    obtain ⟨hc, hz, hn, ho⟩ := guestDescriptor_fields 1 data.length o (by decide) h.2 h.1
    simp [decode, hc, decodeGuestWrite, hz, hn, ho, orBadOperands]
  · rfl

end Sys2Proof
end

