-- ==== Sys2Proof/Laws/Lanes.lean ====
section
/-! SUPPORT. Byte lanes, half-words and little-endian values: reading after writing, and the views of one another. -/

namespace Sys2Proof.Machine

theorem lane_setLane_self (v : Dword) (k : Nat) (b : Byte) (hk : k < 4) : lane (setLane v k b) k = b := by
  unfold lane setLane
  interval_cases k <;> (ext i hi; interval_cases i <;> simp)

theorem lane_setLane_of_ne (v : Dword) (j k : Nat) (b : Byte) (hj : j < 4) (hk : k < 4) (h : j ≠ k) :
    lane (setLane v k b) j = lane v j := by
  unfold lane setLane
  interval_cases k <;> interval_cases j <;> first | (exact absurd rfl h) | (ext i hi; interval_cases i <;> simp)

/-- A dword is its four lanes. -/
theorem le32_lanes (v : Dword) : le32 (lane v 0) (lane v 1) (lane v 2) (lane v 3) = v := by
  unfold le32 lane
  apply BitVec.eq_of_getLsbD_eq
  intro i hi
  simp only [BitVec.getLsbD_append, BitVec.getLsbD_extractLsb']
  interval_cases i <;> simp

theorem dword_eq_of_lanes (v w : Dword) (h : ∀ k < 4, lane v k = lane w k) : v = w := by
  rw [← le32_lanes v, ← le32_lanes w, h 0 (by decide), h 1 (by decide), h 2 (by decide), h 3 (by decide)]

/-- The byte at lane `k` of four little-endian bytes. -/
theorem lane_le32 (b0 b1 b2 b3 : Byte) :
    lane (le32 b0 b1 b2 b3) 0 = b0 ∧ lane (le32 b0 b1 b2 b3) 1 = b1 ∧
      lane (le32 b0 b1 b2 b3) 2 = b2 ∧ lane (le32 b0 b1 b2 b3) 3 = b3 := by
  unfold le32 lane
  refine ⟨?_, ?_, ?_, ?_⟩ <;>
    (apply BitVec.eq_of_getLsbD_eq
     intro i hi
     simp only [BitVec.getLsbD_append, BitVec.getLsbD_extractLsb']
     interval_cases i <;> simp)

/-- Writing the four lanes in order leaves the little-endian value, whatever was there. -/
theorem setLanes_four (v : Dword) (b0 b1 b2 b3 : Byte) : setLanes v 0 [b0, b1, b2, b3] = le32 b0 b1 b2 b3 := by
  obtain ⟨h0, h1, h2, h3⟩ := lane_le32 b0 b1 b2 b3
  apply dword_eq_of_lanes
  intro k hk
  simp only [setLanes]
  interval_cases k
  · rw [h0]; simp [lane_setLane_of_ne, lane_setLane_self]
  · rw [h1]; simp [lane_setLane_of_ne, lane_setLane_self]
  · rw [h2]; simp [lane_setLane_of_ne, lane_setLane_self]
  · rw [h3]; simp [lane_setLane_self]

/-- What each lane holds after a run of lane writes that stays inside the register. -/
theorem lane_setLanes (data : List Byte) (v : Dword) (o j : Nat) (hj : j < 4) (ho : o + data.length ≤ 4) :
    lane (setLanes v o data) j = if h : o ≤ j ∧ j - o < data.length then data[j - o]'h.2 else lane v j := by
  induction data generalizing v o with
  | nil => simp [setLanes]
  | cons b rest ih =>
    simp only [List.length_cons] at ho
    rw [setLanes, ih (setLane v o b) (o + 1) (by omega)]
    by_cases h1 : o + 1 ≤ j ∧ j - (o + 1) < rest.length
    · have h2 : o ≤ j ∧ j - o < (b :: rest).length := by simp only [List.length_cons]; omega
      rw [dif_pos h1, dif_pos h2]
      obtain ⟨m, rfl⟩ : ∃ m, j = o + 1 + m := ⟨j - (o + 1), by omega⟩
      simp only [Nat.add_sub_cancel_left, show o + 1 + m - o = m + 1 by omega, List.getElem_cons_succ]
    · rw [dif_neg h1]
      by_cases h3 : j = o
      · subst h3
        rw [dif_pos (by simp)]
        simp [lane_setLane_self v j b hj]
      · rw [lane_setLane_of_ne v j o b hj (by omega) h3, dif_neg]
        simp only [List.length_cons]
        omega

theorem half_setHalf_self (v : Dword) (h : Nat) (x : Half) (hh : h < 2) : half (setHalf v h x) h = x := by
  unfold half setHalf
  interval_cases h <;> (ext i hi; interval_cases i <;> simp)

theorem half_setHalf_of_ne (v : Dword) (g h : Nat) (x : Half) (hg : g < 2) (hh : h < 2) (hne : g ≠ h) :
    half (setHalf v h x) g = half v g := by
  unfold half setHalf
  interval_cases h <;> interval_cases g <;> first | (exact absurd rfl hne) | (ext i hi; interval_cases i <;> simp)

/-- A half-word is its two lanes, low lane first (rule R133). -/
theorem half_eq_le16 (v : Dword) (h : Nat) (hh : h < 2) : half v h = le16 (lane v (2 * h)) (lane v (2 * h + 1)) := by
  unfold half le16 lane
  apply BitVec.eq_of_getLsbD_eq
  intro i hi
  simp only [BitVec.getLsbD_append, BitVec.getLsbD_extractLsb']
  interval_cases h <;> interval_cases i <;> simp

/-- Writing a half-word is writing its two lanes (rule R133). -/
theorem setHalf_le16 (v : Dword) (h : Nat) (b0 b1 : Byte) (hh : h < 2) :
    setHalf v h (le16 b0 b1) = setLane (setLane v (2 * h) b0) (2 * h + 1) b1 := by
  unfold setHalf setLane le16
  apply BitVec.eq_of_getLsbD_eq
  intro i hi
  simp only [BitVec.getLsbD_or, BitVec.getLsbD_and, BitVec.getLsbD_not, BitVec.getLsbD_shiftLeft,
    BitVec.getLsbD_setWidth, BitVec.getLsbD_append]
  interval_cases h <;> interval_cases i <;> simp

@[simp] theorem bytesLE_length (v : Dword) (s n : Nat) : (bytesLE v s n).length = n := by
  induction n generalizing s with
  | zero => rfl
  | succ n ih => simp [bytesLE, ih]

/-- Byte `i` of a narrow read is lane `s + i` (rule R230). -/
theorem bytesLE_getElem (v : Dword) (s n i : Nat) (h : i < (bytesLE v s n).length) :
    (bytesLE v s n)[i] = lane v (s + i) := by
  induction n generalizing s i with
  | zero => simp [bytesLE] at h
  | succ n ih =>
    cases i with
    | zero => simp [bytesLE]
    | succ i => simp only [bytesLE, List.getElem_cons_succ]; rw [ih]; congr 1; omega

/-- Every byte of the all-ones dword is 0xFF. -/
theorem bytesLE_allOnes (s n : Nat) (h : s + n ≤ 4) : bytesLE allOnes s n = List.replicate n 0xFF#8 := by
  induction n generalizing s with
  | zero => rfl
  | succ n ih =>
    rw [bytesLE, List.replicate_succ, ih (s + 1) (by omega)]
    have hs : s < 4 := by omega
    interval_cases s <;> rfl

end Sys2Proof.Machine
end

