-- ==== Sys2Proof/Laws/Maps.lean ====
section
/-! SUPPORT. The finite maps: what a lookup finds after an insertion, an erasure or an update, and that each keeps
the canonical form. The lookups hold of every list; only the canonical form needs the canonical form. -/

namespace Sys2Proof.Machine

section
variable {α : Type} {key : α → Nat}

@[simp] theorem mapFind_nil (k : Nat) : mapFind key k [] = none := rfl

theorem mapFind_key {k : Nat} {m : List α} {x : α} (h : mapFind key k m = some x) : key x = k := by
  induction m with
  | nil => cases h
  | cons y rest ih =>
    simp only [mapFind] at h
    split at h
    · cases h; assumption
    · exact ih h

theorem mapFind_mem {k : Nat} {m : List α} {x : α} (h : mapFind key k m = some x) : x ∈ m := by
  induction m with
  | nil => cases h
  | cons y rest ih =>
    simp only [mapFind] at h
    split at h
    · cases h; exact List.mem_cons_self
    · exact List.mem_cons_of_mem _ (ih h)

theorem mapFind_eq_none {k : Nat} {m : List α} : mapFind key k m = none ↔ ∀ x ∈ m, key x ≠ k := by
  induction m with
  | nil => simp
  | cons y rest ih =>
    simp only [mapFind]
    split
    · simp_all
    · simp_all

/-- A lookup after an insertion: the new entry under its key, every other key as before. -/
theorem mapFind_mapInsert (k : Nat) (x : α) (m : List α) :
    mapFind key k (mapInsert key x m) = if k = key x then some x else mapFind key k m := by
  induction m with
  | nil =>
    by_cases h : k = key x
    · simp [mapInsert, mapFind, h]
    · simp [mapInsert, mapFind, h, Ne.symm h]
  | cons y rest ih =>
    by_cases h : k = key x
    · subst h
      by_cases h1 : key x < key y
      · simp [mapInsert, mapFind, h1]
      · by_cases h2 : key x = key y
        · simp [mapInsert, mapFind, h2]
        · have h3 : ¬ key y = key x := fun e => h2 e.symm
          simpa [mapInsert, mapFind, h1, h2, h3] using ih
    · rw [if_neg h] at ih ⊢
      have h' : ¬ key x = k := fun e => h e.symm
      by_cases h1 : key x < key y
      · simp [mapInsert, mapFind, h1, h']
      · by_cases h2 : key x = key y
        · have h4 : ¬ key y = k := fun e => h' (h2.trans e)
          simp [mapInsert, mapFind, h2, h4]
        · simp only [mapInsert, h1, h2, if_false, mapFind, ih]

/-- A lookup after an erasure. -/
theorem mapFind_mapErase (k j : Nat) (m : List α) :
    mapFind key k (mapErase key j m) = if k = j then none else mapFind key k m := by
  induction m with
  | nil => simp [mapErase]
  | cons y rest ih =>
    simp only [mapErase]
    by_cases h : key y = j
    · simp only [h, if_true, ih, mapFind]
      by_cases h2 : k = j
      · simp [h2]
      · have h3 : ¬ j = k := fun e => h2 e.symm
        simp [h2, h3]
    · simp only [h, if_false, mapFind]
      by_cases h2 : key y = k
      · have h3 : ¬ k = j := fun e => h (h2.trans e)
        simp [h2, h3]
      · simp [h2, ih]

/-- A lookup after an update that keeps keys. -/
theorem mapFind_mapUpdate (k j : Nat) (g : α → α) (m : List α) (hg : ∀ x, key (g x) = key x) :
    mapFind key k (mapUpdate key j g m) = if k = j then (mapFind key j m).map g else mapFind key k m := by
  induction m with
  | nil => simp [mapUpdate]
  | cons y rest ih =>
    simp only [mapUpdate]
    by_cases h : key y = j
    · by_cases h2 : k = j
      · simp [h, h2, mapFind, hg]
      · have h3 : ¬ key y = k := fun e => h2 (e.symm.trans h)
        have h4 : ¬ j = k := fun e => h2 e.symm
        simp [h, h2, h4, mapFind, hg]
    · by_cases h2 : key y = k
      · have h3 : ¬ k = j := fun e => h (h2.trans e)
        simp [h2, h3, mapFind]
      · simp only [h, h2, if_false, mapFind]
        rw [ih]

theorem mapUpdate_id (k : Nat) (m : List α) : mapUpdate key k id m = m := by
  induction m with
  | nil => rfl
  | cons y rest ih => simp only [mapUpdate]; split <;> simp [ih]

theorem mapUpdate_of_none {k : Nat} {m : List α} (g : α → α) (h : mapFind key k m = none) :
    mapUpdate key k g m = m := by
  induction m with
  | nil => rfl
  | cons y rest ih =>
    simp only [mapFind] at h
    split at h
    · cases h
    · next hy => simp [mapUpdate, hy, ih h]

theorem mapUpdate_keys (k : Nat) (g : α → α) (m : List α) (hg : ∀ x, key (g x) = key x) :
    (mapUpdate key k g m).map key = m.map key := by
  induction m with
  | nil => rfl
  | cons y rest ih =>
    simp only [mapUpdate]
    split
    · simp [hg]
    · simp [ih]

theorem mem_mapInsert {x y : α} {m : List α} (h : y ∈ mapInsert key x m) : y = x ∨ y ∈ m := by
  induction m with
  | nil => simpa [mapInsert] using h
  | cons z rest ih =>
    simp only [mapInsert] at h
    split at h
    · simpa using h
    · split at h
      · rcases List.mem_cons.1 h with h | h
        · exact .inl h
        · exact .inr (List.mem_cons_of_mem _ h)
      · rcases List.mem_cons.1 h with h | h
        · exact .inr (h ▸ List.mem_cons_self)
        · rcases ih h with h | h
          · exact .inl h
          · exact .inr (List.mem_cons_of_mem _ h)

theorem mem_mapErase {y : α} {k : Nat} {m : List α} (h : y ∈ mapErase key k m) : y ∈ m := by
  induction m with
  | nil => simp [mapErase] at h
  | cons z rest ih =>
    simp only [mapErase] at h
    split at h
    · exact List.mem_cons_of_mem _ (ih h)
    · rcases List.mem_cons.1 h with h | h
      · exact h ▸ List.mem_cons_self
      · exact List.mem_cons_of_mem _ (ih h)

/-- An entry of an updated map is an old entry or the image of one under that key. -/
theorem mem_mapUpdate {y : α} {k : Nat} {g : α → α} {m : List α} (h : y ∈ mapUpdate key k g m) :
    y ∈ m ∨ ∃ x ∈ m, key x = k ∧ y = g x := by
  induction m with
  | nil => simp [mapUpdate] at h
  | cons z rest ih =>
    simp only [mapUpdate] at h
    split at h
    · next hz =>
      rcases List.mem_cons.1 h with h | h
      · exact .inr ⟨z, List.mem_cons_self, hz, h⟩
      · exact .inl (List.mem_cons_of_mem _ h)
    · rcases List.mem_cons.1 h with h | h
      · exact .inl (h ▸ List.mem_cons_self)
      · rcases ih h with h | ⟨x, hx, hk, he⟩
        · exact .inl (List.mem_cons_of_mem _ h)
        · exact .inr ⟨x, List.mem_cons_of_mem _ hx, hk, he⟩

theorem mapInsert_pairwise (x : α) (m : List α) (h : (m.map key).Pairwise (· < ·)) :
    ((mapInsert key x m).map key).Pairwise (· < ·) := by
  induction m with
  | nil => simp [mapInsert]
  | cons y rest ih =>
    simp only [List.map_cons, List.pairwise_cons, List.mem_map, forall_exists_index, and_imp,
      forall_apply_eq_imp_iff₂] at h
    simp only [mapInsert]
    split
    · next hxy =>
      simp only [List.map_cons, List.pairwise_cons, List.mem_cons, List.mem_map]
      refine ⟨?_, by simpa using h⟩
      rintro a (rfl | ⟨z, hz, rfl⟩)
      · exact hxy
      · exact lt_trans hxy (h.1 z hz)
    · split
      · next hxy => simpa [hxy] using h
      · next h1 h2 =>
        simp only [List.map_cons, List.pairwise_cons, List.mem_map, forall_exists_index, and_imp,
          forall_apply_eq_imp_iff₂]
        refine ⟨fun z hz => ?_, ih h.2⟩
        rcases mem_mapInsert hz with rfl | hz
        · omega
        · exact h.1 z hz

theorem mapErase_pairwise (k : Nat) (m : List α) (h : (m.map key).Pairwise (· < ·)) :
    ((mapErase key k m).map key).Pairwise (· < ·) := by
  induction m with
  | nil => simp [mapErase]
  | cons y rest ih =>
    simp only [List.map_cons, List.pairwise_cons, List.mem_map, forall_exists_index, and_imp,
      forall_apply_eq_imp_iff₂] at h
    simp only [mapErase]
    split
    · exact ih h.2
    · simp only [List.map_cons, List.pairwise_cons, List.mem_map, forall_exists_index, and_imp,
        forall_apply_eq_imp_iff₂]
      exact ⟨fun z hz => h.1 z (mem_mapErase hz), ih h.2⟩

theorem mapWf_iff {bound : Nat} {m : List α} :
    mapWf key bound m = true ↔ (m.map key).Pairwise (· < ·) ∧ ∀ x ∈ m, key x < bound := by
  simp [mapWf]

theorem mapRising_iff {m : List α} : mapRising key m = true ↔ (m.map key).Pairwise (· < ·) := by
  simp [mapRising]

theorem mapWf_mapInsert {bound : Nat} {x : α} {m : List α} (h : mapWf key bound m = true) (hx : key x < bound) :
    mapWf key bound (mapInsert key x m) = true := by
  rw [mapWf_iff] at h ⊢
  refine ⟨mapInsert_pairwise x m h.1, fun y hy => ?_⟩
  rcases mem_mapInsert hy with rfl | hy
  · exact hx
  · exact h.2 y hy

theorem mapWf_mapErase {bound k : Nat} {m : List α} (h : mapWf key bound m = true) :
    mapWf key bound (mapErase key k m) = true := by
  rw [mapWf_iff] at h ⊢
  exact ⟨mapErase_pairwise k m h.1, fun y hy => h.2 y (mem_mapErase hy)⟩

theorem mapWf_mapUpdate {bound k : Nat} {g : α → α} {m : List α} (hg : ∀ x, key (g x) = key x)
    (h : mapWf key bound m = true) : mapWf key bound (mapUpdate key k g m) = true := by
  rw [mapWf_iff] at h ⊢
  refine ⟨by rw [mapUpdate_keys k g m hg]; exact h.1, fun y hy => ?_⟩
  rcases mem_mapUpdate hy with hy | ⟨x, hx, -, rfl⟩
  · exact h.2 y hy
  · rw [hg]; exact h.2 x hx

theorem mapRising_mapInsert {x : α} {m : List α} (h : mapRising key m = true) :
    mapRising key (mapInsert key x m) = true :=
  mapRising_iff.2 (mapInsert_pairwise x m (mapRising_iff.1 h))

theorem mapRising_mapErase {k : Nat} {m : List α} (h : mapRising key m = true) :
    mapRising key (mapErase key k m) = true :=
  mapRising_iff.2 (mapErase_pairwise k m (mapRising_iff.1 h))

theorem mapRising_mapUpdate {k : Nat} {g : α → α} {m : List α} (hg : ∀ x, key (g x) = key x)
    (h : mapRising key m = true) : mapRising key (mapUpdate key k g m) = true :=
  mapRising_iff.2 (by rw [mapUpdate_keys k g m hg]; exact mapRising_iff.1 h)

end

end Sys2Proof.Machine
end

