-- ==== Sys2Proof/Laws/State.lean ====
section
/-! SUPPORT. What each update of the state changes and what it leaves, one lemma per field per update. -/

namespace Sys2Proof.Machine

@[simp] theorem answer_ca (s : State) (r : Reply) : (answer s r).ca = s.ca := rfl
@[simp] theorem answer_root (s : State) (r : Reply) : (answer s r).root = s.root := rfl
@[simp] theorem answer_heldFns (s : State) (r : Reply) : (answer s r).heldFns = s.heldFns := rfl
@[simp] theorem answer_heldDevs (s : State) (r : Reply) : (answer s r).heldDevs = s.heldDevs := rfl
@[simp] theorem answer_heldBuses (s : State) (r : Reply) : (answer s r).heldBuses = s.heldBuses := rfl
@[simp] theorem answer_pending (s : State) (r : Reply) : (answer s r).pending = s.pending := rfl
@[simp] theorem answer_reply (s : State) (r : Reply) : (answer s r).reply = r := rfl
@[simp] theorem answer_caller (s : State) (r : Reply) : (answer s r).caller = s.caller := rfl

@[simp] theorem setCa_ca (s : State) (v : Dword) : (setCa s v).ca = v := rfl
@[simp] theorem setCa_root (s : State) (v : Dword) : (setCa s v).root = s.root := rfl
@[simp] theorem setCa_heldFns (s : State) (v : Dword) : (setCa s v).heldFns = s.heldFns := rfl
@[simp] theorem setCa_heldDevs (s : State) (v : Dword) : (setCa s v).heldDevs = s.heldDevs := rfl
@[simp] theorem setCa_heldBuses (s : State) (v : Dword) : (setCa s v).heldBuses = s.heldBuses := rfl
@[simp] theorem setCa_pending (s : State) (v : Dword) : (setCa s v).pending = s.pending := rfl
@[simp] theorem setCa_reply (s : State) (v : Dword) : (setCa s v).reply = s.reply := rfl
@[simp] theorem setCa_caller (s : State) (v : Dword) : (setCa s v).caller = s.caller := rfl

@[simp] theorem setRoot_ca (s : State) (B : Bus) : (setRoot s B).ca = s.ca := rfl
@[simp] theorem setRoot_root (s : State) (B : Bus) : (setRoot s B).root = B := rfl
@[simp] theorem setRoot_heldFns (s : State) (B : Bus) : (setRoot s B).heldFns = s.heldFns := rfl
@[simp] theorem setRoot_heldDevs (s : State) (B : Bus) : (setRoot s B).heldDevs = s.heldDevs := rfl
@[simp] theorem setRoot_heldBuses (s : State) (B : Bus) : (setRoot s B).heldBuses = s.heldBuses := rfl
@[simp] theorem setRoot_pending (s : State) (B : Bus) : (setRoot s B).pending = s.pending := rfl
@[simp] theorem setRoot_reply (s : State) (B : Bus) : (setRoot s B).reply = s.reply := rfl
@[simp] theorem setRoot_caller (s : State) (B : Bus) : (setRoot s B).caller = s.caller := rfl

@[simp] theorem setHeldFns_ca (s : State) (m : List (Nat × Function)) : (setHeldFns s m).ca = s.ca := rfl
@[simp] theorem setHeldFns_root (s : State) (m : List (Nat × Function)) : (setHeldFns s m).root = s.root := rfl
@[simp] theorem setHeldFns_heldFns (s : State) (m : List (Nat × Function)) : (setHeldFns s m).heldFns = m := rfl
@[simp] theorem setHeldFns_heldDevs (s : State) (m : List (Nat × Function)) : (setHeldFns s m).heldDevs = s.heldDevs := rfl
@[simp] theorem setHeldFns_heldBuses (s : State) (m : List (Nat × Function)) : (setHeldFns s m).heldBuses = s.heldBuses := rfl
@[simp] theorem setHeldFns_pending (s : State) (m : List (Nat × Function)) : (setHeldFns s m).pending = s.pending := rfl
@[simp] theorem setHeldFns_reply (s : State) (m : List (Nat × Function)) : (setHeldFns s m).reply = s.reply := rfl
@[simp] theorem setHeldFns_caller (s : State) (m : List (Nat × Function)) : (setHeldFns s m).caller = s.caller := rfl

@[simp] theorem setHeldDevs_ca (s : State) (m : List (Nat × Device)) : (setHeldDevs s m).ca = s.ca := rfl
@[simp] theorem setHeldDevs_root (s : State) (m : List (Nat × Device)) : (setHeldDevs s m).root = s.root := rfl
@[simp] theorem setHeldDevs_heldFns (s : State) (m : List (Nat × Device)) : (setHeldDevs s m).heldFns = s.heldFns := rfl
@[simp] theorem setHeldDevs_heldDevs (s : State) (m : List (Nat × Device)) : (setHeldDevs s m).heldDevs = m := rfl
@[simp] theorem setHeldDevs_heldBuses (s : State) (m : List (Nat × Device)) : (setHeldDevs s m).heldBuses = s.heldBuses := rfl
@[simp] theorem setHeldDevs_pending (s : State) (m : List (Nat × Device)) : (setHeldDevs s m).pending = s.pending := rfl
@[simp] theorem setHeldDevs_reply (s : State) (m : List (Nat × Device)) : (setHeldDevs s m).reply = s.reply := rfl
@[simp] theorem setHeldDevs_caller (s : State) (m : List (Nat × Device)) : (setHeldDevs s m).caller = s.caller := rfl

@[simp] theorem setHeldBuses_ca (s : State) (m : List (Nat × Bus)) : (setHeldBuses s m).ca = s.ca := rfl
@[simp] theorem setHeldBuses_root (s : State) (m : List (Nat × Bus)) : (setHeldBuses s m).root = s.root := rfl
@[simp] theorem setHeldBuses_heldFns (s : State) (m : List (Nat × Bus)) : (setHeldBuses s m).heldFns = s.heldFns := rfl
@[simp] theorem setHeldBuses_heldDevs (s : State) (m : List (Nat × Bus)) : (setHeldBuses s m).heldDevs = s.heldDevs := rfl
@[simp] theorem setHeldBuses_heldBuses (s : State) (m : List (Nat × Bus)) : (setHeldBuses s m).heldBuses = m := rfl
@[simp] theorem setHeldBuses_pending (s : State) (m : List (Nat × Bus)) : (setHeldBuses s m).pending = s.pending := rfl
@[simp] theorem setHeldBuses_reply (s : State) (m : List (Nat × Bus)) : (setHeldBuses s m).reply = s.reply := rfl
@[simp] theorem setHeldBuses_caller (s : State) (m : List (Nat × Bus)) : (setHeldBuses s m).caller = s.caller := rfl

@[simp] theorem taken_ca (s : State) (rest : List Request) (a : Agent) : (taken s rest a).ca = s.ca := rfl
@[simp] theorem taken_root (s : State) (rest : List Request) (a : Agent) : (taken s rest a).root = s.root := rfl
@[simp] theorem taken_heldFns (s : State) (rest : List Request) (a : Agent) : (taken s rest a).heldFns = s.heldFns := rfl
@[simp] theorem taken_heldDevs (s : State) (rest : List Request) (a : Agent) : (taken s rest a).heldDevs = s.heldDevs := rfl
@[simp] theorem taken_heldBuses (s : State) (rest : List Request) (a : Agent) : (taken s rest a).heldBuses = s.heldBuses := rfl
@[simp] theorem taken_pending (s : State) (rest : List Request) (a : Agent) : (taken s rest a).pending = rest := rfl
@[simp] theorem taken_reply (s : State) (rest : List Request) (a : Agent) : (taken s rest a).reply = s.reply := rfl
@[simp] theorem taken_caller (s : State) (rest : List Request) (a : Agent) : (taken s rest a).caller = some a := rfl

end Sys2Proof.Machine
end

