-- ==== Sys2Proof/Laws/RegFile.lean ====
section
/-! SUPPORT. The register file: what every register holds after each write, and what a constructor leaves. -/

namespace Sys2Proof.Machine

theorem csRead32_isSome (cs : ConfigSpace) (r : Nat) : (csRead32 cs r).isSome = decide (r < 1024) := by
  unfold csRead32
  by_cases h : r < 1024 <;> simp [h]

theorem csRead32_eq_none {cs : ConfigSpace} {r : Nat} : csRead32 cs r = none ↔ 1024 ≤ r := by
  simp [csRead32]

/-- Two register files that read the same are the same. -/
theorem space_ext {a b : ConfigSpace} (h : ∀ r, csRead32 a r = csRead32 b r) : a = b := by
  refine Vector.ext fun i hi => ?_
  have := h i
  simpa [csRead32, hi] using this

@[simp] theorem csRead32_newSpace (r : Nat) : csRead32 newSpace r = if r < 1024 then some 0#32 else none := by
  simp [csRead32, newSpace, Vector.getElem?_replicate]

theorem csRead32_csWrite32 (cs : ConfigSpace) (r q : Nat) (v : Dword) :
    csRead32 (csWrite32 cs r v) q = if q = r then (csRead32 cs r).map (fun _ => v) else csRead32 cs q := by
  unfold csRead32 csWrite32
  by_cases h : q = r
  · subst h
    by_cases hq : q < 1024 <;> simp [hq]
  · rw [if_neg h, Vector.getElem?_setIfInBounds_ne (fun e => h e.symm)]

theorem csRead32_csWrite8 (cs : ConfigSpace) (r o q : Nat) (b : Byte) :
    csRead32 (csWrite8 cs r o b) q =
      if q = r ∧ o < 4 then (csRead32 cs r).map (fun v => setLane v o b) else csRead32 cs q := by
  unfold csWrite8
  by_cases ho : o < 4
  · cases hr : csRead32 cs r with
    | none =>
      by_cases h : q = r
      · simp [h, ho, hr]
      · simp [h]
    | some v =>
      simp only [ho, if_true, and_true]
      rw [csRead32_csWrite32, hr]
      rfl
  · cases hr : csRead32 cs r <;> simp [ho]

theorem csRead32_csWrite16 (cs : ConfigSpace) (r h q : Nat) (x : Half) :
    csRead32 (csWrite16 cs r h x) q =
      if q = r ∧ h < 2 then (csRead32 cs r).map (fun v => setHalf v h x) else csRead32 cs q := by
  unfold csWrite16
  by_cases ho : h < 2
  · cases hr : csRead32 cs r with
    | none =>
      by_cases h : q = r
      · simp [h, ho, hr]
      · simp [h]
    | some v =>
      simp only [ho, if_true, and_true]
      rw [csRead32_csWrite32, hr]
      rfl
  · cases hr : csRead32 cs r <;> simp [ho]

theorem csRead32_csWriteBytes (data : List Byte) (cs : ConfigSpace) (r o q : Nat) (h : o + data.length ≤ 4) :
    csRead32 (csWriteBytes cs r o data) q =
      if q = r then (csRead32 cs r).map (fun v => setLanes v o data) else csRead32 cs q := by
  induction data generalizing cs o with
  | nil => by_cases hq : q = r <;> simp [csWriteBytes, setLanes, hq]
  | cons b rest ih =>
    simp only [List.length_cons] at h
    rw [csWriteBytes, ih (csWrite8 cs r o b) (o + 1) (by omega)]
    by_cases hq : q = r
    · subst hq
      simp only [csRead32_csWrite8, show o < 4 by omega, and_self, if_true, Option.map_map, setLanes]
      rfl
    · simp [csRead32_csWrite8, hq]

/-- DEV_WR on a register file, for every length at once: either dropped by its shape, or every addressed lane takes
its byte (rules R96 and R164). -/
theorem csRead32_csWriteData (cs : ConfigSpace) (r o q : Nat) (data : List Byte) :
    csRead32 (csWriteData cs r o data) q =
      if q = r ∧ writeDropped o data.length = false then (csRead32 cs r).map (fun v => setLanes v o data)
      else csRead32 cs q := by
  unfold csWriteData writeDropped
  by_cases h4 : o + data.length > 4
  · simp [h4]
  · rw [if_neg h4]
    match data with
    | [] =>
      by_cases hq : q = r <;> simp [csWriteBytes, setLanes, hq]
    | [v] =>
      have : o < 4 := by simp at h4; omega
      simp [csRead32_csWrite8, this, setLanes, Nat.not_lt.2 (by omega : o + 1 ≤ 4)]
    | [v0, v1] =>
      have h2 : ¬ 4 < o + 2 := by simpa using h4
      by_cases ho : o % 2 = 0
      · have e : 2 * (o / 2) = o := by omega
        have hh : o / 2 < 2 := by omega
        simp only [ne_eq, ho, not_true_eq_false, if_false, csRead32_csWrite16, hh, and_true]
        by_cases hq : q = r
        · simp [hq, h2, setLanes, setHalf_le16 _ _ _ _ hh, e]
        · simp [hq]
      · simp [ho]
    | [v0, v1, v2] =>
      have h2 : ¬ 4 < o + 3 := by simpa using h4
      rw [csRead32_csWriteBytes _ _ _ _ _ (by simp; omega)]
      simp [h2]
    | [v0, v1, v2, v3] =>
      have ho : o = 0 := by simp at h4; omega
      subst ho
      simp [csRead32_csWrite32, setLanes_four]
    | _ :: _ :: _ :: _ :: _ :: rest => simp at h4; omega

/-- What FN_NEW_T0 leaves in every register (rule R127). -/
theorem csRead32_type0Space (vendor device : Half) (base sub progif rev : Byte) (ssvid ssid : Half) (r : Nat) :
    csRead32 (type0Space vendor device base sub progif rev ssvid ssid) r =
      if r = 0 then some (idDword vendor device)
      else if r = 2 then some (classDword base sub progif rev)
      else if r = 11 then some ((ssid.setWidth 32 <<< 16) ||| ssvid.setWidth 32)
      else if r < 1024 then some 0#32 else none := by
  simp only [type0Space, csRead32_csWrite32, csRead32_csWrite8]
  by_cases h0 : r = 0
  · simp [h0]
  by_cases h2 : r = 2
  · simp [h2]
  by_cases h3 : r = 3
  · simp [h3, setLane]
  by_cases h11 : r = 11
  · simp [h11]
  simp [h0, h2, h3, h11]

/-- What FN_NEW_T1 leaves in every register (rule R128). -/
theorem csRead32_type1Space (vendor device : Half) (base sub progif rev : Byte) (r : Nat) :
    csRead32 (type1Space vendor device base sub progif rev) r =
      if r = 0 then some (idDword vendor device)
      else if r = 2 then some (classDword base sub progif rev)
      else if r = 3 then some 0x00010000#32
      else if r = 8 then some Config.t1Dword8Init
      else if r = 15 then some Config.t1Dword15Init
      else if r < 1024 then some 0#32 else none := by
  simp only [type1Space, csRead32_csWrite32, csRead32_csWrite8, csRead32_csWrite16]
  by_cases h0 : r = 0
  · simp [h0]
  by_cases h2 : r = 2
  · simp [h2]
  by_cases h3 : r = 3
  · simp [h3, setLane]
  by_cases h6 : r = 6
  · simp [h6, setLane]
  by_cases h7 : r = 7
  · simp [h7, setHalf]
  by_cases h8 : r = 8
  · simp [h8]
  by_cases h15 : r = 15
  · simp [h15]
  simp [h0, h2, h3, h6, h7, h8, h15]

end Sys2Proof.Machine
end

