-- ==== Sys2Proof/Laws/Tree.lean ====
section
/-! SUPPORT. The tree: the list view of child buses, routing as a path of at most one step, and what an update of one
node does to every other node, to the topology and to the tree's invariant. -/

namespace Sys2Proof.Machine

/-! ## Child buses as a list -/

@[simp] theorem busesOfList_toList (bs : Buses) : busesOfList (busesToList bs) = bs := by
  induction bs with
  | nil => rfl
  | cons n devices children rest _ ih => simp [busesToList, busesOfList, ih]

@[simp] theorem busesToList_ofList (l : List Bus) : busesToList (busesOfList l) = l := by
  induction l with
  | nil => rfl
  | cons B rest ih => simp [busesToList, busesOfList, ih]

@[simp] theorem busChildren_withChildren (B : Bus) (l : List Bus) : busChildren (busWithChildren B l) = l := by
  simp [busChildren, busWithChildren]

@[simp] theorem busWithChildren_number (B : Bus) (l : List Bus) : (busWithChildren B l).number = B.number := rfl
@[simp] theorem busWithChildren_devices (B : Bus) (l : List Bus) : (busWithChildren B l).devices = B.devices := rfl
@[simp] theorem busWithChildren_children (B : Bus) : busWithChildren B (busChildren B) = B := by
  simp [busWithChildren, busChildren]
@[simp] theorem withSpace_number (F : Function) (cs : ConfigSpace) : (withSpace F cs).number = F.number := rfl
@[simp] theorem withSpace_kind (F : Function) (cs : ConfigSpace) : (withSpace F cs).kind = F.kind := rfl
@[simp] theorem withSpace_cs (F : Function) (cs : ConfigSpace) : (withSpace F cs).cs = cs := rfl
@[simp] theorem busUpdateDev_number (B : Bus) (d : Nat) (g : Device → Device) :
    (busUpdateDev B d g).number = B.number := rfl
@[simp] theorem busUpdateDev_buses (B : Bus) (d : Nat) (g : Device → Device) :
    (busUpdateDev B d g).buses = B.buses := rfl
@[simp] theorem busInsertDev_number (B : Bus) (D : Device) : (busInsertDev B D).number = B.number := rfl
@[simp] theorem busEraseDev_number (B : Bus) (d : Nat) : (busEraseDev B d).number = B.number := rfl
@[simp] theorem busInsertBus_number (B C : Bus) : (busInsertBus B C).number = B.number := rfl
@[simp] theorem busEraseBus_number (B : Bus) (b : Nat) : (busEraseBus B b).number = B.number := rfl
@[simp] theorem deviceUpdateFn_number (D : Device) (f : Nat) (g : Function → Function) :
    (deviceUpdateFn D f g).number = D.number := rfl
@[simp] theorem deviceInsertFn_number (D : Device) (F : Function) : (deviceInsertFn D F).number = D.number := rfl
@[simp] theorem deviceEraseFn_number (D : Device) (f : Nat) : (deviceEraseFn D f).number = D.number := rfl
@[simp] theorem deviceWrite_number (D : Device) (f r o : Nat) (data : List Byte) :
    (deviceWrite D f r o data).number = D.number := rfl

/-- The key of a child found is the number it was asked for (rule R28). -/
theorem busChild_number {B C : Bus} {b : Nat} (h : busChild B b = some C) : C.number = b := mapFind_key h

/-! ## Lookups after a change of one map -/

theorem deviceFn_insert (D : Device) (F : Function) (f : Nat) :
    deviceFn (deviceInsertFn D F) f = if f = F.number then some F else deviceFn D f :=
  mapFind_mapInsert f F D.functions

theorem deviceFn_erase (D : Device) (e f : Nat) :
    deviceFn (deviceEraseFn D e) f = if f = e then none else deviceFn D f :=
  mapFind_mapErase f e D.functions

theorem deviceFn_update (D : Device) (e f : Nat) (g : Function → Function) (hg : ∀ F, (g F).number = F.number) :
    deviceFn (deviceUpdateFn D e g) f = if f = e then (deviceFn D e).map g else deviceFn D f :=
  mapFind_mapUpdate f e g D.functions hg

theorem deviceFn_write (D : Device) (e f r o : Nat) (data : List Byte) :
    deviceFn (deviceWrite D e r o data) f =
      if f = e then (deviceFn D e).map (fun F => withSpace F (csWriteData F.cs r o data)) else deviceFn D f :=
  deviceFn_update D e f _ (fun _ => rfl)

theorem busDevice_insertDev (B : Bus) (D : Device) (d : Nat) :
    busDevice (busInsertDev B D) d = if d = D.number then some D else busDevice B d :=
  mapFind_mapInsert d D B.devices

theorem busDevice_eraseDev (B : Bus) (e d : Nat) :
    busDevice (busEraseDev B e) d = if d = e then none else busDevice B d :=
  mapFind_mapErase d e B.devices

theorem busDevice_updateDev (B : Bus) (e d : Nat) (g : Device → Device) (hg : ∀ D, (g D).number = D.number) :
    busDevice (busUpdateDev B e g) d = if d = e then (busDevice B e).map g else busDevice B d :=
  mapFind_mapUpdate d e g B.devices hg

theorem busChild_insertBus (B C : Bus) (b : Nat) :
    busChild (busInsertBus B C) b = if b = C.number then some C else busChild B b := by
  simp only [busChild, busInsertBus, busChildren_withChildren]
  exact mapFind_mapInsert b C (busChildren B)

theorem busChild_eraseBus (B : Bus) (e b : Nat) :
    busChild (busEraseBus B e) b = if b = e then none else busChild B b := by
  simp only [busChild, busEraseBus, busChildren_withChildren]
  exact mapFind_mapErase b e (busChildren B)

/-! ## Paths -/

@[simp] theorem nodeAt_nil (B : Bus) : nodeAt B [] = some B := rfl

theorem nodeAt_append (B : Bus) (p q : List Nat) :
    nodeAt B (p ++ q) = (nodeAt B p).bind (fun C => nodeAt C q) := by
  induction p generalizing B with
  | nil => rfl
  | cons b p ih =>
    simp only [List.cons_append, nodeAt]
    cases busChild B b with
    | none => rfl
    | some C => exact ih C

theorem updateAt_number (g : Bus → Bus) (hg : ∀ B, (g B).number = B.number) (p : List Nat) (B : Bus) :
    (updateAt g p B).number = B.number := by
  cases p with
  | nil => exact hg B
  | cons b p => rfl

theorem busChild_updateAt (g : Bus → Bus) (hg : ∀ B, (g B).number = B.number) (b c : Nat) (p : List Nat) (B : Bus) :
    busChild (updateAt g (b :: p) B) c = if c = b then (busChild B b).map (updateAt g p) else busChild B c := by
  simp only [busChild, updateAt, busChildren_withChildren]
  exact mapFind_mapUpdate c b (updateAt g p) (busChildren B) (updateAt_number g hg p)

/-- Updating the node at `p` and reading it there: the image of what stood there. -/
theorem nodeAt_updateAt_self (g : Bus → Bus) (hg : ∀ B, (g B).number = B.number) (p : List Nat) (B : Bus) :
    nodeAt (updateAt g p B) p = (nodeAt B p).map g := by
  induction p generalizing B with
  | nil => rfl
  | cons b p ih =>
    simp only [nodeAt, busChild_updateAt g hg, if_true]
    cases busChild B b with
    | none => rfl
    | some C => exact ih C

/-- Updating the node at `p` leaves the devices of every other node as they are, when it leaves child buses alone. -/
theorem nodeAt_updateAt_devices (g : Bus → Bus) (hg : ∀ B, (g B).number = B.number)
    (hb : ∀ B, (g B).buses = B.buses) (p q : List Nat) (hne : q ≠ p) (B : Bus) :
    (nodeAt (updateAt g p B) q).map Bus.devices = (nodeAt B q).map Bus.devices := by
  induction p generalizing B q with
  | nil =>
    cases q with
    | nil => exact absurd rfl hne
    | cons c q =>
      have e : busChild (g B) c = busChild B c := by simp only [busChild, busChildren, hb]
      simp only [updateAt, nodeAt, e]
  | cons b p ih =>
    cases q with
    | nil => rfl
    | cons c q =>
      simp only [nodeAt, busChild_updateAt g hg]
      by_cases hc : c = b
      · subst hc
        simp only [if_true]
        cases busChild B c with
        | none => rfl
        | some C => exact ih q (fun e => hne (by rw [e])) C
      · simp [hc]

/-- Two updates of the same node are one update by the composition. -/
theorem updateAt_append (g : Bus → Bus) (p q : List Nat) (B : Bus) :
    updateAt g (p ++ q) B = updateAt (updateAt g q) p B := by
  induction p generalizing B with
  | nil => rfl
  | cons b p ih =>
    have e : updateAt g (p ++ q) = updateAt (updateAt g q) p := funext ih
    simp only [List.cons_append, updateAt, e]

/-- Only what an update does to the node that stands there matters. -/
theorem updateAt_congr (g k : Bus → Bus) (p : List Nat) (B : Bus) (h : ∀ C, nodeAt B p = some C → g C = k C) :
    updateAt g p B = updateAt k p B := by
  induction p generalizing B with
  | nil => exact h B rfl
  | cons b p ih =>
    simp only [updateAt]
    congr 1
    have hm : ∀ m : List Bus, (∀ C, mapFind Bus.number b m = some C → updateAt g p C = updateAt k p C) →
        mapUpdate Bus.number b (updateAt g p) m = mapUpdate Bus.number b (updateAt k p) m := by
      intro m
      induction m with
      | nil => intro _; rfl
      | cons x rest ihm =>
        intro hx
        simp only [mapUpdate]
        by_cases hn : x.number = b
        · simp only [hn, if_true]
          rw [hx x (by simp [mapFind, hn])]
        · simp only [hn, if_false]
          rw [ihm (fun C hC => hx C (by simp [mapFind, hn, hC]))]
    refine hm _ (fun C hC => ih C (fun E hE => h E ?_))
    simp only [nodeAt, busChild, hC]
    exact hE

theorem updateAt_id (p : List Nat) (B : Bus) : updateAt id p B = B := by
  induction p generalizing B with
  | nil => rfl
  | cons b p ih =>
    have e : updateAt id p = id := funext ih
    simp [updateAt, e, mapUpdate_id]

/-! ## Routing -/

/-- The path from a bus to where bus number `b` resolves: the bus itself or one step down (rule R189). -/
def reachPath (B : Bus) (b : Nat) : List Nat := if b = B.number then [] else [b]

theorem busesReach_eq (b : Nat) (bs : Buses) : busesReach b bs = mapFind Bus.number b (busesToList bs) := by
  induction bs with
  | nil => rfl
  | cons n devices children rest _ ih =>
    simp only [busesReach, busesToList, mapFind]
    by_cases h : n = b
    · simp [h]
    · simp [h, ih]

/-- The recursion of rule R183 resolves at the bus itself or at its direct child (rules R189 and R190). -/
theorem busReach_eq (B : Bus) (b : Nat) : busReach B b = nodeAt B (reachPath B b) := by
  unfold busReach reachPath
  split
  · rfl
  · simp only [nodeAt, busChild, busesReach_eq, busChildren]
    cases mapFind Bus.number b (busesToList B.buses) <;> rfl

theorem busesUpdateReached_toList (g : Bus → Bus) (b : Nat) (bs : Buses) :
    busesToList (busesUpdateReached g b bs) = mapUpdate Bus.number b g (busesToList bs) := by
  induction bs with
  | nil => rfl
  | cons n devices children rest _ ih =>
    simp only [busesUpdateReached, busesToList, mapUpdate]
    by_cases h : n = b
    · subst h
      simp [busesToList]
    · simp [h, busesToList, ih]

/-- The write recursion updates the node the read recursion reaches. -/
theorem busUpdateReached_eq (g : Bus → Bus) (B : Bus) (b : Nat) :
    busUpdateReached g B b = updateAt g (reachPath B b) B := by
  unfold busUpdateReached reachPath
  split
  · rfl
  · have e : busesUpdateReached g b B.buses = busesOfList (mapUpdate Bus.number b g (busChildren B)) := by
      rw [busChildren, ← busesUpdateReached_toList, busesOfList_toList]
    simp only [updateAt, busWithChildren, e]

/-- BUS_RD reads at the bus itself, or at its direct child, or nothing (rules R183 and R189). -/
theorem busRead_eq (B : Bus) (b d f r : Nat) :
    busRead B b d f r =
      if b = B.number then localRegister B d f r else (busChild B b).bind (fun C => localRegister C d f r) := by
  unfold busRead
  rw [busReach_eq, reachPath]
  by_cases h : b = B.number
  · rw [if_pos h, if_pos h, nodeAt_nil]
    rfl
  · rw [if_neg h, if_neg h]
    simp only [nodeAt]
    cases busChild B b <;> rfl

theorem busWrite_eq (B : Bus) (b d f r o : Nat) (data : List Byte) :
    busWrite B b d f r o data =
      updateAt (fun C => busUpdateDev C d (fun D => deviceWrite D f r o data)) (reachPath B b) B :=
  busUpdateReached_eq _ B b

@[simp] theorem busWrite_number (B : Bus) (b d f r o : Nat) (data : List Byte) :
    (busWrite B b d f r o data).number = B.number := by
  rw [busWrite_eq]
  exact updateAt_number (fun C => busUpdateDev C d (fun D => deviceWrite D f r o data)) (fun _ => rfl) _ B

/-! ## Topology -/

@[simp] theorem fnBare_withSpace (F : Function) (cs : ConfigSpace) : fnBare (withSpace F cs) = fnBare F := rfl
@[simp] theorem fnBare_number (F : Function) : (fnBare F).number = F.number := rfl
@[simp] theorem deviceBare_number (D : Device) : (deviceBare D).number = D.number := rfl
@[simp] theorem busBare_number (B : Bus) : (busBare B).number = B.number := rfl

/-- An update under which the images agree leaves the mapped list as it is. -/
theorem map_mapUpdate_of_eq {α β : Type} (key : α → Nat) (k : Nat) (g : α → α) (φ : α → β)
    (h : ∀ x, φ (g x) = φ x) (m : List α) : (mapUpdate key k g m).map φ = m.map φ := by
  induction m with
  | nil => rfl
  | cons x rest ih =>
    simp only [mapUpdate]
    split
    · simp [h]
    · simp [ih]

theorem deviceBare_updateFn (D : Device) (f : Nat) (g : Function → Function) (h : ∀ F, fnBare (g F) = fnBare F) :
    deviceBare (deviceUpdateFn D f g) = deviceBare D := by
  simp only [deviceBare, deviceUpdateFn, map_mapUpdate_of_eq _ _ _ _ h]

theorem deviceBare_write (D : Device) (f r o : Nat) (data : List Byte) :
    deviceBare (deviceWrite D f r o data) = deviceBare D :=
  deviceBare_updateFn D f _ (fun _ => rfl)

theorem busBare_updateDev (B : Bus) (d : Nat) (g : Device → Device) (h : ∀ D, deviceBare (g D) = deviceBare D) :
    busBare (busUpdateDev B d g) = busBare B := by
  simp only [busBare, busUpdateDev, map_mapUpdate_of_eq _ _ _ _ h]

theorem busesBare_toList (bs : Buses) : busesToList (busesBare bs) = (busesToList bs).map busBare := by
  induction bs with
  | nil => rfl
  | cons n devices children rest _ ih => simp [busesBare, busesToList, busBare, ih]

theorem busBare_withChildren (B : Bus) (l : List Bus) :
    busBare (busWithChildren B l) = ⟨B.number, busesOfList (l.map busBare), B.devices.map deviceBare⟩ := by
  simp only [busBare, busWithChildren]
  rw [← busesOfList_toList (busesBare (busesOfList l)), busesBare_toList, busesToList_ofList]

theorem busBare_updateAt (g : Bus → Bus) (h : ∀ B, busBare (g B) = busBare B) (p : List Nat) (B : Bus) :
    busBare (updateAt g p B) = busBare B := by
  induction p generalizing B with
  | nil => exact h B
  | cons b p ih =>
    rw [updateAt, busBare_withChildren, map_mapUpdate_of_eq _ _ _ _ ih, ← busBare_withChildren,
      busWithChildren_children]

theorem busBare_write (B : Bus) (b d f r o : Nat) (data : List Byte) :
    busBare (busWrite B b d f r o data) = busBare B := by
  rw [busWrite_eq]
  exact busBare_updateAt _ (fun C => busBare_updateDev C d _ (fun D => deviceBare_write D f r o data)) _ B

/-! ## The invariant of the tree -/

theorem busesWf_iff (bs : Buses) : busesWf bs = true ↔ ∀ B ∈ busesToList bs, busWf B = true := by
  induction bs with
  | nil => simp [busesWf, busesToList]
  | cons n devices children rest _ ih =>
    simp only [busesWf, busesToList, Bool.and_eq_true, List.mem_cons, forall_eq_or_imp, ih]
    rw [busWf]
    simp only [Bool.and_eq_true]

/-- A bus is well-formed when its devices are, its children's numbers are, and its children are. -/
theorem busWf_iff (B : Bus) : busWf B = true ↔
    devicesWf B.devices = true ∧ mapWf Bus.number Config.maxBusNumber (busChildren B) = true ∧
      ∀ C ∈ busChildren B, busWf C = true := by
  conv_lhs => rw [busWf]
  simp only [Bool.and_eq_true, and_assoc, busesWf_iff]
  rfl

theorem devicesWf_iff (m : List Device) : devicesWf m = true ↔
    mapWf Device.number Config.maxDeviceNumber m = true ∧ ∀ D ∈ m, deviceWf D = true := by
  simp [devicesWf]

theorem busWf_withChildren {B : Bus} {l : List Bus} (hB : busWf B = true)
    (hl : mapWf Bus.number Config.maxBusNumber l = true) (h : ∀ C ∈ l, busWf C = true) :
    busWf (busWithChildren B l) = true := by
  rw [busWf_iff] at hB ⊢
  simpa using ⟨hB.1, hl, h⟩

theorem busWf_child {B C : Bus} {b : Nat} (hB : busWf B = true) (h : busChild B b = some C) : busWf C = true :=
  ((busWf_iff B).1 hB).2.2 C (mapFind_mem h)

theorem busWf_nodeAt {B C : Bus} {p : List Nat} (hB : busWf B = true) (h : nodeAt B p = some C) :
    busWf C = true := by
  induction p generalizing B with
  | nil => cases h; exact hB
  | cons b p ih =>
    simp only [nodeAt] at h
    cases hc : busChild B b with
    | none => rw [hc] at h; cases h
    | some E => rw [hc] at h; exact ih (busWf_child hB hc) h

theorem deviceWf_device {B : Bus} {D : Device} {d : Nat} (hB : busWf B = true) (h : busDevice B d = some D) :
    deviceWf D = true :=
  ((devicesWf_iff _).1 ((busWf_iff B).1 hB).1).2 D (mapFind_mem h)

/-- Updating one node keeps the tree well-formed when the update keeps the number and a well-formed node. -/
theorem busWf_updateAt {g : Bus → Bus} (hn : ∀ B, (g B).number = B.number)
    (hg : ∀ B, busWf B = true → busWf (g B) = true) (p : List Nat) (B : Bus) (hB : busWf B = true) :
    busWf (updateAt g p B) = true := by
  induction p generalizing B with
  | nil => exact hg B hB
  | cons b p ih =>
    have h := (busWf_iff B).1 hB
    refine busWf_withChildren hB (mapWf_mapUpdate (updateAt_number g hn p) h.2.1) (fun C hC => ?_)
    rcases mem_mapUpdate hC with hC | ⟨E, hE, -, rfl⟩
    · exact h.2.2 C hC
    · exact ih E (h.2.2 E hE)

/-- The same, where the update is known to be harmless only at the node that stands there. -/
theorem busWf_updateAt_of_node {g : Bus → Bus} (hn : ∀ B, (g B).number = B.number) (p : List Nat) (B : Bus)
    (hg : ∀ C, nodeAt B p = some C → busWf C = true → busWf (g C) = true) (hB : busWf B = true) :
    busWf (updateAt g p B) = true := by
  classical
  have e : updateAt g p B = updateAt (fun C => if nodeAt B p = some C then g C else C) p B :=
    updateAt_congr _ _ p B (fun C hC => by simp [hC])
  rw [e]
  refine busWf_updateAt (fun C => ?_) (fun C hC => ?_) p B hB
  · by_cases h : nodeAt B p = some C <;> simp [h, hn]
  · by_cases h : nodeAt B p = some C
    · simpa [h] using hg C h hC
    · simpa [h] using hC

theorem deviceWf_insertFn {D : Device} {F : Function} (hD : deviceWf D = true) (hF : F.number < 8) :
    deviceWf (deviceInsertFn D F) = true := mapWf_mapInsert hD hF

theorem deviceWf_eraseFn {D : Device} {f : Nat} (hD : deviceWf D = true) : deviceWf (deviceEraseFn D f) = true :=
  mapWf_mapErase hD

theorem deviceWf_updateFn {D : Device} {f : Nat} {g : Function → Function} (hg : ∀ F, (g F).number = F.number)
    (hD : deviceWf D = true) : deviceWf (deviceUpdateFn D f g) = true := mapWf_mapUpdate hg hD

theorem busWf_updateDev {B : Bus} {d : Nat} {g : Device → Device} (hn : ∀ D, (g D).number = D.number)
    (hg : ∀ D, deviceWf D = true → deviceWf (g D) = true) (hB : busWf B = true) :
    busWf (busUpdateDev B d g) = true := by
  rw [busWf_iff] at hB ⊢
  refine ⟨?_, hB.2⟩
  rw [devicesWf_iff] at hB ⊢
  refine ⟨mapWf_mapUpdate hn hB.1.1, fun D hD => ?_⟩
  rcases mem_mapUpdate hD with hD | ⟨E, hE, -, rfl⟩
  · exact hB.1.2 D hD
  · exact hg E (hB.1.2 E hE)

theorem busWf_insertDev {B : Bus} {D : Device} (hB : busWf B = true) (hd : D.number < 32)
    (hD : deviceWf D = true) : busWf (busInsertDev B D) = true := by
  rw [busWf_iff] at hB ⊢
  refine ⟨?_, hB.2⟩
  rw [devicesWf_iff] at hB ⊢
  refine ⟨mapWf_mapInsert hB.1.1 hd, fun E hE => ?_⟩
  rcases mem_mapInsert hE with rfl | hE
  · exact hD
  · exact hB.1.2 E hE

theorem busWf_eraseDev {B : Bus} {d : Nat} (hB : busWf B = true) : busWf (busEraseDev B d) = true := by
  rw [busWf_iff] at hB ⊢
  refine ⟨?_, hB.2⟩
  rw [devicesWf_iff] at hB ⊢
  exact ⟨mapWf_mapErase hB.1.1, fun E hE => hB.1.2 E (mem_mapErase hE)⟩

theorem busWf_insertBus {B C : Bus} (hB : busWf B = true) (hn : C.number < 256) (hC : busWf C = true) :
    busWf (busInsertBus B C) = true := by
  have h := (busWf_iff B).1 hB
  refine busWf_withChildren hB (mapWf_mapInsert h.2.1 hn) (fun E hE => ?_)
  rcases mem_mapInsert hE with rfl | hE
  · exact hC
  · exact h.2.2 E hE

theorem busWf_eraseBus {B : Bus} {b : Nat} (hB : busWf B = true) : busWf (busEraseBus B b) = true := by
  have h := (busWf_iff B).1 hB
  exact busWf_withChildren hB (mapWf_mapErase h.2.1) (fun E hE => h.2.2 E (mem_mapErase hE))

theorem deviceWf_write {D : Device} (f r o : Nat) (data : List Byte) (hD : deviceWf D = true) :
    deviceWf (deviceWrite D f r o data) = true :=
  deviceWf_updateFn (g := fun F => withSpace F (csWriteData F.cs r o data)) (fun _ => rfl) hD

theorem busWf_write {B : Bus} (b d f r o : Nat) (data : List Byte) (hB : busWf B = true) :
    busWf (busWrite B b d f r o data) = true := by
  rw [busWrite_eq]
  exact busWf_updateAt (g := fun C => busUpdateDev C d (fun D => deviceWrite D f r o data)) (fun _ => rfl)
    (fun C hC => busWf_updateDev (g := fun D => deviceWrite D f r o data) (fun _ => rfl)
      (fun D hD => deviceWf_write f r o data hD) hC) _ B hB

theorem busWf_newBus (n : Nat) : busWf (newBus n) = true := rfl

theorem deviceWf_newDevice (n : Nat) : deviceWf (newDevice n) = true := rfl

theorem deviceWf_newDummyDevice (n : Nat) : deviceWf (newDummyDevice n) = true := by
  simp [deviceWf, newDummyDevice, mapWf, newFunction, Config.maxFunctionNumber]

theorem busWf_rootWith (args : HeaderArgs) : busWf (rootWith args) = true := by
  simp [busWf, rootWith, devicesWf, deviceWf, childrenWf, busesWf, busesToList, mapWf, newFunction,
    Config.maxFunctionNumber, Config.maxDeviceNumber]

end Sys2Proof.Machine
end

