-- ==== Sys2Proof/Laws/Ops.lean ====
section
/-! SUPPORT. The operations over the state: when an operation on a node runs, what an update of one named node does to
every other name, to the topology and to the invariant, and where a guest's data access goes. -/

namespace Sys2Proof.Machine

/-! ## Running on a node -/

@[simp] theorem onNode_some {α : Type} (x : α) (run : α → Result) : onNode (some x) run = run x := rfl
@[simp] theorem onNode_none {α : Type} (run : α → Result) : onNode none run = .refused .noSuchNode := rfl

/-- An operation on a node completes exactly when the node is there and its own work completes. -/
theorem onNode_eq_next {α : Type} {node : Option α} {run : α → Result} {t : State} :
    onNode node run = .next t ↔ ∃ x, node = some x ∧ run x = .next t := by
  cases node <;> simp [onNode]

/-- It is refused exactly for a missing node, or as its own work is. -/
theorem onNode_eq_refused {α : Type} {node : Option α} {run : α → Result} {e : Refusal} :
    onNode node run = .refused e ↔
      (node = none ∧ e = .noSuchNode) ∨ ∃ x, node = some x ∧ run x = .refused e := by
  cases node <;> simp [onNode, eq_comm]

/-! ## Names do not depend on the fields in transit -/

@[simp] theorem busAt_answer (s : State) (r : Reply) (p : BusRef) : busAt (answer s r) p = busAt s p := rfl
@[simp] theorem devAt_answer (s : State) (r : Reply) (t : DevRef) : devAt (answer s r) t = devAt s t := by
  cases t <;> rfl
@[simp] theorem fnAt_answer (s : State) (r : Reply) (t : FnRef) : fnAt (answer s r) t = fnAt s t := by
  cases t with
  | held h => rfl
  | inDev u f => simp [fnAt]
@[simp] theorem regAt_answer (s : State) (r : Reply) (t : FnRef) (q : Nat) : regAt (answer s r) t q = regAt s t q := by
  unfold regAt; rw [fnAt_answer]
@[simp] theorem heldFn_answer (s : State) (r : Reply) (h : Nat) : heldFn (answer s r) h = heldFn s h := rfl
@[simp] theorem heldDev_answer (s : State) (r : Reply) (h : Nat) : heldDev (answer s r) h = heldDev s h := rfl
@[simp] theorem heldBus_answer (s : State) (r : Reply) (h : Nat) : heldBus (answer s r) h = heldBus s h := rfl
@[simp] theorem readSpace_answer (s : State) (r : Reply) : readSpace (answer s r) = readSpace s := rfl
@[simp] theorem busAt_setCa (s : State) (v : Dword) (p : BusRef) : busAt (setCa s v) p = busAt s p := rfl
@[simp] theorem devAt_setCa (s : State) (v : Dword) (t : DevRef) : devAt (setCa s v) t = devAt s t := by
  cases t <;> rfl
@[simp] theorem fnAt_setCa (s : State) (v : Dword) (t : FnRef) : fnAt (setCa s v) t = fnAt s t := by
  cases t with
  | held h => rfl
  | inDev u f => simp [fnAt]

/-- The state of a reply that replaces another. -/
@[simp] theorem answer_answer (s : State) (q r : Reply) : answer (answer s q) r = answer s r := rfl

/-! ## Held nodes -/

theorem heldFn_holdFn (s : State) (h k : Nat) (F : Function) :
    heldFn (holdFn s h F) k = if k = h then some F else heldFn s k := by
  simp only [heldFn, holdFn, setHeldFns_heldFns, mapFind_mapInsert]
  split <;> rfl

theorem heldDev_holdDev (s : State) (h k : Nat) (D : Device) :
    heldDev (holdDev s h D) k = if k = h then some D else heldDev s k := by
  simp only [heldDev, holdDev, setHeldDevs_heldDevs, mapFind_mapInsert]
  split <;> rfl

theorem heldBus_holdBus (s : State) (h k : Nat) (B : Bus) :
    heldBus (holdBus s h B) k = if k = h then some B else heldBus s k := by
  simp only [heldBus, holdBus, setHeldBuses_heldBuses, mapFind_mapInsert]
  split <;> rfl

theorem heldFn_releaseFn (s : State) (h k : Nat) :
    heldFn (releaseFn s h) k = if k = h then none else heldFn s k := by
  simp only [heldFn, releaseFn, setHeldFns_heldFns, mapFind_mapErase]
  split <;> rfl

theorem heldDev_releaseDev (s : State) (h k : Nat) :
    heldDev (releaseDev s h) k = if k = h then none else heldDev s k := by
  simp only [heldDev, releaseDev, setHeldDevs_heldDevs, mapFind_mapErase]
  split <;> rfl

theorem heldBus_releaseBus (s : State) (h k : Nat) :
    heldBus (releaseBus s h) k = if k = h then none else heldBus s k := by
  simp only [heldBus, releaseBus, setHeldBuses_heldBuses, mapFind_mapErase]
  split <;> rfl

/-- A change of held values under one name, seen through the names. -/
theorem heldFind_mapUpdate {α : Type} (m : List (Nat × α)) (h k : Nat) (g : α → α) :
    (mapFind Prod.fst k (mapUpdate Prod.fst h (fun e => (e.1, g e.2)) m)).map Prod.snd =
      if k = h then ((mapFind Prod.fst h m).map Prod.snd).map g else (mapFind Prod.fst k m).map Prod.snd := by
  rw [mapFind_mapUpdate k h (fun e : Nat × α => (e.1, g e.2)) m (fun _ => rfl)]
  split
  · cases mapFind Prod.fst h m <;> rfl
  · rfl

/-! ## Updating a node by name -/

@[simp] theorem updateBus_ca (s : State) (p : BusRef) (g : Bus → Bus) : (updateBus s p g).ca = s.ca := by
  unfold updateBus; split <;> rfl
@[simp] theorem updateBus_heldFns (s : State) (p : BusRef) (g : Bus → Bus) :
    (updateBus s p g).heldFns = s.heldFns := by unfold updateBus; split <;> rfl
@[simp] theorem updateBus_heldDevs (s : State) (p : BusRef) (g : Bus → Bus) :
    (updateBus s p g).heldDevs = s.heldDevs := by unfold updateBus; split <;> rfl
@[simp] theorem updateBus_pending (s : State) (p : BusRef) (g : Bus → Bus) :
    (updateBus s p g).pending = s.pending := by unfold updateBus; split <;> rfl
@[simp] theorem updateBus_reply (s : State) (p : BusRef) (g : Bus → Bus) :
    (updateBus s p g).reply = s.reply := by unfold updateBus; split <;> rfl
@[simp] theorem updateBus_caller (s : State) (p : BusRef) (g : Bus → Bus) :
    (updateBus s p g).caller = s.caller := by unfold updateBus; split <;> rfl

/-- The node a path starts from, after an update of the node at `p`. -/
theorem busBase_updateBus (s : State) (p : BusRef) (g : Bus → Bus) (b : Option Nat) :
    busBase (updateBus s p g) b = if b = p.base then (busBase s b).map (updateAt g p.path) else busBase s b := by
  unfold updateBus
  cases hp : p.base with
  | none =>
    cases b with
    | none => rfl
    | some h => simp [busBase, heldBus]
  | some h =>
    cases b with
    | none => simp [busBase]
    | some k =>
      simp only [busBase, heldBus, setHeldBuses_heldBuses, Option.some.injEq]
      rw [heldFind_mapUpdate]
      by_cases hk : k = h
      · simp [hk]
      · simp [hk]

/-- The Bus node at the name itself. -/
theorem busAt_updateBus_self (s : State) (p : BusRef) (g : Bus → Bus) (hg : ∀ B, (g B).number = B.number) :
    busAt (updateBus s p g) p = (busAt s p).map g := by
  unfold busAt
  rw [busBase_updateBus, if_pos rfl]
  cases busBase s p.base with
  | none => rfl
  | some B => exact nodeAt_updateAt_self g hg p.path B

/-- The devices of every other Bus node, where the update leaves child buses alone. -/
theorem busAt_updateBus_devices (s : State) (p q : BusRef) (g : Bus → Bus) (hg : ∀ B, (g B).number = B.number)
    (hb : ∀ B, (g B).buses = B.buses) (hne : q ≠ p) :
    (busAt (updateBus s p g) q).map Bus.devices = (busAt s q).map Bus.devices := by
  unfold busAt
  rw [busBase_updateBus]
  by_cases hbase : q.base = p.base
  · rw [if_pos hbase]
    have hpath : q.path ≠ p.path := fun e => hne (by cases p; cases q; simp_all)
    cases busBase s q.base with
    | none => rfl
    | some B => exact nodeAt_updateAt_devices g hg hb p.path q.path hpath B
  · rw [if_neg hbase]

/-- A device by name, from the devices of its bus. -/
theorem devAt_node (s : State) (p : BusRef) (d : Nat) :
    devAt s (.node p d) = ((busAt s p).map Bus.devices).bind (mapFind Device.number d) := by
  simp only [devAt]
  cases busAt s p <;> rfl

/-- A function by name, from its device. -/
theorem fnAt_inDev (s : State) (u : DevRef) (f : Nat) :
    fnAt s (.inDev u f) = (devAt s u).bind (fun D => deviceFn D f) := by
  simp only [fnAt]
  cases devAt s u <;> rfl

theorem devAt_updateDev_self (s : State) (t : DevRef) (g : Device → Device) (hg : ∀ D, (g D).number = D.number) :
    devAt (updateDev s t g) t = (devAt s t).map g := by
  cases t with
  | held h =>
    simp only [devAt, updateDev, heldDev, setHeldDevs_heldDevs]
    rw [heldFind_mapUpdate, if_pos rfl]
  | node p d =>
    simp only [devAt, updateDev]
    rw [busAt_updateBus_self s p (fun B => busUpdateDev B d g) (fun _ => rfl)]
    cases busAt s p with
    | none => rfl
    | some B => simp [busDevice_updateDev B d d g hg]

theorem devAt_updateDev_of_ne (s : State) (t u : DevRef) (g : Device → Device) (hg : ∀ D, (g D).number = D.number)
    (hne : u ≠ t) : devAt (updateDev s t g) u = devAt s u := by
  cases t with
  | held h =>
    cases u with
    | held k =>
      have hk : k ≠ h := fun e => hne (by rw [e])
      simp only [devAt, updateDev, heldDev, setHeldDevs_heldDevs]
      rw [heldFind_mapUpdate, if_neg hk]
    | node q e => rfl
  | node p d =>
    cases u with
    | held k => simp [devAt, updateDev, heldDev]
    | node q e =>
      by_cases hq : q = p
      · subst hq
        have he : e ≠ d := fun h => hne (by rw [h])
        simp only [devAt, updateDev]
        rw [busAt_updateBus_self s q (fun B => busUpdateDev B d g) (fun _ => rfl)]
        cases busAt s q with
        | none => rfl
        | some B => simp [busDevice_updateDev B d e g hg, he]
      · rw [devAt_node, devAt_node, updateDev,
          busAt_updateBus_devices s p q (fun B => busUpdateDev B d g) (fun _ => rfl) (fun _ => rfl) hq]

@[simp] theorem devAt_setHeldFns (s : State) (m : List (Nat × Function)) (u : DevRef) :
    devAt (setHeldFns s m) u = devAt s u := by cases u <;> rfl
@[simp] theorem updateDev_heldFns (s : State) (u : DevRef) (g : Device → Device) :
    (updateDev s u g).heldFns = s.heldFns := by cases u <;> simp [updateDev]

/-- The function a write names holds the image of what it held. -/
theorem fnAt_updateFn_self (s : State) (t : FnRef) (g : Function → Function) (hg : ∀ F, (g F).number = F.number) :
    fnAt (updateFn s t g) t = (fnAt s t).map g := by
  cases t with
  | held h =>
    simp only [fnAt, updateFn, heldFn, setHeldFns_heldFns]
    rw [heldFind_mapUpdate, if_pos rfl]
  | inDev u f =>
    rw [fnAt_inDev, fnAt_inDev, updateFn,
      devAt_updateDev_self s u (fun D => deviceUpdateFn D f g) (fun _ => rfl)]
    cases devAt s u with
    | none => rfl
    | some D => simp [deviceFn_update D f f g hg]

/-- Every other name names what it named. -/
theorem fnAt_updateFn_of_ne (s : State) (t u : FnRef) (g : Function → Function) (hg : ∀ F, (g F).number = F.number)
    (hne : u ≠ t) : fnAt (updateFn s t g) u = fnAt s u := by
  cases t with
  | held h =>
    cases u with
    | held k =>
      have hk : k ≠ h := fun e => hne (by rw [e])
      simp only [fnAt, updateFn, heldFn, setHeldFns_heldFns]
      rw [heldFind_mapUpdate, if_neg hk]
    | inDev v f' => simp [fnAt, updateFn]
  | inDev v f =>
    cases u with
    | held k => simp [fnAt, updateFn, heldFn]
    | inDev w f' =>
      rw [fnAt_inDev, fnAt_inDev, updateFn]
      by_cases hw : w = v
      · subst hw
        have hf : f' ≠ f := fun h => hne (by rw [h])
        rw [devAt_updateDev_self s w (fun D => deviceUpdateFn D f g) (fun _ => rfl)]
        cases devAt s w with
        | none => rfl
        | some D => simp [deviceFn_update D f f' g hg, hf]
      · rw [devAt_updateDev_of_ne s v w (fun D => deviceUpdateFn D f g) (fun _ => rfl) hw]

/-- Two names of one update are the same update where the functions agree on the node that stands there. -/
theorem updateBus_congr (s : State) (p : BusRef) (g k : Bus → Bus) (h : ∀ B, busAt s p = some B → g B = k B) :
    updateBus s p g = updateBus s p k := by
  unfold busAt at h
  unfold updateBus
  cases hp : p.base with
  | none =>
    rw [hp] at h
    simp only
    rw [updateAt_congr g k p.path s.root (fun C hC => h C hC)]
  | some b =>
    rw [hp] at h
    simp only [busBase, heldBus] at h
    simp only
    congr 1
    generalize s.heldBuses = m at h
    induction m with
    | nil => rfl
    | cons x rest ih =>
      simp only [mapUpdate]
      by_cases hx : x.1 = b
      · simp only [hx, if_true]
        rw [updateAt_congr g k p.path x.2 (fun C hC => h C (by simp [mapFind, hx, hC]))]
      · simp only [hx, if_false]
        rw [ih (fun C hC => h C (by simpa [mapFind, hx] using hC))]

/-! ## Topology of the state -/

@[simp] theorem stateBare_answer (s : State) (r : Reply) : stateBare (answer s r) = answer (stateBare s) r := rfl
@[simp] theorem stateBare_setCa (s : State) (v : Dword) : stateBare (setCa s v) = setCa (stateBare s) v := rfl

theorem stateBare_updateBus (s : State) (p : BusRef) (g : Bus → Bus) (h : ∀ B, busBare (g B) = busBare B) :
    stateBare (updateBus s p g) = stateBare s := by
  unfold updateBus
  cases p.base with
  | none => simp only [stateBare, setRoot, busBare_updateAt g h]
  | some b =>
    simp only [stateBare, setHeldBuses]
    rw [map_mapUpdate_of_eq]
    intro e
    simp only [busBare_updateAt g h]

theorem stateBare_updateDev (s : State) (t : DevRef) (g : Device → Device) (h : ∀ D, deviceBare (g D) = deviceBare D) :
    stateBare (updateDev s t g) = stateBare s := by
  cases t with
  | held k =>
    simp only [stateBare, updateDev, setHeldDevs]
    rw [map_mapUpdate_of_eq]
    intro e
    simp only [h]
  | node p d => exact stateBare_updateBus s p _ (fun B => busBare_updateDev B d g h)

theorem stateBare_updateFn (s : State) (t : FnRef) (g : Function → Function) (h : ∀ F, fnBare (g F) = fnBare F) :
    stateBare (updateFn s t g) = stateBare s := by
  cases t with
  | held k =>
    simp only [stateBare, updateFn, setHeldFns]
    rw [map_mapUpdate_of_eq]
    intro e
    simp only [h]
  | inDev u f => exact stateBare_updateDev s _ _ (fun D => deviceBare_updateFn D f g h)

/-! ## The address register and the data access -/

/-- RC_SET_ADDR changes `CA` and nothing else. -/
theorem setAddress_eq (s : State) (o : Nat) (data : List Byte) : ∃ v, setAddress s o data = setCa s v := by
  unfold setAddress
  split
  · exact ⟨s.ca, rfl⟩
  · exact ⟨_, rfl⟩

/-- The lanes of `CA` after an address write that fits (rule R210). -/
theorem lane_setAddress (s : State) (o j : Nat) (data : List Byte) (hj : j < 4) (h : o + data.length ≤ 4) :
    lane (setAddress s o data).ca j =
      if hd : o ≤ j ∧ j - o < data.length then data[j - o]'hd.2 else lane s.ca j := by
  unfold setAddress
  rw [if_neg (by omega), setCa_ca]
  exact lane_setLanes data s.ca o j hj h

/-- The path of the guest's target is the path routing takes from Bus 0. -/
theorem guestBus_eq (s : State) : guestBus s = ⟨none, reachPath s.root (caBus s.ca)⟩ := by
  unfold guestBus reachPath
  split <;> rfl

/-- RC_READ_SPACE reads the register of the guest's target, all ones where there is none or the mechanism is
disabled (rules R212 and R213). -/
theorem readSpace_eq (s : State) :
    readSpace s =
      if caEnabled s.ca then (regAt s (guestTarget s) (caRegister s.ca)).getD allOnes else allOnes := by
  unfold readSpace
  split
  · simp only [parseAddress, regAt, guestTarget, fnAt, devAt, guestBus_eq, busAt, busBase, busRead, busReach_eq]
    cases nodeAt s.root (reachPath s.root (caBus s.ca)) with
    | none => rfl
    | some B =>
      simp only
      cases busDevice B (caDevice s.ca) with
      | none => rfl
      | some D => rcases hF : deviceFn D (caFunction s.ca) with _ | F <;> simp [deviceRead, hF]
  · rfl

/-- RC_WRITE_SPACE writes the function the guest's target names, when enabled (rule R214). -/
theorem writeSpace_eq (s : State) (o : Nat) (data : List Byte) :
    writeSpace s o data =
      if caEnabled s.ca then
        updateFn s (guestTarget s) (fun F => withSpace F (csWriteData F.cs (caRegister s.ca) o data))
      else s := by
  unfold writeSpace
  split
  · simp only [parseAddress, busWrite_eq, guestTarget, guestBus_eq, updateFn, updateDev, updateBus]
    rfl
  · rfl

@[simp] theorem writeSpace_ca (s : State) (o : Nat) (data : List Byte) : (writeSpace s o data).ca = s.ca := by
  unfold writeSpace; split <;> rfl

theorem stateBare_writeSpace (s : State) (o : Nat) (data : List Byte) :
    stateBare (writeSpace s o data) = stateBare s := by
  rw [writeSpace_eq]
  split
  · exact stateBare_updateFn s _ _ (fun _ => rfl)
  · rfl

/-! ## The invariant of the state -/

/-- The invariant, clause by clause. -/
theorem stateWf_iff (s : State) : stateWf s = true ↔
    s.root.number = 0 ∧ busWf s.root = true ∧ mapRising Prod.fst s.heldFns = true ∧
      mapRising Prod.fst s.heldDevs = true ∧ mapRising Prod.fst s.heldBuses = true ∧
      (∀ e ∈ s.heldDevs, deviceWf e.2 = true) ∧ (∀ e ∈ s.heldBuses, busWf e.2 = true) := by
  simp only [stateWf, Bool.and_eq_true, decide_eq_true_eq, List.all_eq_true, and_assoc]

@[simp] theorem stateWf_answer (s : State) (r : Reply) : stateWf (answer s r) = stateWf s := rfl
@[simp] theorem stateWf_setCa (s : State) (v : Dword) : stateWf (setCa s v) = stateWf s := rfl
@[simp] theorem stateWf_taken (s : State) (rest : List Request) (a : Agent) : stateWf (taken s rest a) = stateWf s :=
  rfl

theorem busWf_busAt {s : State} {p : BusRef} {B : Bus} (hs : stateWf s = true) (h : busAt s p = some B) :
    busWf B = true := by
  rw [stateWf_iff] at hs
  unfold busAt at h
  cases hb : busBase s p.base with
  | none => rw [hb] at h; cases h
  | some E =>
    rw [hb] at h
    refine busWf_nodeAt ?_ h
    cases hp : p.base with
    | none => rw [hp] at hb; cases hb; exact hs.2.1
    | some k =>
      rw [hp] at hb
      simp only [busBase, heldBus, Option.map_eq_some_iff] at hb
      obtain ⟨e, he, rfl⟩ := hb
      exact hs.2.2.2.2.2.2 e (mapFind_mem he)

theorem deviceWf_devAt {s : State} {t : DevRef} {D : Device} (hs : stateWf s = true) (h : devAt s t = some D) :
    deviceWf D = true := by
  cases t with
  | held k =>
    simp only [devAt, heldDev, Option.map_eq_some_iff] at h
    obtain ⟨e, he, rfl⟩ := h
    exact ((stateWf_iff s).1 hs).2.2.2.2.2.1 e (mapFind_mem he)
  | node p d =>
    simp only [devAt] at h
    cases hb : busAt s p with
    | none => rw [hb] at h; cases h
    | some B => rw [hb] at h; exact deviceWf_device (busWf_busAt hs hb) h

theorem stateWf_updateBus {s : State} {p : BusRef} {g : Bus → Bus} (hn : ∀ B, (g B).number = B.number)
    (hg : ∀ B, busWf B = true → busWf (g B) = true) (hs : stateWf s = true) : stateWf (updateBus s p g) = true := by
  have h := (stateWf_iff s).1 hs
  unfold updateBus
  cases p.base with
  | none =>
    rw [stateWf_iff]
    exact ⟨by rw [setRoot_root, updateAt_number g hn]; exact h.1, busWf_updateAt hn hg p.path _ h.2.1, h.2.2⟩
  | some k =>
    rw [stateWf_iff]
    refine ⟨h.1, h.2.1, h.2.2.1, h.2.2.2.1, mapRising_mapUpdate (fun _ => rfl) h.2.2.2.2.1, h.2.2.2.2.2.1, ?_⟩
    intro e he
    rcases mem_mapUpdate he with he | ⟨x, hx, -, rfl⟩
    · exact h.2.2.2.2.2.2 e he
    · exact busWf_updateAt hn hg p.path _ (h.2.2.2.2.2.2 x hx)

theorem stateWf_updateDev {s : State} {t : DevRef} {g : Device → Device} (hn : ∀ D, (g D).number = D.number)
    (hg : ∀ D, deviceWf D = true → deviceWf (g D) = true) (hs : stateWf s = true) :
    stateWf (updateDev s t g) = true := by
  cases t with
  | held k =>
    have h := (stateWf_iff s).1 hs
    rw [stateWf_iff]
    refine ⟨h.1, h.2.1, h.2.2.1, mapRising_mapUpdate (fun _ => rfl) h.2.2.2.1, h.2.2.2.2.1, ?_, h.2.2.2.2.2.2⟩
    intro e he
    rcases mem_mapUpdate he with he | ⟨x, hx, -, rfl⟩
    · exact h.2.2.2.2.2.1 e he
    · exact hg _ (h.2.2.2.2.2.1 x hx)
  | node p d =>
    exact stateWf_updateBus (g := fun B => busUpdateDev B d g) (fun _ => rfl) (fun B hB => busWf_updateDev hn hg hB) hs

theorem stateWf_updateFn {s : State} {t : FnRef} {g : Function → Function} (hn : ∀ F, (g F).number = F.number)
    (hs : stateWf s = true) : stateWf (updateFn s t g) = true := by
  cases t with
  | held k =>
    have h := (stateWf_iff s).1 hs
    rw [stateWf_iff]
    exact ⟨h.1, h.2.1, mapRising_mapUpdate (fun _ => rfl) h.2.2.1, h.2.2.2⟩
  | inDev u f =>
    exact stateWf_updateDev (g := fun D => deviceUpdateFn D f g) (fun _ => rfl)
      (fun D hD => deviceWf_updateFn hn hD) hs

theorem stateWf_holdFn {s : State} (h : Nat) (F : Function) (hs : stateWf s = true) :
    stateWf (holdFn s h F) = true := by
  rw [stateWf_iff] at hs ⊢
  exact ⟨hs.1, hs.2.1, mapRising_mapInsert hs.2.2.1, hs.2.2.2⟩

theorem stateWf_holdDev {s : State} (h : Nat) {D : Device} (hD : deviceWf D = true) (hs : stateWf s = true) :
    stateWf (holdDev s h D) = true := by
  rw [stateWf_iff] at hs ⊢
  refine ⟨hs.1, hs.2.1, hs.2.2.1, mapRising_mapInsert hs.2.2.2.1, hs.2.2.2.2.1, fun e he => ?_, hs.2.2.2.2.2.2⟩
  rcases mem_mapInsert he with rfl | he
  · exact hD
  · exact hs.2.2.2.2.2.1 e he

theorem stateWf_holdBus {s : State} (h : Nat) {B : Bus} (hB : busWf B = true) (hs : stateWf s = true) :
    stateWf (holdBus s h B) = true := by
  rw [stateWf_iff] at hs ⊢
  refine ⟨hs.1, hs.2.1, hs.2.2.1, hs.2.2.2.1, mapRising_mapInsert hs.2.2.2.2.1, hs.2.2.2.2.2.1, fun e he => ?_⟩
  rcases mem_mapInsert he with rfl | he
  · exact hB
  · exact hs.2.2.2.2.2.2 e he

theorem stateWf_useFn {s : State} (src : FnSrc) (hs : stateWf s = true) : stateWf (useFn s src) = true := by
  cases src with
  | held h =>
    simp only [useFn]
    rw [stateWf_iff] at hs ⊢
    exact ⟨hs.1, hs.2.1, mapRising_mapErase hs.2.2.1, hs.2.2.2⟩
  | made n args => exact hs

theorem stateWf_useDev {s : State} (src : DevSrc) (hs : stateWf s = true) : stateWf (useDev s src) = true := by
  cases src with
  | held h =>
    simp only [useDev]
    rw [stateWf_iff] at hs ⊢
    exact ⟨hs.1, hs.2.1, hs.2.2.1, mapRising_mapErase hs.2.2.2.1, hs.2.2.2.2.1,
      fun e he => hs.2.2.2.2.2.1 e (mem_mapErase he), hs.2.2.2.2.2.2⟩
  | made n => exact hs
  | madeDummy n => exact hs

theorem stateWf_useBus {s : State} (src : BusSrc) (hs : stateWf s = true) : stateWf (useBus s src) = true := by
  cases src with
  | held h =>
    simp only [useBus]
    rw [stateWf_iff] at hs ⊢
    exact ⟨hs.1, hs.2.1, hs.2.2.1, hs.2.2.2.1, mapRising_mapErase hs.2.2.2.2.1, hs.2.2.2.2.2.1,
      fun e he => hs.2.2.2.2.2.2 e (mem_mapErase he)⟩
  | made n => exact hs

theorem deviceWf_srcDev {s : State} {src : DevSrc} {D : Device} (hs : stateWf s = true) (h : srcDev s src = some D) :
    deviceWf D = true := by
  cases src with
  | held k => exact deviceWf_devAt (t := .held k) hs h
  | made n => cases h; exact deviceWf_newDevice n
  | madeDummy n => cases h; exact deviceWf_newDummyDevice n

theorem busWf_srcBus {s : State} {src : BusSrc} {B : Bus} (hs : stateWf s = true) (h : srcBus s src = some B) :
    busWf B = true := by
  cases src with
  | held k =>
    have h' : heldBus s k = some B := h
    exact busWf_busAt (p := ⟨some k, []⟩) hs (by simp [busAt, busBase, h'])
  | made n => cases h; exact busWf_newBus n

theorem stateWf_writeSpace {s : State} (o : Nat) (data : List Byte) (hs : stateWf s = true) :
    stateWf (writeSpace s o data) = true := by
  rw [writeSpace_eq]
  split
  · exact stateWf_updateFn (g := fun F => withSpace F (csWriteData F.cs (caRegister s.ca) o data)) (fun _ => rfl) hs
  · exact hs

end Sys2Proof.Machine
end

