-- ==== Sys2Proof/Laws/Names.lean ====
section
/-! SUPPORT. Updates seen through names: an update of a node that is not there or that changes nothing, one register
write among all registers, a change of one child slot among all buses, and the spans that are not well-shaped. -/

namespace Sys2Proof.Machine

/-! ## Updates that change nothing -/

theorem mapUpdate_eq_self {α : Type} {key : α → Nat} (k : Nat) (g : α → α) (m : List α)
    (h : ∀ x, mapFind key k m = some x → g x = x) : mapUpdate key k g m = m := by
  induction m with
  | nil => rfl
  | cons y rest ih =>
    simp only [mapUpdate]
    by_cases hy : key y = k
    · simp only [hy, if_true]
      rw [h y (by simp [mapFind, hy])]
    · simp only [hy, if_false]
      rw [ih (fun x hx => h x (by simpa [mapFind, hy] using hx))]

theorem updateBus_eq_self (s : State) (p : BusRef) (g : Bus → Bus) (h : ∀ B, busAt s p = some B → g B = B) :
    updateBus s p g = s := by
  rw [updateBus_congr s p g id h]
  unfold updateBus
  cases p.base with
  | none => simp [updateAt_id, setRoot]
  | some b =>
    have e : (fun e : Nat × Bus => (e.1, updateAt id p.path e.2)) = id := by funext e; simp [updateAt_id]
    simp only [e, mapUpdate_id]
    rfl

/-- An update of a device changes nothing where it leaves the device that stands there as it is. -/
theorem updateDev_eq_self (s : State) (u : DevRef) (g : Device → Device) (h : ∀ D, devAt s u = some D → g D = D) :
    updateDev s u g = s := by
  cases u with
  | held k =>
    simp only [updateDev]
    rw [mapUpdate_eq_self]
    · rfl
    · intro e he
      rw [h e.2 (by simp [devAt, heldDev, he])]
  | node p d =>
    simp only [updateDev]
    refine updateBus_eq_self s p _ (fun B hB => ?_)
    unfold busUpdateDev
    rw [mapUpdate_eq_self]
    intro D hD
    exact h D (by simp [devAt, hB, busDevice, hD])

/-- An update of a function changes nothing where it leaves the function that stands there as it is. -/
theorem updateFn_eq_self (s : State) (u : FnRef) (g : Function → Function) (h : ∀ F, fnAt s u = some F → g F = F) :
    updateFn s u g = s := by
  cases u with
  | held k =>
    simp only [updateFn]
    rw [mapUpdate_eq_self]
    · rfl
    · intro e he
      rw [h e.2 (by simp [fnAt, heldFn, he])]
  | inDev v f =>
    refine updateDev_eq_self s v (fun D => deviceUpdateFn D f g) (fun D hD => ?_)
    unfold deviceUpdateFn
    rw [mapUpdate_eq_self]
    intro F hF
    exact h F (by simp [fnAt, hD, deviceFn, hF])

/-- A missing function is no function to update. -/
theorem updateFn_of_none (s : State) (u : FnRef) (g : Function → Function) (h : fnAt s u = none) :
    updateFn s u g = s :=
  updateFn_eq_self s u g (fun F hF => by rw [h] at hF; cases hF)

/-- The shapes DEV_WR drops leave the register file as it is (rule R164). -/
theorem csWriteData_of_dropped (cs : ConfigSpace) (r o : Nat) (data : List Byte)
    (h : writeDropped o data.length = true) : csWriteData cs r o data = cs := by
  refine space_ext (fun q => ?_)
  rw [csRead32_csWriteData]
  simp [h]

/-- They leave the block as it is on the guest's way too (rule R214). -/
theorem writeSpace_of_dropped (s : State) (o : Nat) (data : List Byte) (h : writeDropped o data.length = true) :
    writeSpace s o data = s := by
  rw [writeSpace_eq]
  split
  · refine updateFn_eq_self s _ _ (fun F _ => ?_)
    rw [csWriteData_of_dropped _ _ _ _ h]
    rfl
  · rfl

theorem stateWf_setAddress {s : State} (o : Nat) (data : List Byte) (hs : stateWf s = true) :
    stateWf (setAddress s o data) = true := by
  obtain ⟨v, hv⟩ := setAddress_eq s o data
  rw [hv, stateWf_setCa]
  exact hs

/-! ## One register among all -/

/-- A write to one register of one function leaves every other register of every function as it was. -/
theorem regAt_updateFn_of_ne (s : State) (t u : FnRef) (r q : Nat) (g : Function → Function)
    (hn : ∀ F, (g F).number = F.number) (hg : ∀ F, q ≠ r → csRead32 (g F).cs q = csRead32 F.cs q)
    (h : (u, q) ≠ (t, r)) : regAt (updateFn s t g) u q = regAt s u q := by
  unfold regAt
  by_cases hu : u = t
  · subst hu
    rw [fnAt_updateFn_self _ _ _ hn]
    cases fnAt s u with
    | none => rfl
    | some F => exact hg F (fun e => h (by rw [e]))
  · rw [fnAt_updateFn_of_ne _ _ _ _ hn hu]

theorem regAt_node (s : State) (p : BusRef) (B : Bus) (hB : busAt s p = some B) (d f r : Nat) :
    regAt s (.inDev (.node p d) f) r = localRegister B d f r := by
  simp only [regAt, fnAt, devAt, hB, localRegister]
  cases busDevice B d with
  | none => rfl
  | some D => rcases hF : deviceFn D f with _ | F <;> simp [deviceRead, hF]

theorem regAt_of_no_bus (s : State) (p : BusRef) (h : busAt s p = none) (d f r : Nat) :
    regAt s (.inDev (.node p d) f) r = none := by
  simp only [regAt, fnAt, devAt, h]

/-! ## Buses by name -/

/-- The name of a child names the child. -/
theorem busAt_below (s : State) (p : BusRef) (B : Bus) (b : Nat) (hB : busAt s p = some B) :
    busAt s (below p b) = busChild B b := by
  unfold busAt below at *
  simp only
  cases h : busBase s p.base with
  | none => simp [h] at hB
  | some R =>
    simp only [h] at hB
    simp only [nodeAt_append, hB, Option.bind_some, nodeAt]
    cases busChild B b <;> rfl

theorem updateBus_updateAt (s : State) (p : BusRef) (q : List Nat) (g : Bus → Bus) :
    updateBus s p (updateAt g q) = updateBus s ⟨p.base, p.path ++ q⟩ g := by
  unfold updateBus
  cases h : p.base with
  | none => simp only; rw [updateAt_append]
  | some k => simp only [updateAt_append]

/-- BUS_WR from `p` writes the function at `p` itself or at its direct child (rules R184 and R189). -/
theorem updateBus_busWrite (s : State) (p : BusRef) (B : Bus) (hB : busAt s p = some B) (b d f r o : Nat)
    (data : List Byte) :
    updateBus s p (fun B => busWrite B b d f r o data) =
      updateFn s (if b = B.number then .inDev (.node p d) f else .inDev (.node (below p b) d) f)
        (fun F => withSpace F (csWriteData F.cs r o data)) := by
  rw [updateBus_congr s p _ (updateAt (fun C => busUpdateDev C d (fun D => deviceWrite D f r o data)) (reachPath B b))
    (fun C hC => by rw [hB] at hC; cases hC; exact busWrite_eq _ _ _ _ _ _ _), updateBus_updateAt]
  unfold reachPath
  split
  · simp only [List.append_nil]; rfl
  · rfl

theorem nodeAt_updateAt_number (g : Bus → Bus) (hg : ∀ B, (g B).number = B.number)
    (hb : ∀ B, (g B).buses = B.buses) (p q : List Nat) (B : Bus) :
    (nodeAt (updateAt g p B) q).map Bus.number = (nodeAt B q).map Bus.number := by
  induction p generalizing B q with
  | nil =>
    cases q with
    | nil => simp [updateAt, hg]
    | cons c q =>
      have e : busChild (g B) c = busChild B c := by simp only [busChild, busChildren, hb]
      simp only [updateAt, nodeAt, e]
  | cons b p ih =>
    cases q with
    | nil => rfl
    | cons c q =>
      simp only [nodeAt, busChild_updateAt g hg]
      by_cases hc : c = b
      · subst hc
        simp only [if_true]
        cases busChild B c with
        | none => rfl
        | some C => exact ih q C
      · simp [hc]

/-- An update that leaves child buses alone leaves every bus in its place, under its number. -/
theorem busAt_updateBus_number (s : State) (p q : BusRef) (g : Bus → Bus) (hg : ∀ B, (g B).number = B.number)
    (hb : ∀ B, (g B).buses = B.buses) :
    (busAt (updateBus s p g) q).map Bus.number = (busAt s q).map Bus.number := by
  unfold busAt
  rw [busBase_updateBus]
  by_cases hbase : q.base = p.base
  · rw [if_pos hbase]
    cases busBase s q.base with
    | none => rfl
    | some B => exact nodeAt_updateAt_number g hg hb p.path q.path B
  · rw [if_neg hbase]

/-! ## A change of one child slot -/

theorem nodeAt_updateAt_slot (g : Bus → Bus) (hg : ∀ B, (g B).number = B.number)
    (hd : ∀ B, (g B).devices = B.devices) (c : Nat) (hc : ∀ B b, b ≠ c → busChild (g B) b = busChild B b)
    (p q : List Nat) (hq : ∀ r, q ≠ p ++ c :: r) (B : Bus) :
    (nodeAt (updateAt g p B) q).map Bus.number = (nodeAt B q).map Bus.number ∧
      (nodeAt (updateAt g p B) q).map Bus.devices = (nodeAt B q).map Bus.devices := by
  induction p generalizing B q with
  | nil =>
    cases q with
    | nil => simp [updateAt, hg, hd]
    | cons b q =>
      have hb : b ≠ c := fun e => hq q (by simp [e])
      simp only [updateAt, nodeAt, hc B b hb]
      exact ⟨trivial, trivial⟩
  | cons b p ih =>
    cases q with
    | nil => exact ⟨rfl, rfl⟩
    | cons e q =>
      simp only [nodeAt, busChild_updateAt g hg]
      by_cases h : e = b
      · subst h
        simp only [if_true]
        cases busChild B e with
        | none => exact ⟨rfl, rfl⟩
        | some C => exact ih q (fun r hr => hq r (by simp [hr])) C
      · simp [h]

/-- Every bus outside the slot keeps its number and its devices. -/
theorem busAt_updateBus_slot (s : State) (p q : BusRef) (g : Bus → Bus) (hg : ∀ B, (g B).number = B.number)
    (hd : ∀ B, (g B).devices = B.devices) (c : Nat) (hc : ∀ B b, b ≠ c → busChild (g B) b = busChild B b)
    (hq : ∀ r, q ≠ ⟨p.base, p.path ++ c :: r⟩) :
    (busAt (updateBus s p g) q).map Bus.number = (busAt s q).map Bus.number ∧
      (busAt (updateBus s p g) q).map Bus.devices = (busAt s q).map Bus.devices := by
  unfold busAt
  rw [busBase_updateBus]
  by_cases hb : q.base = p.base
  · rw [if_pos hb]
    cases busBase s q.base with
    | none => exact ⟨rfl, rfl⟩
    | some R => exact nodeAt_updateAt_slot g hg hd c hc p.path q.path (fun r e => hq r (by cases q; simp_all)) R
  · rw [if_neg hb]
    exact ⟨rfl, rfl⟩

/-- What stands in the slot, and below it. -/
theorem busAt_updateBus_child (s : State) (p : BusRef) (g : Bus → Bus) (hg : ∀ B, (g B).number = B.number) (c : Nat)
    (B : Bus) (hB : busAt s p = some B) (r : List Nat) :
    busAt (updateBus s p g) ⟨p.base, p.path ++ c :: r⟩ = (busChild (g B) c).bind (fun C => nodeAt C r) := by
  have h := busAt_updateBus_self s p g hg
  rw [hB] at h
  unfold busAt at h ⊢
  simp only at h ⊢
  cases hb : busBase (updateBus s p g) p.base with
  | none => rw [hb] at h; simp at h
  | some R =>
    rw [hb] at h
    simp only [nodeAt_append, h, Option.map_some, Option.bind_some, nodeAt]
    cases busChild (g B) c <;> rfl

/-! ## Spans that are not well-shaped -/

theorem wellShaped_iff (o n : Nat) :
    wellShaped o n = true ↔ 1 ≤ n ∧ o + n ≤ 8 ∧ o / 4 = (o + n - 1) / 4 := by
  simp only [wellShaped, Bool.and_eq_true, decide_eq_true_eq, and_assoc]
  rfl

/-- A read that is not well-shaped is the malformed row's (rule R100). -/
theorem guestRead_of_malformed (o n : Nat) (h : wellShaped o n = false) : guestRead o n = .portRdBad o n := by
  rw [← Bool.not_eq_true, wellShaped_iff] at h
  unfold guestRead
  split <;> (try rfl) <;> (try (split <;> (try rfl))) <;> (exfalso; apply h; omega)

/-- A write that is not well-shaped is the malformed row's. -/
theorem guestWrite_of_malformed (o : Nat) (data : List Byte) (h : wellShaped o data.length = false) :
    guestWrite o data = .portWrBad o data := by
  rw [← Bool.not_eq_true, wellShaped_iff] at h
  unfold guestWrite
  split <;> (try rfl) <;> (try (split <;> (try rfl))) <;>
    (exfalso; apply h; simp only [List.length_cons, List.length_nil]; omega)

end Sys2Proof.Machine
end

