-- ==== Sys2Proof/Laws/PerInstr.lean ====
section
/-! SUPPORT. Per instruction: the descriptor the encoder writes matches the row of the opcode map that carries the
instruction's mnemonic, and keeps that row's guard (rules R98 to R101). -/

namespace Sys2Proof.Laws

/-- The statement of the family: a row with this mnemonic exists, and every descriptor of the instruction has the
row's pattern under the row's mask and an offset inside the row's guard. -/
def RowMatch.Statement (i : Instr) : Prop :=
  ∃ row ∈ opcodeRows, row.mnemonic = i.mnemonic ∧
    ∀ D operands, encode i = .coded D operands → D &&& row.mask = row.pattern ∧ D.toNat % 4 ≤ row.maxOffset

/-- A guest descriptor has its class and its zero bits on top. -/
theorem guestDescriptor_top (c : BitVec 2) (n : BitVec 4) (o : BitVec 8) :
    (c ++ 0#2 ++ n ++ o) &&& 0xF000#16 = c ++ 0#14 := by
  apply BitVec.eq_of_getLsbD_eq
  intro i hi
  simp only [BitVec.getLsbD_and, BitVec.getLsbD_append]
  interval_cases i <;> simp

theorem encodeRead_coded {o n : Nat} {D : BitVec 16} {operands : List Nat}
    (h : encodeRead o n = .coded D operands) : D = guestDescriptor 0 n o := by
  unfold encodeRead at h
  split at h <;> cases h
  rfl

theorem encodeWrite_coded {o : Nat} {data : List Byte} {D : BitVec 16} {operands : List Nat}
    (h : encodeWrite o data = .coded D operands) : D = guestDescriptor 1 data.length o := by
  unfold encodeWrite at h
  split at h <;> cases h
  rfl

theorem RowMatch.cfgAddrRd8 (k : Fin 4) : RowMatch.Statement (.cfgAddrRd8 k) := by
  refine ⟨⟨"CFGADDR_RD8", 0x0100, 0xFFFC, 3⟩, by decide, rfl, fun D operands h => ?_⟩
  rw [encodeRead_coded h]
  show guestDescriptor 0 1 k &&& 0xFFFC = 0x0100 ∧ (guestDescriptor 0 1 k).toNat % 4 ≤ 3
  clear h
  revert k
  decide

theorem RowMatch.cfgAddrRd16 (k : Fin 3) : RowMatch.Statement (.cfgAddrRd16 k) := by
  refine ⟨⟨"CFGADDR_RD16", 0x0200, 0xFFFC, 2⟩, by decide, rfl, fun D operands h => ?_⟩
  rw [encodeRead_coded h]
  show guestDescriptor 0 2 k &&& 0xFFFC = 0x0200 ∧ (guestDescriptor 0 2 k).toNat % 4 ≤ 2
  clear h
  revert k
  decide

theorem RowMatch.cfgAddrRd24 (k : Fin 2) : RowMatch.Statement (.cfgAddrRd24 k) := by
  refine ⟨⟨"CFGADDR_RD24", 0x0300, 0xFFFC, 1⟩, by decide, rfl, fun D operands h => ?_⟩
  rw [encodeRead_coded h]
  show guestDescriptor 0 3 k &&& 0xFFFC = 0x0300 ∧ (guestDescriptor 0 3 k).toNat % 4 ≤ 1
  clear h
  revert k
  decide

theorem RowMatch.cfgAddrRd32 : RowMatch.Statement .cfgAddrRd32 := by
  refine ⟨⟨"CFGADDR_RD32", 0x0400, 0xFFFF, 3⟩, by decide, rfl, fun D operands h => ?_⟩
  rw [encodeRead_coded h]
  show guestDescriptor 0 4 0 &&& 0xFFFF = 0x0400 ∧ (guestDescriptor 0 4 0).toNat % 4 ≤ 3
  decide

theorem RowMatch.cfgAddrWr8 (k : Fin 4) (v : Byte) : RowMatch.Statement (.cfgAddrWr8 k v) := by
  refine ⟨⟨"CFGADDR_WR8", 0x4100, 0xFFFC, 3⟩, by decide, rfl, fun D operands h => ?_⟩
  rw [encodeWrite_coded h]
  show guestDescriptor 1 1 k &&& 0xFFFC = 0x4100 ∧ (guestDescriptor 1 1 k).toNat % 4 ≤ 3
  clear h
  revert k
  decide

theorem RowMatch.cfgAddrWr16 (k : Fin 3) (v0 v1 : Byte) : RowMatch.Statement (.cfgAddrWr16 k v0 v1) := by
  refine ⟨⟨"CFGADDR_WR16", 0x4200, 0xFFFC, 2⟩, by decide, rfl, fun D operands h => ?_⟩
  rw [encodeWrite_coded h]
  show guestDescriptor 1 2 k &&& 0xFFFC = 0x4200 ∧ (guestDescriptor 1 2 k).toNat % 4 ≤ 2
  clear h
  revert k
  decide

theorem RowMatch.cfgAddrWr24 (k : Fin 2) (v0 v1 v2 : Byte) : RowMatch.Statement (.cfgAddrWr24 k v0 v1 v2) := by
  refine ⟨⟨"CFGADDR_WR24", 0x4300, 0xFFFC, 1⟩, by decide, rfl, fun D operands h => ?_⟩
  rw [encodeWrite_coded h]
  show guestDescriptor 1 3 k &&& 0xFFFC = 0x4300 ∧ (guestDescriptor 1 3 k).toNat % 4 ≤ 1
  clear h
  revert k
  decide

theorem RowMatch.cfgAddrWr32 (v0 v1 v2 v3 : Byte) : RowMatch.Statement (.cfgAddrWr32 v0 v1 v2 v3) := by
  refine ⟨⟨"CFGADDR_WR32", 0x4400, 0xFFFF, 3⟩, by decide, rfl, fun D operands h => ?_⟩
  rw [encodeWrite_coded h]
  show guestDescriptor 1 4 0 &&& 0xFFFF = 0x4400 ∧ (guestDescriptor 1 4 0).toNat % 4 ≤ 3
  decide

theorem RowMatch.cfgDataRd8 (k : Fin 4) : RowMatch.Statement (.cfgDataRd8 k) := by
  refine ⟨⟨"CFGDATA_RD8", 0x0104, 0xFFFC, 3⟩, by decide, rfl, fun D operands h => ?_⟩
  rw [encodeRead_coded h]
  show guestDescriptor 0 1 (4 + k) &&& 0xFFFC = 0x0104 ∧ (guestDescriptor 0 1 (4 + k)).toNat % 4 ≤ 3
  clear h
  revert k
  decide

theorem RowMatch.cfgDataRd16 (k : Fin 3) : RowMatch.Statement (.cfgDataRd16 k) := by
  refine ⟨⟨"CFGDATA_RD16", 0x0204, 0xFFFC, 2⟩, by decide, rfl, fun D operands h => ?_⟩
  rw [encodeRead_coded h]
  show guestDescriptor 0 2 (4 + k) &&& 0xFFFC = 0x0204 ∧ (guestDescriptor 0 2 (4 + k)).toNat % 4 ≤ 2
  clear h
  revert k
  decide

theorem RowMatch.cfgDataRd24 (k : Fin 2) : RowMatch.Statement (.cfgDataRd24 k) := by
  refine ⟨⟨"CFGDATA_RD24", 0x0304, 0xFFFC, 1⟩, by decide, rfl, fun D operands h => ?_⟩
  rw [encodeRead_coded h]
  show guestDescriptor 0 3 (4 + k) &&& 0xFFFC = 0x0304 ∧ (guestDescriptor 0 3 (4 + k)).toNat % 4 ≤ 1
  clear h
  revert k
  decide

theorem RowMatch.cfgDataRd32 : RowMatch.Statement .cfgDataRd32 := by
  refine ⟨⟨"CFGDATA_RD32", 0x0404, 0xFFFF, 3⟩, by decide, rfl, fun D operands h => ?_⟩
  rw [encodeRead_coded h]
  show guestDescriptor 0 4 4 &&& 0xFFFF = 0x0404 ∧ (guestDescriptor 0 4 4).toNat % 4 ≤ 3
  decide

theorem RowMatch.cfgDataWr8 (k : Fin 4) (v : Byte) : RowMatch.Statement (.cfgDataWr8 k v) := by
  refine ⟨⟨"CFGDATA_WR8", 0x4104, 0xFFFC, 3⟩, by decide, rfl, fun D operands h => ?_⟩
  rw [encodeWrite_coded h]
  show guestDescriptor 1 1 (4 + k) &&& 0xFFFC = 0x4104 ∧ (guestDescriptor 1 1 (4 + k)).toNat % 4 ≤ 3
  clear h
  revert k
  decide

theorem RowMatch.cfgDataWr16 (k : Fin 3) (v0 v1 : Byte) : RowMatch.Statement (.cfgDataWr16 k v0 v1) := by
  refine ⟨⟨"CFGDATA_WR16", 0x4204, 0xFFFC, 2⟩, by decide, rfl, fun D operands h => ?_⟩
  rw [encodeWrite_coded h]
  show guestDescriptor 1 2 (4 + k) &&& 0xFFFC = 0x4204 ∧ (guestDescriptor 1 2 (4 + k)).toNat % 4 ≤ 2
  clear h
  revert k
  decide

theorem RowMatch.cfgDataWr24 (k : Fin 2) (v0 v1 v2 : Byte) : RowMatch.Statement (.cfgDataWr24 k v0 v1 v2) := by
  refine ⟨⟨"CFGDATA_WR24", 0x4304, 0xFFFC, 1⟩, by decide, rfl, fun D operands h => ?_⟩
  rw [encodeWrite_coded h]
  show guestDescriptor 1 3 (4 + k) &&& 0xFFFC = 0x4304 ∧ (guestDescriptor 1 3 (4 + k)).toNat % 4 ≤ 1
  clear h
  revert k
  decide

theorem RowMatch.cfgDataWr32 (v0 v1 v2 v3 : Byte) : RowMatch.Statement (.cfgDataWr32 v0 v1 v2 v3) := by
  refine ⟨⟨"CFGDATA_WR32", 0x4404, 0xFFFF, 3⟩, by decide, rfl, fun D operands h => ?_⟩
  rw [encodeWrite_coded h]
  show guestDescriptor 1 4 4 &&& 0xFFFF = 0x4404 ∧ (guestDescriptor 1 4 4).toNat % 4 ≤ 3
  decide

theorem RowMatch.portRdBad (o n : Nat) : RowMatch.Statement (.portRdBad o n) := by
  refine ⟨⟨"PORT_RD_BAD", 0x0000, 0xF000, 3⟩, by decide, rfl, fun D operands h => ?_⟩
  rw [encodeRead_coded h]
  exact ⟨guestDescriptor_top _ _ _, Nat.lt_succ_iff.1 (Nat.mod_lt _ (by decide))⟩

theorem RowMatch.portWrBad (o : Nat) (data : List Byte) : RowMatch.Statement (.portWrBad o data) := by
  refine ⟨⟨"PORT_WR_BAD", 0x4000, 0xF000, 3⟩, by decide, rfl, fun D operands h => ?_⟩
  rw [encodeWrite_coded h]
  exact ⟨guestDescriptor_top _ _ _, Nat.lt_succ_iff.1 (Nat.mod_lt _ (by decide))⟩

theorem RowMatch.rcNew : RowMatch.Statement .rcNew := by
  refine ⟨⟨"RC_NEW", 0x8000#16 ||| 0x01, 0xFFFF, 3⟩, by decide, rfl, fun D operands h => ?_⟩
  cases h
  exact ⟨rfl, by decide⟩

theorem RowMatch.fnNewT0 (dst n : Nat) (vendor device : Half) (base sub progif rev : Byte) (ssvid ssid : Half) :
    RowMatch.Statement (.fnNewT0 dst n vendor device base sub progif rev ssvid ssid) := by
  refine ⟨⟨"FN_NEW_T0", 0x8000#16 ||| 0x02, 0xFFFF, 3⟩, by decide, rfl, fun D operands h => ?_⟩
  cases h
  exact ⟨rfl, by decide⟩

theorem RowMatch.fnNewT1 (dst n : Nat) (vendor device : Half) (base sub progif rev : Byte) :
    RowMatch.Statement (.fnNewT1 dst n vendor device base sub progif rev) := by
  refine ⟨⟨"FN_NEW_T1", 0x8000#16 ||| 0x03, 0xFFFF, 3⟩, by decide, rfl, fun D operands h => ?_⟩
  cases h
  exact ⟨rfl, by decide⟩

theorem RowMatch.devNew (dst n : Nat) : RowMatch.Statement (.devNew dst n) := by
  refine ⟨⟨"DEV_NEW", 0x8000#16 ||| 0x04, 0xFFFF, 3⟩, by decide, rfl, fun D operands h => ?_⟩
  cases h
  exact ⟨rfl, by decide⟩

theorem RowMatch.devNewDummy (dst n : Nat) : RowMatch.Statement (.devNewDummy dst n) := by
  refine ⟨⟨"DEV_NEW_DUMMY", 0x8000#16 ||| 0x05, 0xFFFF, 3⟩, by decide, rfl, fun D operands h => ?_⟩
  cases h
  exact ⟨rfl, by decide⟩

theorem RowMatch.busNew (dst n : Nat) : RowMatch.Statement (.busNew dst n) := by
  refine ⟨⟨"BUS_NEW", 0x8000#16 ||| 0x06, 0xFFFF, 3⟩, by decide, rfl, fun D operands h => ?_⟩
  cases h
  exact ⟨rfl, by decide⟩

theorem RowMatch.csRd8 (target : FnRef) (r o : Nat) : RowMatch.Statement (.csRd8 target r o) := by
  refine ⟨⟨"CS_RD8", 0x8000#16 ||| 0x10, 0xFFFF, 3⟩, by decide, rfl, fun D operands h => ?_⟩
  cases h
  exact ⟨rfl, by decide⟩

theorem RowMatch.csWr8 (target : FnRef) (r o : Nat) (v : Byte) : RowMatch.Statement (.csWr8 target r o v) := by
  refine ⟨⟨"CS_WR8", 0x8000#16 ||| 0x11, 0xFFFF, 3⟩, by decide, rfl, fun D operands h => ?_⟩
  cases h
  exact ⟨rfl, by decide⟩

theorem RowMatch.csRd16 (target : FnRef) (r h : Nat) : RowMatch.Statement (.csRd16 target r h) := by
  refine ⟨⟨"CS_RD16", 0x8000#16 ||| 0x12, 0xFFFF, 3⟩, by decide, rfl, fun D operands h => ?_⟩
  cases h
  exact ⟨rfl, by decide⟩

theorem RowMatch.csWr16 (target : FnRef) (r h : Nat) (v : Half) : RowMatch.Statement (.csWr16 target r h v) := by
  refine ⟨⟨"CS_WR16", 0x8000#16 ||| 0x13, 0xFFFF, 3⟩, by decide, rfl, fun D operands h => ?_⟩
  cases h
  exact ⟨rfl, by decide⟩

theorem RowMatch.csRd32 (target : FnRef) (r : Nat) : RowMatch.Statement (.csRd32 target r) := by
  refine ⟨⟨"CS_RD32", 0x8000#16 ||| 0x14, 0xFFFF, 3⟩, by decide, rfl, fun D operands h => ?_⟩
  cases h
  exact ⟨rfl, by decide⟩

theorem RowMatch.csWr32 (target : FnRef) (r : Nat) (v : Dword) : RowMatch.Statement (.csWr32 target r v) := by
  refine ⟨⟨"CS_WR32", 0x8000#16 ||| 0x15, 0xFFFF, 3⟩, by decide, rfl, fun D operands h => ?_⟩
  cases h
  exact ⟨rfl, by decide⟩

theorem RowMatch.devAddFn (target : DevRef) (src : FnSrc) : RowMatch.Statement (.devAddFn target src) := by
  refine ⟨⟨"DEV_ADD_FN", 0x8000#16 ||| 0x20, 0xFFFF, 3⟩, by decide, rfl, fun D operands h => ?_⟩
  cases h
  exact ⟨rfl, by decide⟩

theorem RowMatch.devGetFn (target : DevRef) (f : Nat) : RowMatch.Statement (.devGetFn target f) := by
  refine ⟨⟨"DEV_GET_FN", 0x8000#16 ||| 0x21, 0xFFFF, 3⟩, by decide, rfl, fun D operands h => ?_⟩
  cases h
  exact ⟨rfl, by decide⟩

theorem RowMatch.devRemoveFn (target : DevRef) (f dst : Nat) : RowMatch.Statement (.devRemoveFn target f dst) := by
  refine ⟨⟨"DEV_REMOVE_FN", 0x8000#16 ||| 0x22, 0xFFFF, 3⟩, by decide, rfl, fun D operands h => ?_⟩
  cases h
  exact ⟨rfl, by decide⟩

theorem RowMatch.devRd (target : DevRef) (f r : Nat) : RowMatch.Statement (.devRd target f r) := by
  refine ⟨⟨"DEV_RD", 0x8000#16 ||| 0x23, 0xFFFF, 3⟩, by decide, rfl, fun D operands h => ?_⟩
  cases h
  exact ⟨rfl, by decide⟩

theorem RowMatch.devWr (target : DevRef) (f r o : Nat) (data : List Byte) :
    RowMatch.Statement (.devWr target f r o data) := by
  refine ⟨⟨"DEV_WR", 0x8000#16 ||| 0x24, 0xFFFF, 3⟩, by decide, rfl, fun D operands h => ?_⟩
  cases h
  exact ⟨rfl, by decide⟩

theorem RowMatch.busAddBus (p : BusRef) (src : BusSrc) : RowMatch.Statement (.busAddBus p src) := by
  refine ⟨⟨"BUS_ADD_BUS", 0x8000#16 ||| 0x30, 0xFFFF, 3⟩, by decide, rfl, fun D operands h => ?_⟩
  cases h
  exact ⟨rfl, by decide⟩

theorem RowMatch.busAddDev (p : BusRef) (src : DevSrc) : RowMatch.Statement (.busAddDev p src) := by
  refine ⟨⟨"BUS_ADD_DEV", 0x8000#16 ||| 0x31, 0xFFFF, 3⟩, by decide, rfl, fun D operands h => ?_⟩
  cases h
  exact ⟨rfl, by decide⟩

theorem RowMatch.busGetBus (p : BusRef) (b : Nat) : RowMatch.Statement (.busGetBus p b) := by
  refine ⟨⟨"BUS_GET_BUS", 0x8000#16 ||| 0x32, 0xFFFF, 3⟩, by decide, rfl, fun D operands h => ?_⟩
  cases h
  exact ⟨rfl, by decide⟩

theorem RowMatch.busGetDev (p : BusRef) (d : Nat) : RowMatch.Statement (.busGetDev p d) := by
  refine ⟨⟨"BUS_GET_DEV", 0x8000#16 ||| 0x33, 0xFFFF, 3⟩, by decide, rfl, fun D operands h => ?_⟩
  cases h
  exact ⟨rfl, by decide⟩

theorem RowMatch.busRemoveBus (p : BusRef) (b dst : Nat) : RowMatch.Statement (.busRemoveBus p b dst) := by
  refine ⟨⟨"BUS_REMOVE_BUS", 0x8000#16 ||| 0x34, 0xFFFF, 3⟩, by decide, rfl, fun D operands h => ?_⟩
  cases h
  exact ⟨rfl, by decide⟩

theorem RowMatch.busRemoveDev (p : BusRef) (d dst : Nat) : RowMatch.Statement (.busRemoveDev p d dst) := by
  refine ⟨⟨"BUS_REMOVE_DEV", 0x8000#16 ||| 0x35, 0xFFFF, 3⟩, by decide, rfl, fun D operands h => ?_⟩
  cases h
  exact ⟨rfl, by decide⟩

theorem RowMatch.busRd (p : BusRef) (b d f r : Nat) : RowMatch.Statement (.busRd p b d f r) := by
  refine ⟨⟨"BUS_RD", 0x8000#16 ||| 0x36, 0xFFFF, 3⟩, by decide, rfl, fun D operands h => ?_⟩
  cases h
  exact ⟨rfl, by decide⟩

theorem RowMatch.busWr (p : BusRef) (b d f r o : Nat) (data : List Byte) :
    RowMatch.Statement (.busWr p b d f r o data) := by
  refine ⟨⟨"BUS_WR", 0x8000#16 ||| 0x37, 0xFFFF, 3⟩, by decide, rfl, fun D operands h => ?_⟩
  cases h
  exact ⟨rfl, by decide⟩

theorem RowMatch.rcSetAddr (o : Nat) (data : List Byte) : RowMatch.Statement (.rcSetAddr o data) := by
  refine ⟨⟨"RC_SET_ADDR", 0x8000#16 ||| 0x40, 0xFFFF, 3⟩, by decide, rfl, fun D operands h => ?_⟩
  cases h
  exact ⟨rfl, by decide⟩

theorem RowMatch.rcParseAddr : RowMatch.Statement .rcParseAddr := by
  refine ⟨⟨"RC_PARSE_ADDR", 0x8000#16 ||| 0x41, 0xFFFF, 3⟩, by decide, rfl, fun D operands h => ?_⟩
  cases h
  exact ⟨rfl, by decide⟩

theorem RowMatch.rcReadSpace : RowMatch.Statement .rcReadSpace := by
  refine ⟨⟨"RC_READ_SPACE", 0x8000#16 ||| 0x42, 0xFFFF, 3⟩, by decide, rfl, fun D operands h => ?_⟩
  cases h
  exact ⟨rfl, by decide⟩

theorem RowMatch.rcWriteSpace (o : Nat) (data : List Byte) : RowMatch.Statement (.rcWriteSpace o data) := by
  refine ⟨⟨"RC_WRITE_SPACE", 0x8000#16 ||| 0x43, 0xFFFF, 3⟩, by decide, rfl, fun D operands h => ?_⟩
  cases h
  exact ⟨rfl, by decide⟩

end Sys2Proof.Laws
end

