-- ==== Sys2Proof/Tests/Slice0.lean ====
section
/-! SUPPORT. The model's own tests. Expected results are the rows of spec/95_test_vectors.md (named in each comment),
or written out by hand from the rule named; each row is one operation on a small state. The last part shows, for every
statement with hypotheses, a concrete input that meets them. -/

namespace Sys2Proof.Machine

/-! ## Small states -/

/-- The test instantiation of `HOST_BRIDGE_ARGS` (95_test_vectors.md). -/
def testBridge : HeaderArgs := .type0 0x1111 0x2222 0x06 0x00 0x00 0x01 0x3333 0x4444

/-- Function `n` with the header of vector K1 and `cs[1] = 0x02100007`. -/
def testFn (n : Nat) : Function :=
  let F := newFunction n .generic (.type0 0x1234 0x5678 0x02 0x00 0x00 0x01 0xAAAA 0xBBBB)
  withSpace F (csWrite32 F.cs 1 0x02100007)

/-- State S1 of 95_test_vectors.md with F's `cs[1] = 0x02100007` and `CA = 0x80011004`, a bus 2 with a device below
bus 1 (vector B20), and one held node of each kind. -/
def s1 : State where
  ca := 0x80011004
  root := ⟨0, .cons 1 [⟨2, [testFn 0]⟩] (.cons 2 [⟨0, [testFn 0]⟩] .nil .nil) .nil,
    [⟨0, [newFunction 0 .hostBridge testBridge]⟩]⟩
  heldFns := [(4, testFn 3)]
  heldDevs := [(5, ⟨3, [testFn 0]⟩)]
  heldBuses := [(6, ⟨9, .nil, [⟨1, []⟩]⟩)]
  pending := []
  reply := .nothing
  caller := none

/-- `s1` with another `CA`. -/
def s1At (ca : Dword) : State := setCa s1 ca

/-- A block whose Bus 0 holds all 32 devices. -/
def fullBus : State := setRoot s1 ⟨0, .nil, (List.range 32).map newDevice⟩

/-- A block whose Bus 0 holds nothing. -/
def emptyBus : State := setRoot s1 ⟨0, .nil, []⟩

/-- F of the vectors: bus 1, device 2, function 0. -/
def fnF : FnRef := .inDev (.node ⟨none, [1]⟩ 2) 0

/-- The reply of one operation. -/
def replyOf (i : Instr) (s : State) : Option Reply :=
  match exec i s with
  | .next t => some t.reply
  | .fault _ => none
  | .refused _ => none

/-- `CA` after one operation. -/
def caAfter (i : Instr) (s : State) : Option Dword :=
  match exec i s with
  | .next t => some t.ca
  | .fault _ => none
  | .refused _ => none

/-- A register after one operation. -/
def regAfter (i : Instr) (s : State) (u : FnRef) (r : Nat) : Option Dword :=
  match exec i s with
  | .next t => regAt t u r
  | .fault _ => none
  | .refused _ => none

/-! ## Well-formed terms: a smoke test of each check -/

/-- A well-shaped span is no term of a malformed row (rules R248 and R249); the spans next to it are. -/
theorem test_wellFormed_refuses_wellShaped :
    (Instr.portRdBad 0 4).wellFormed = false ∧ (Instr.portRdBad 7 1).wellFormed = false ∧
    (Instr.portWrBad 4 [0, 0, 0]).wellFormed = false ∧ (Instr.portRdBad 0 5).wellFormed = true ∧
    (Instr.portRdBad 8 1).wellFormed = true ∧ (Instr.portRdBad 3 2).wellFormed = true ∧
    (Instr.portRdBad 4 0).wellFormed = true ∧ (Instr.portWrBad 7 [0, 0]).wellFormed = true := by decide

/-! ## Decoding: words written out from rules R98, R100 and R101 -/

/-- Guest reads: the descriptors of vectors P-R1 to P-R24. -/
theorem test_decode_guest_reads :
    decode (.coded 0x0103 []) = .ok (.cfgAddrRd8 3) ∧ decode (.coded 0x0202 []) = .ok (.cfgAddrRd16 2) ∧
    decode (.coded 0x0301 []) = .ok (.cfgAddrRd24 1) ∧ decode (.coded 0x0400 []) = .ok .cfgAddrRd32 ∧
    decode (.coded 0x0107 []) = .ok (.cfgDataRd8 3) ∧ decode (.coded 0x0205 []) = .ok (.cfgDataRd16 1) ∧
    decode (.coded 0x0305 []) = .ok (.cfgDataRd24 1) ∧ decode (.coded 0x0404 []) = .ok .cfgDataRd32 ∧
    decode (.coded 0x0203 []) = .ok (.portRdBad 3 2) ∧ decode (.coded 0x0302 []) = .ok (.portRdBad 2 3) ∧
    decode (.coded 0x0401 []) = .ok (.portRdBad 1 4) ∧ decode (.coded 0x0004 []) = .ok (.portRdBad 4 0) ∧
    decode (.coded 0x0500 []) = .ok (.portRdBad 0 5) ∧ decode (.coded 0x0108 []) = .ok (.portRdBad 8 1) ∧
    decode (.coded 0x0FFF []) = .ok (.portRdBad 255 15) := by decide

/-- Guest writes: the descriptors and data bytes of vectors P-W1 to P-W19. -/
theorem test_decode_guest_writes :
    decode (.coded 0x4103 [0x00]) = .ok (.cfgAddrWr8 3 0x00) ∧
    decode (.coded 0x4201 [0x08, 0x02]) = .ok (.cfgAddrWr16 1 0x08 0x02) ∧
    decode (.coded 0x4301 [0x00, 0x01, 0x80]) = .ok (.cfgAddrWr24 1 0x00 0x01 0x80) ∧
    decode (.coded 0x4400 [0xCD, 0xAB, 0x00, 0x7F]) = .ok (.cfgAddrWr32 0xCD 0xAB 0x00 0x7F) ∧
    decode (.coded 0x4107 [0x00]) = .ok (.cfgDataWr8 3 0x00) ∧
    decode (.coded 0x4205 [0x34, 0x12]) = .ok (.cfgDataWr16 1 0x34 0x12) ∧
    decode (.coded 0x4305 [0x11, 0x22, 0x33]) = .ok (.cfgDataWr24 1 0x11 0x22 0x33) ∧
    decode (.coded 0x4404 [0xEF, 0xBE, 0xAD, 0xDE]) = .ok (.cfgDataWr32 0xEF 0xBE 0xAD 0xDE) ∧
    decode (.coded 0x4203 [0x34, 0x12]) = .ok (.portWrBad 3 [0x34, 0x12]) ∧
    decode (.coded 0x4306 [0x11, 0x22, 0x33]) = .ok (.portWrBad 6 [0x11, 0x22, 0x33]) ∧
    decode (.coded 0x4004 []) = .ok (.portWrBad 4 []) := by decide

/-- Constructors and register accessors (codes of rule R101, operands as log 6 lays them out). -/
theorem test_decode_constructors_and_accessors :
    decode (.coded 0x8001 []) = .ok .rcNew ∧
    decode (.coded 0x8002 [4, 0, 0x1234, 0x5678, 2, 0, 0, 1, 0xAAAA, 0xBBBB]) =
      .ok (.fnNewT0 4 0 0x1234 0x5678 2 0 0 1 0xAAAA 0xBBBB) ∧
    decode (.coded 0x8003 [4, 1, 0x1234, 0x9ABC, 6, 4, 0, 0]) = .ok (.fnNewT1 4 1 0x1234 0x9ABC 6 4 0 0) ∧
    decode (.coded 0x8004 [5, 2]) = .ok (.devNew 5 2) ∧ decode (.coded 0x8005 [5, 3]) = .ok (.devNewDummy 5 3) ∧
    decode (.coded 0x8006 [6, 1]) = .ok (.busNew 6 1) ∧
    decode (.coded 0x8010 [0, 0, 0, 1, 1, 2, 0, 9, 3]) = .ok (.csRd8 fnF 9 3) ∧
    decode (.coded 0x8011 [5, 1, 3, 0xFF]) = .ok (.csWr8 (.held 4) 1 3 0xFF) ∧
    decode (.coded 0x8012 [0, 0, 7, 0, 2, 0, 1, 1]) = .ok (.csRd16 (.inDev (.node ⟨some 6, []⟩ 2) 0) 1 1) ∧
    decode (.coded 0x8013 [5, 5, 1, 0xBEEF]) = .ok (.csWr16 (.held 4) 5 1 0xBEEF) ∧
    decode (.coded 0x8014 [0, 6, 0, 1023]) = .ok (.csRd32 (.inDev (.held 5) 0) 1023) ∧
    decode (.coded 0x8014 [5, 1023]) = .ok (.csRd32 (.held 4) 1023) ∧
    decode (.coded 0x8015 [5, 64, 0xCAFEBABE]) = .ok (.csWr32 (.held 4) 64 0xCAFEBABE) := by decide

/-- Device and Bus operations. -/
theorem test_decode_devices_and_buses :
    decode (.coded 0x8020 [6, 6]) = .ok (.devAddFn (.held 5) (.held 4)) ∧
    decode (.coded 0x8020 [0, 0, 1, 1, 2, 1, 3, 1, 2, 6, 4, 0, 0]) =
      .ok (.devAddFn (.node ⟨none, [1]⟩ 2) (.made 3 (.type1 1 2 6 4 0 0))) ∧
    decode (.coded 0x8021 [6, 0]) = .ok (.devGetFn (.held 5) 0) ∧
    decode (.coded 0x8022 [6, 0, 8]) = .ok (.devRemoveFn (.held 5) 0 8) ∧
    decode (.coded 0x8023 [6, 0, 1]) = .ok (.devRd (.held 5) 0 1) ∧
    decode (.coded 0x8024 [6, 0, 1, 2, 2, 0x34, 0x12]) = .ok (.devWr (.held 5) 0 1 2 [0x34, 0x12]) ∧
    decode (.coded 0x8030 [0, 0, 0, 1]) = .ok (.busAddBus ⟨none, []⟩ (.made 1)) ∧
    decode (.coded 0x8031 [0, 1, 1, 1, 3]) = .ok (.busAddDev ⟨none, [1]⟩ (.madeDummy 3)) ∧
    decode (.coded 0x8032 [0, 0, 1]) = .ok (.busGetBus ⟨none, []⟩ 1) ∧
    decode (.coded 0x8033 [0, 0, 40]) = .ok (.busGetDev ⟨none, []⟩ 40) ∧
    decode (.coded 0x8034 [0, 0, 1, 6]) = .ok (.busRemoveBus ⟨none, []⟩ 1 6) ∧
    decode (.coded 0x8035 [0, 0, 0, 5]) = .ok (.busRemoveDev ⟨none, []⟩ 0 5) ∧
    decode (.coded 0x8036 [0, 0, 1, 2, 0, 64]) = .ok (.busRd ⟨none, []⟩ 1 2 0 64) ∧
    decode (.coded 0x8037 [0, 0, 1, 2, 0, 1, 0, 2, 7, 0]) = .ok (.busWr ⟨none, []⟩ 1 2 0 1 0 [7, 0]) := by decide

/-- RootComplex operations, and what rule R99 refuses. -/
theorem test_decode_root_and_refusals :
    decode (.coded 0x8040 [1, 3, 0xAA, 0xBB, 0xCC]) = .ok (.rcSetAddr 1 [0xAA, 0xBB, 0xCC]) ∧
    decode (.coded 0x8041 []) = .ok .rcParseAddr ∧ decode (.coded 0x8042 []) = .ok .rcReadSpace ∧
    decode (.coded 0x8043 [2, 2, 0x34, 0x12]) = .ok (.rcWriteSpace 2 [0x34, 0x12]) ∧
    decode (.coded 0xC001 []) = .error .reservedClass ∧ decode (.coded 0x1100 []) = .error .reservedBits ∧
    decode (.coded 0x6100 [0]) = .error .reservedBits ∧ decode (.coded 0x8101 []) = .error .reservedBits ∧
    decode (.coded 0x8000 []) = .error .unassignedCode ∧ decode (.coded 0x8044 []) = .error .unassignedCode ∧
    decode (.coded 0x4103 [0x100]) = .error .badOperands ∧ decode (.coded 0x4103 []) = .error .badOperands := by decide

/-- The sizes of the three regions add up to the file (rule R10), each region's first and last dword is as rule R27
says, and `config_address` names the first two (rule R61). -/
theorem test_registerRegion :
    Config.headerRegisters + Config.deviceRegisters + Config.extendedRegisters = Config.registerCount ∧
    Config.headerRegisters + Config.deviceRegisters = Config.guestRegisterCount ∧
    [0, 15, 16, 63, 64, 1023, 1024].map registerRegion =
      [some .header, some .header, some .deviceSpecific, some .deviceSpecific, some .extended, some .extended, none] := by
  decide

/-- Which bytes set the enable bit: bit 7 of lane 3 only. -/
theorem test_setsEnable :
    setsEnable (.cfgAddrWr8 3 0x80) = true ∧ setsEnable (.cfgAddrWr8 2 0x80) = false ∧
    setsEnable (.cfgAddrWr16 2 0 0x80) = true ∧ setsEnable (.rcSetAddr 1 [0, 0, 0x80]) = true ∧
    setsEnable (.rcSetAddr 3 [0x80, 0]) = false ∧ setsEnable (.rcSetAddr 4 []) = false := by decide

/-! ## Register accessors and constructors (vectors A1 to A20 and K1 to K5; `testFn` has A's `cs[1]`) -/

theorem test_csRd :
    csRead8 (testFn 0).cs 1 0 = some 0x07 ∧ csRead8 (testFn 0).cs 1 3 = some 0x02 ∧
    csRead8 (testFn 0).cs 1 4 = none ∧ csRead8 (testFn 0).cs 1024 0 = none ∧
    csRead16 (testFn 0).cs 1 0 = some 0x0007 ∧ csRead16 (testFn 0).cs 1 1 = some 0x0210 ∧
    csRead16 (testFn 0).cs 1 2 = none ∧ csRead32 (testFn 0).cs 1 = some 0x02100007 ∧
    csRead32 (testFn 0).cs 1023 = some 0 ∧ csRead32 (testFn 0).cs 1024 = none := by decide +kernel

/-- A5 and A6 on a function of the tree, a held one, and one inside a held device. -/
theorem test_csWr8 :
    regAfter (.csWr8 fnF 1 3 0xFF) s1 fnF 1 = some 0xFF100007 ∧
    regAfter (.csWr8 (.held 4) 1 4 0xFF) s1 (.held 4) 1 = some 0x02100007 ∧
    regAfter (.csWr8 (.inDev (.held 5) 0) 1 3 0xFF) s1 (.inDev (.held 5) 0) 1 = some 0xFF100007 := by decide +kernel

/-- A11, A12 and A13 on `cs[1]`. -/
theorem test_csWr16 :
    regAfter (.csWr16 fnF 1 0 0xBEEF) s1 fnF 1 = some 0x0210BEEF ∧
    regAfter (.csWr16 fnF 1 1 0xBEEF) s1 fnF 1 = some 0xBEEF0007 ∧
    regAfter (.csWr16 fnF 1 2 0xBEEF) s1 fnF 1 = some 0x02100007 := by decide +kernel

/-- A17 and A18: the extended region, and no read-only field. -/
theorem test_csWr32 :
    regAfter (.csWr32 fnF 64 0xCAFEBABE) s1 fnF 64 = some 0xCAFEBABE ∧
    regAfter (.csWr32 fnF 0 0xFFFFFFFF) s1 fnF 0 = some 0xFFFFFFFF := by decide +kernel

/-- K1: `cs[0]`, `cs[2]`, `cs[3]` and `cs[11]`; dword 11 is `ssid << 16 | ssvid`. -/
theorem test_fnNewT0 :
    let i := Instr.fnNewT0 8 0 0x1234 0x5678 0x02 0x00 0x00 0x01 0xAAAA 0xBBBB
    regAfter i s1 (.held 8) 0 = some 0x56781234 ∧ regAfter i s1 (.held 8) 2 = some 0x02000001 ∧
    regAfter i s1 (.held 8) 3 = some 0 ∧ regAfter i s1 (.held 8) 11 = some 0xBBBBAAAA := by decide +kernel

/-- K4: the header-type byte of a bridge is byte 2 of dword 3. -/
theorem test_fnNewT1 :
    let i := Instr.fnNewT1 8 0 0x1234 0x9ABC 0x06 0x04 0x00 0x00
    regAfter i s1 (.held 8) 0 = some 0x9ABC1234 ∧ regAfter i s1 (.held 8) 2 = some 0x06040000 ∧
    regAfter i s1 (.held 8) 3 = some 0x00010000 ∧ regAfter i s1 (.held 8) 7 = some 0 := by decide +kernel

/-! ## Devices (vectors V1 to V25; held device 5 is D) -/

theorem test_devRd :
    replyOf (.devRd (.held 5) 0 1) s1 = some (.dword (some 0x02100007)) ∧
    replyOf (.devRd (.held 5) 1 1) s1 = some (.dword none) ∧
    replyOf (.devRd (.held 5) 0 1024) s1 = some (.dword none) := by decide +kernel

/-- V4 to V9. -/
theorem test_devWr_one_two :
    regAfter (.csRd32 fnF 1) s1 fnF 1 = some 0x02100007 ∧
    regAfter (.devWr (.node ⟨none, [1]⟩ 2) 0 1 0 [0x06]) s1 fnF 1 = some 0x02100006 ∧
    regAfter (.devWr (.node ⟨none, [1]⟩ 2) 0 1 0 [0x34, 0x12]) s1 fnF 1 = some 0x02101234 ∧
    regAfter (.devWr (.node ⟨none, [1]⟩ 2) 0 1 2 [0x34, 0x12]) s1 fnF 1 = some 0x12340007 ∧
    regAfter (.devWr (.node ⟨none, [1]⟩ 2) 0 1 1 [0x34, 0x12]) s1 fnF 1 = some 0x02100007 ∧
    regAfter (.devWr (.node ⟨none, [1]⟩ 2) 0 1 3 [0xAA]) s1 fnF 1 = some 0xAA100007 ∧
    regAfter (.devWr (.node ⟨none, [1]⟩ 2) 0 1 3 [0xAA, 0xBB]) s1 fnF 1 = some 0x02100007 := by decide +kernel

/-- V10, V11, V13, V15 and V17. -/
theorem test_devWr_three_four :
    regAfter (.devWr (.node ⟨none, [1]⟩ 2) 0 1 0 [0x11, 0x22, 0x33]) s1 fnF 1 = some 0x02332211 ∧
    regAfter (.devWr (.node ⟨none, [1]⟩ 2) 0 1 1 [0x11, 0x22, 0x33]) s1 fnF 1 = some 0x33221107 ∧
    regAfter (.devWr (.node ⟨none, [1]⟩ 2) 0 1 0 [1, 2, 3, 4]) s1 fnF 1 = some 0x04030201 ∧
    regAfter (.devWr (.node ⟨none, [1]⟩ 2) 0 1 0 []) s1 fnF 1 = some 0x02100007 ∧
    regAfter (.devWr (.node ⟨none, [1]⟩ 2) 0 1 0 [1, 2, 3, 4, 5]) s1 fnF 1 = some 0x02100007 := by decide +kernel

/-- V24, G5, G6 and G7's order: function 9 is out of range before any slot is looked at. -/
theorem test_devAddFn :
    replyOf (.devAddFn (.held 5) (.held 4)) s1 = some .ok ∧
    replyOf (.devAddFn (.held 5) (.made 9 testBridge)) s1 = some (.error .invalidFunctionNumber) ∧
    replyOf (.devAddFn (.held 5) (.made 0 testBridge)) s1 = some (.error .functionSlotInUse) ∧
    (StructuralError.invalidFunctionNumber.code, StructuralError.functionSlotInUse.code) = (5, 6) := by decide +kernel

/-- V20 to V23. -/
theorem test_devGetFn_devRemoveFn :
    replyOf (.devGetFn (.held 5) 8) s1 = some (.function none) ∧
    regAfter (.devRemoveFn (.held 5) 0 8) s1 (.held 8) 1 = some 0x02100007 ∧
    replyOf (.devRemoveFn (.held 5) 5 8) s1 = some (.function none) := by decide +kernel

/-- V25, and the dummy's function 0 (rule R166). -/
theorem test_devNew : replyOf (.devNew 8 7) s1 = some (.device (some ⟨7, []⟩)) := by decide +kernel

/-! ## Buses (vectors B1 to B25) -/

/-- B1 to B5 (S1 holds bus 1 already). -/
theorem test_busAddBus :
    replyOf (.busAddBus ⟨none, []⟩ (.made 2)) s1 = some .ok ∧ replyOf (.busAddBus ⟨none, []⟩ (.made 0)) s1 = some .ok ∧
    replyOf (.busAddBus ⟨none, []⟩ (.made 1)) s1 = some (.error .busSlotInUse) ∧
    replyOf (.busAddBus ⟨none, []⟩ (.made 256)) s1 = some (.error .invalidBusNumber) ∧
    (StructuralError.invalidBusNumber.code, StructuralError.busSlotInUse.code) = (1, 2) := by decide +kernel

/-- B6 to B8, and G9: path [7] names no node. -/
theorem test_busAddDev :
    replyOf (.busAddDev ⟨none, []⟩ (.made 0)) s1 = some (.error .deviceSlotInUse) ∧
    replyOf (.busAddDev ⟨none, []⟩ (.made 32)) s1 = some (.error .invalidDeviceNumber) ∧
    replyOf (.busAddDev ⟨none, []⟩ (.made 31)) s1 = some .ok ∧ replyOf (.busAddDev ⟨none, [7]⟩ (.made 1)) s1 = none ∧
    (StructuralError.invalidDeviceNumber.code, StructuralError.deviceSlotInUse.code) = (3, 4) := by decide +kernel

/-- B10, B12 to B17, B20 and B21. -/
theorem test_busRd :
    replyOf (.busRd ⟨none, []⟩ 1 2 0 0) s1 = some (.dword (some 0x56781234)) ∧
    replyOf (.busRd ⟨none, []⟩ 0 0 0 0) s1 = some (.dword (some 0x22221111)) ∧
    replyOf (.busRd ⟨none, []⟩ 0 1 0 0) s1 = some (.dword none) ∧
    replyOf (.busRd ⟨none, []⟩ 1 2 0 64) s1 = some (.dword (some 0)) ∧
    replyOf (.busRd ⟨none, []⟩ 1 2 0 1024) s1 = some (.dword none) ∧
    replyOf (.busRd ⟨none, []⟩ 2 0 0 0) s1 = some (.dword none) ∧
    replyOf (.busRd ⟨none, [1]⟩ 2 0 0 0) s1 = some (.dword (some 0x56781234)) := by decide +kernel

/-- B18 and B19. -/
theorem test_busWr :
    regAfter (.busWr ⟨none, []⟩ 1 2 0 1 0 [0x08, 0x00]) s1 fnF 1 = some 0x02100008 ∧
    regAfter (.busWr ⟨none, []⟩ 5 2 0 1 0 [0x07]) s1 fnF 1 = some 0x02100007 := by decide +kernel

/-- B22 to B25: an absent slot, and a detached subtree that a name below the block no longer reaches. -/
theorem test_busGet_busRemove :
    replyOf (.busGetBus ⟨none, []⟩ 2) s1 = some (.bus none) ∧ replyOf (.busGetDev ⟨none, []⟩ 40) s1 = some (.device none) ∧
    regAfter (.busRemoveBus ⟨none, []⟩ 1 8) s1 fnF 1 = none ∧
    regAfter (.busRemoveBus ⟨none, []⟩ 1 8) s1 (.inDev (.node ⟨some 8, []⟩ 2) 0) 1 = some 0x02100007 ∧
    regAfter (.busRemoveDev ⟨none, [1]⟩ 2 8) s1 fnF 1 = none := by decide +kernel

/-! ## RootComplex (vectors C1 to C20) -/

theorem test_rcSetAddr :
    caAfter (.rcSetAddr 3 [0x80]) (s1At 0) = some 0x80000000 ∧
    caAfter (.rcSetAddr 0 [0x04, 0x10]) (s1At 0x80000000) = some 0x80001004 ∧
    caAfter (.rcSetAddr 2 [1, 2, 3]) (s1At 0x80001004) = some 0x80001004 ∧
    caAfter (.rcSetAddr 4 [0x01]) (s1At 0x80001004) = some 0x80001004 ∧
    caAfter (.rcSetAddr 1 [0xAA, 0xBB, 0xCC]) (s1At 0) = some 0xCCBBAA00 := by decide +kernel

theorem test_rcParseAddr :
    replyOf .rcParseAddr (s1At 0x80011004) = some (.coordinate ⟨1, 2, 0, 1⟩) ∧
    replyOf .rcParseAddr (s1At 0xFFFFFFFF) = some (.coordinate ⟨255, 31, 7, 63⟩) ∧
    replyOf .rcParseAddr (s1At 0x7F000003) = some (.coordinate ⟨0, 0, 0, 0⟩) ∧
    replyOf .rcParseAddr (s1At 0x00FFF8FC) = some (.coordinate ⟨255, 31, 0, 63⟩) := by decide +kernel

/-- C11 to C17. -/
theorem test_rcReadSpace :
    replyOf .rcReadSpace (s1At 0x00000000) = some (.space 0xFFFFFFFF) ∧
    replyOf .rcReadSpace (s1At 0x80000003) = some (.space 0x22221111) ∧
    replyOf .rcReadSpace (s1At 0xFF000000) = some (.space 0x22221111) ∧
    replyOf .rcReadSpace (s1At 0x80000008) = some (.space 0x06000001) ∧
    replyOf .rcReadSpace (s1At 0x80000100) = some (.space 0xFFFFFFFF) ∧
    replyOf .rcReadSpace (s1At 0x80FF0000) = some (.space 0xFFFFFFFF) := by decide +kernel

/-- C18 and C19. -/
theorem test_rcWriteSpace :
    regAfter (.rcWriteSpace 0 [1, 2, 3, 4]) (s1At 0x00000004) (.inDev (.node ⟨none, []⟩ 0) 0) 1 = some 0 ∧
    regAfter (.rcWriteSpace 0 [1, 2, 3, 4]) (s1At 0x80000004) (.inDev (.node ⟨none, []⟩ 0) 0) 1 = some 0x04030201 := by
  decide +kernel

/-! ## Port transactions (vectors P-R1 to P-R24 and P-W1 to P-W21; `s1` is their start state) -/

theorem test_cfgAddrRd :
    replyOf (.cfgAddrRd8 3) s1 = some (.bytes [0x80]) ∧ replyOf (.cfgAddrRd16 1) s1 = some (.bytes [0x10, 0x01]) ∧
    replyOf (.cfgAddrRd24 1) s1 = some (.bytes [0x10, 0x01, 0x80]) ∧
    replyOf .cfgAddrRd32 s1 = some (.bytes [0x04, 0x10, 0x01, 0x80]) := by decide +kernel

theorem test_cfgDataRd :
    replyOf (.cfgDataRd8 2) s1 = some (.bytes [0x10]) ∧ replyOf (.cfgDataRd16 1) s1 = some (.bytes [0x00, 0x10]) ∧
    replyOf (.cfgDataRd24 1) s1 = some (.bytes [0x00, 0x10, 0x02]) ∧
    replyOf .cfgDataRd32 s1 = some (.bytes [0x07, 0x00, 0x10, 0x02]) := by decide +kernel

theorem test_cfgAddrWr :
    caAfter (.cfgAddrWr8 3 0x00) s1 = some 0x00011004 ∧ caAfter (.cfgAddrWr16 1 0x08 0x02) s1 = some 0x80020804 ∧
    caAfter (.cfgAddrWr24 1 0x00 0x01 0x80) s1 = some 0x80010004 ∧
    caAfter (.cfgAddrWr32 0xCD 0xAB 0x00 0x7F) s1 = some 0x7F00ABCD := by decide +kernel

theorem test_cfgDataWr :
    regAfter (.cfgDataWr8 3 0x00) s1 fnF 1 = some 0x00100007 ∧
    regAfter (.cfgDataWr16 2 0x34 0x12) s1 fnF 1 = some 0x12340007 ∧
    regAfter (.cfgDataWr16 1 0x34 0x12) s1 fnF 1 = some 0x02100007 ∧
    regAfter (.cfgDataWr24 1 0x11 0x22 0x33) s1 fnF 1 = some 0x33221107 ∧
    regAfter (.cfgDataWr32 0xEF 0xBE 0xAD 0xDE) s1 fnF 1 = some 0xDEADBEEF := by decide +kernel

theorem test_portBad :
    replyOf (.portRdBad 3 2) s1 = some (.bytes [0xFF, 0xFF]) ∧ replyOf (.portRdBad 4 0) s1 = some (.bytes []) ∧
    caAfter (.portWrBad 1 [0x78, 0x56, 0x34, 0x12]) s1 = some 0x80011004 := by decide +kernel

/-! ## A concrete input for every statement with hypotheses

Each theorem is named after its statement and meets all the hypotheses of each of its clauses together, at a boundary
of the clause's range where it has one. -/

/-- `s1` with one operation presented. -/
def s1Presented (op : Op) : State := { s1 with pending := [⟨.guest 0, op⟩] }

theorem witness_DecodeOfEncode :
    (Instr.portRdBad 3 2).wellFormed = true ∧ (Instr.csWr8 fnF 1023 3 0xFF).wellFormed = true := by decide

theorem witness_DecodedOperationsAreCanonical :
    (decode (.coded 0x4103 [0x80]) = .ok (.cfgAddrWr8 3 0x80)) ∧ decode (.read 256 1) = .ok (.portRdBad 256 1) := by decide

theorem witness_DecoderTakesFirstMatchingRow :
    decode (.coded 0x0203 []) = .ok (.portRdBad 3 2) ∧ rowOf 0xC000 = none ∧
    rowOf 0x0203 = some ⟨"PORT_RD_BAD", 0x0000, 0xF000, 3⟩ := by decide

theorem witness_StepPerformsDecodedOperation :
    (s1Presented (.coded 0x0404 [])).pending = [⟨.guest 0, .coded 0x0404 []⟩] ∧
    decode (.coded 0x0404 []) = .ok .cfgDataRd32 := ⟨rfl, rfl⟩

theorem witness_StepWithoutOperation :
    s1.pending = [] ∧ (s1Presented (.coded 0xC000 [])).pending = [⟨.guest 0, .coded 0xC000 []⟩] ∧
    decode (.coded 0xC000 []) = .error .reservedClass := ⟨rfl, rfl, rfl⟩

theorem witness_EveryPortTransactionHasAResult :
    (s1Presented (.read 7 2)).pending = [⟨.guest 0, .read 7 2⟩] ∧
    (s1Presented (.write 0 [1, 2, 3, 4])).pending = [⟨.guest 0, .write 0 [1, 2, 3, 4]⟩] := ⟨rfl, rfl⟩

theorem witness_SpansWithoutDescriptorAreMalformed :
    (256 ≤ 256 ∨ 16 ≤ 1) ∧ (256 ≤ 0 ∨ 16 ≤ (List.replicate 16 (0 : Byte)).length) := by decide

theorem witness_ResetRegistersOfHostBridge : 0 < 1024 ∧ 11 < 1024 ∧ 1023 < 1024 := by decide

theorem witness_StepKeepsTreeInvariant :
    stateWf (s1Presented (.coded 0x8031 [0, 0, 0, 31])) = true ∧
    ∃ t, step (s1Presented (.coded 0x8031 [0, 0, 0, 31])) = .next t := ⟨by decide +kernel, _, rfl⟩

theorem witness_DataWindowIsClosedAfterReset :
    State.reset.ca.getLsbD 31 = false ∧ (∃ s, execAll [.cfgAddrWr8 3 0x7F, .rcNew, .cfgDataRd32] State.reset = .next s) ∧
    (∀ i ∈ [Instr.cfgAddrWr8 3 0x7F, .rcNew, .cfgDataRd32], setsEnable i = false) ∧
    wellShaped 4 4 = true ∧ wellShaped 7 1 = true ∧ 4 ≤ 4 :=
  ⟨by decide, ⟨_, rfl⟩, by decide, by decide, by decide, by decide⟩

/-- Both sides of the window, at its edges. -/
theorem witness_GuestWritesMeetThePortContract : 3 < 4 ∧ 4 ≤ 4 := by decide

/-- The three ways to the value of the selected dword: present, absent, disabled. -/
theorem witness_DataReadsReturnTheLanesOfTheSelectedRegister :
    (s1.ca.getLsbD 31 = true ∧ regAt s1 (guestTarget s1) 1 = some 0x02100007) ∧
    ((s1At 0x80FF0000).ca.getLsbD 31 = true ∧ regAt (s1At 0x80FF0000) (guestTarget (s1At 0x80FF0000)) 0 = none) ∧
    (s1At 0x7FFFFFFF).ca.getLsbD 31 = false := by decide +kernel

theorem witness_AddressWritesSetTheLanesOfCA :
    3 + ([0x80] : List Byte).length ≤ 4 ∧ 2 + ([1, 2, 3] : List Byte).length > 4 := by decide

/-- Each clause: the write takes; disabled; absent; past the register; two bytes at an odd offset. -/
theorem witness_DataWritesSetTheLanesOfTheSelectedRegister :
    (s1.ca.getLsbD 31 = true ∧ 0 + 4 ≤ 4 ∧ ¬ (4 = 2 ∧ 0 % 2 = 1) ∧
      regAt s1 (guestTarget s1) (s1.ca.extractLsb' 2 6).toNat = some 0x02100007) ∧
    (s1At 0).ca.getLsbD 31 = false ∧ regAt (s1At 0x80FF0000) (guestTarget (s1At 0x80FF0000)) 0 = none ∧
    3 + ([1, 2] : List Byte).length > 4 ∧ (([1, 2] : List Byte).length = 2 ∧ 1 % 2 = 1) := by decide +kernel

theorem witness_DisabledDataWindow :
    (s1At 0x7FFFFFFF).ca.getLsbD 31 = false ∧ wellShaped 4 4 = true ∧ wellShaped 5 2 = true ∧ 4 ≤ 5 := by decide +kernel

theorem witness_DisabledMechanismIsInert : (s1At 0x7FFFFFFF).ca.getLsbD 31 = false := by decide +kernel

theorem witness_AddressReadsBack :
    ∃ t u, exec (.cfgAddrWr32 0xCD 0xAB 0x00 0x7F) s1 = .next t ∧
      (∀ i ∈ [Instr.cfgDataRd32, .busNew 7 3], writesAddress i = false) ∧
      execAll [.cfgDataRd32, .busNew 7 3] t = .next u := ⟨_, _, rfl, by decide, rfl⟩

theorem witness_InterleavedAddressWriteRedirectsTheDataAccess :
    { s1 with pending := [⟨.guest 0, .write 0 [0x00, 0x00, 0x00, 0x80]⟩, ⟨.guest 1, .write 0 [0x04, 0x10, 0x01, 0x80]⟩,
      ⟨.guest 0, .read 4 4⟩] }.pending = ⟨.guest 0, .write 0 [0x00, 0x00, 0x00, 0x80]⟩ ::
        ⟨.guest 1, .write 0 [0x04, 0x10, 0x01, 0x80]⟩ :: ⟨.guest 0, .read 4 4⟩ :: [] := rfl

/-- A bus without devices and one with a device that has no function: different trees, the same reads. -/
theorem witness_GuestReadsCannotTellAbsentFromAllOnes :
    let s := setRoot s1 ⟨0, .nil, []⟩
    let t := setRoot s1 ⟨0, .nil, [newDevice 3]⟩
    s.ca = t.ca ∧ s.root ≠ t.root ∧ ∀ b d f r, b < 256 → d < 32 → f < 8 → r < 64 →
      (busRead s.root b d f r).getD allOnes = (busRead t.root b d f r).getD allOnes := by
  refine ⟨rfl, by decide, fun b d f r _ _ _ _ => ?_⟩
  have h : busChild ⟨0, .nil, [newDevice 3]⟩ b = none := rfl
  have h' : busChild ⟨0, .nil, []⟩ b = none := rfl
  have e : localRegister ⟨0, .nil, [newDevice 3]⟩ d f r = none := by
    by_cases hd : 3 = d <;> simp [localRegister, busDevice, mapFind, newDevice, hd, deviceRead, deviceFn]
  simp only [setRoot_root, busRead_eq, h, h', e]
  rfl

theorem witness_OnlyAddressWritesChangeCA :
    ∃ t, exec (.cfgAddrWr8 3 0x00) s1 = .next t ∧ t.ca ≠ s1.ca := ⟨_, rfl, by decide⟩

theorem witness_ReadsChangeNothing :
    onlyReads (.busRd ⟨none, []⟩ 1 2 0 0) = true ∧ ∃ t, exec (.busRd ⟨none, []⟩ 1 2 0 0) s1 = .next t :=
  ⟨rfl, _, rfl⟩

theorem witness_OnlyTopologyOperationsChangeTopology :
    changesTopology (.cfgDataWr8 3 0) = false ∧ ∃ t, exec (.cfgDataWr8 3 0) s1 = .next t := ⟨rfl, _, rfl⟩

theorem witness_GuestsReachOnlyTheLegacyRegisters :
    (Instr.cfgDataWr32 1 2 3 4).isGuest = true ∧ (∃ t, exec (.cfgDataWr32 1 2 3 4) s1 = .next t) ∧ 64 ≤ 64 :=
  ⟨rfl, ⟨_, rfl⟩, by decide⟩

/-- Guest 0 exists whatever `N_GUEST` is, since it is at least 1. -/
theorem witness_LegalGuestStepsAreConfined :
    (s1Presented (.write 4 [1, 2, 3, 4])).pending = [⟨.guest 0, .write 4 [1, 2, 3, 4]⟩] ∧
    requestLegal ⟨.guest 0, .write 4 [1, 2, 3, 4]⟩ = true :=
  ⟨rfl, by simp [requestLegal, decode, guestWrite, mayIssue, Config.guestCount, Instr.isGuest]⟩

theorem witness_StructuralErrorsChangeNothing :
    ∃ t, exec (.busAddBus ⟨none, []⟩ (.made 256)) s1 = .next t ∧ t.reply = .error .invalidBusNumber := ⟨_, rfl, rfl⟩

theorem witness_OnlyAddsRaiseErrors :
    ∃ t, exec (.devAddFn (.held 5) (.made 0 testBridge)) s1 = .next t ∧ t.reply = .error .functionSlotInUse :=
  ⟨_, rfl, rfl⟩

theorem witness_OperationsAreRefusedExactlyForMissingNodes :
    namesNodes s1 (.busAddDev ⟨none, [7]⟩ (.made 1)) = false ∧ namesNodes s1 (.busAddDev ⟨none, [1]⟩ (.held 5)) = true ∧
    namesNodes s1 (.devRd (.held 4) 0 0) = false ∧ namesNodes s1 (.busAddBus ⟨some 6, []⟩ (.held 6)) = false := by
  decide +kernel

/-- Each of the six checks at its boundary: numbers 256, 32 and 8, and taken slots 1, 0 and 0. -/
theorem witness_AddChecksNumberThenSlot :
    (∃ C B, srcBus s1 (.made 256) = some C ∧ busAt (useBus s1 (.made 256)) ⟨none, []⟩ = some B ∧ 256 ≤ C.number) ∧
    (∃ C B, srcBus s1 (.made 1) = some C ∧ busAt (useBus s1 (.made 1)) ⟨none, []⟩ = some B ∧ C.number < 256 ∧
      (busChild B C.number).isSome = true) ∧
    (∃ B D, busAt s1 ⟨none, []⟩ = some B ∧ srcDev s1 (.made 32) = some D ∧ 32 ≤ D.number) ∧
    (∃ B D, busAt fullBus ⟨none, []⟩ = some B ∧ srcDev fullBus (.made 31) = some D ∧ D.number < 32 ∧
      (busDevice B D.number).isSome = true) ∧
    (∃ D F, devAt s1 (.held 5) = some D ∧ srcFn s1 (.made 8 testBridge) = some F ∧ 8 ≤ F.number) ∧
    (∃ D F, devAt s1 (.held 5) = some D ∧ srcFn s1 (.made 0 testBridge) = some F ∧ F.number < 8 ∧
      (deviceFn D F.number).isSome = true) :=
  ⟨⟨_, _, rfl, rfl, by decide⟩, ⟨_, _, rfl, rfl, by decide, rfl⟩, ⟨_, _, rfl, rfl, by decide⟩,
    ⟨_, _, rfl, rfl, by decide, rfl⟩, ⟨_, _, rfl, rfl, by decide⟩, ⟨_, _, rfl, rfl, by decide, rfl⟩⟩

/-- A function in the tree, a held one, and one inside a held device. -/
theorem witness_RegisterReads :
    (∃ F, fnAt s1 fnF = some F) ∧ (∃ F, fnAt s1 (.held 4) = some F) ∧ ∃ F, fnAt s1 (.inDev (.held 5) 0) = some F :=
  ⟨⟨_, rfl⟩, ⟨_, rfl⟩, _, rfl⟩

theorem witness_RegisterWrites :
    (∃ F, fnAt s1 fnF = some F) ∧ (∃ F, fnAt s1 (.held 4) = some F) ∧ ∃ F, fnAt s1 (.inDev (.held 5) 0) = some F :=
  ⟨⟨_, rfl⟩, ⟨_, rfl⟩, _, rfl⟩

theorem witness_ByteWriteRoundTrip :
    1023 < 1024 ∧ 3 < 4 ∧ (∃ t, exec (.csWr8 fnF 1023 3 0x5E) s1 = .next t) ∧ 0 < 4 ∧ 0 ≠ 3 ∧
    ∃ v, exec (.csRd8 fnF 1023 0) s1 = .next (answer s1 (.byte v)) :=
  ⟨by decide, by decide, ⟨_, rfl⟩, by decide, by decide, _, rfl⟩

theorem witness_OutOfBoundsAccessesAreInert :
    (∃ F, fnAt s1 fnF = some F) ∧ 1024 ≤ 1024 ∧
    (∃ o b, Instr.csWr8 fnF 1024 0 0xFF = .csWr8 fnF 1024 o b) := ⟨⟨_, rfl⟩, by decide, _, _, rfl⟩

theorem witness_FourByteWritesCompose :
    (∃ F, fnAt s1 fnF = some F) ∧ 1023 < 1024 ∧ [3, 0, 2, 1].Perm [0, 1, 2, 3] := ⟨⟨_, rfl⟩, by decide, by decide⟩

theorem witness_WidthsAreConsistent :
    (∃ F, fnAt s1 fnF = some F) ∧ 1 < 1024 ∧ 1 < 2 ∧ (∃ t, exec (.csWr16 fnF 1 1 0x1234) s1 = .next t) ∧
    ∃ t, execAll [.csWr8 fnF 1 2 0x34, .csWr8 fnF 1 3 0x12] s1 = .next t :=
  ⟨⟨_, rfl⟩, by decide, by decide, ⟨_, rfl⟩, _, rfl⟩

/-- A held function and a constructed one. -/
theorem witness_AddFunctionFillsTheSlot :
    (∃ D F, devAt s1 (.held 5) = some D ∧ srcFn s1 (.held 4) = some F ∧ F.number < 8 ∧ deviceFn D F.number = none) ∧
    ∃ D F, devAt s1 (.node ⟨none, [1]⟩ 2) = some D ∧ srcFn s1 (.made 7 testBridge) = some F ∧ F.number < 8 ∧
      deviceFn D F.number = none :=
  ⟨⟨_, _, rfl, rfl, by decide, rfl⟩, _, _, rfl, rfl, by decide, rfl⟩

theorem witness_RemoveFunctionEmptiesTheSlot :
    ∃ D, devAt s1 (.node ⟨none, [1]⟩ 2) = some D ∧ deviceFn D 7 = none ∧ ∃ F, deviceFn D 0 = some F :=
  ⟨_, rfl, rfl, _, rfl⟩

theorem witness_RemovedFunctionSlotIsFree :
    stateWf s1 = true ∧ ∃ t F F', exec (.devRemoveFn (.held 5) 0 8) s1 = .next t ∧ t.reply = .function (some F) ∧
      srcFn t (.held 8) = some F' ∧ F'.number = 0 := ⟨by decide +kernel, _, _, _, rfl, rfl, rfl, rfl⟩

theorem witness_DeviceReadReturnsTheRegister : ∃ D, devAt s1 (.held 5) = some D := ⟨_, rfl⟩

/-- Each clause: no function 7; function 0 with a write that takes, one past the register, one at an odd offset and
one past the file. -/
theorem witness_DeviceWriteSetsTheLanes :
    (∃ D F v, devAt s1 (.held 5) = some D ∧ deviceFn D 7 = none ∧ deviceFn D 0 = some F ∧
      csRead32 F.cs 1 = some v) ∧
    0 + ([1, 2, 3, 4] : List Byte).length ≤ 4 ∧ 3 + ([1, 2] : List Byte).length > 4 ∧
    (([1, 2] : List Byte).length = 2 ∧ 1 % 2 = 1) ∧ 1024 ≤ 1024 :=
  ⟨⟨_, _, _, rfl, rfl, rfl, rfl⟩, by decide, by decide, by decide, by decide⟩

theorem witness_LookupsReturnTheNamedNode :
    (∃ B, busAt s1 ⟨none, [1]⟩ = some B) ∧ (∃ D, devAt s1 (.node ⟨none, [1]⟩ 2) = some D) ∧
    ∃ D, devAt s1 (.held 5) = some D := ⟨⟨_, rfl⟩, ⟨_, rfl⟩, _, rfl⟩

theorem witness_AddDeviceFillsTheSlot :
    (∃ B D, busAt s1 ⟨none, []⟩ = some B ∧ srcDev s1 (.held 5) = some D ∧ D.number < 32 ∧
      busDevice B D.number = none) ∧
    ∃ B D, busAt s1 ⟨some 6, []⟩ = some B ∧ srcDev s1 (.made 31) = some D ∧ D.number < 32 ∧
      busDevice B D.number = none := ⟨⟨_, _, rfl, rfl, by decide, rfl⟩, _, _, rfl, rfl, by decide, rfl⟩

theorem witness_AddBusFillsTheSlot :
    (∃ B C, srcBus s1 (.held 6) = some C ∧ busAt (useBus s1 (.held 6)) ⟨none, [1]⟩ = some B ∧ C.number < 256 ∧
      busChild B C.number = none) ∧
    ∃ B C, srcBus s1 (.made 255) = some C ∧ busAt (useBus s1 (.made 255)) ⟨some 6, []⟩ = some B ∧ C.number < 256 ∧
      busChild B C.number = none := ⟨⟨_, _, rfl, rfl, by decide, rfl⟩, _, _, rfl, rfl, by decide, rfl⟩

theorem witness_RemoveDeviceEmptiesTheSlot :
    ∃ B D, busAt s1 ⟨none, [1]⟩ = some B ∧ busDevice B 31 = none ∧ busDevice B 2 = some D := ⟨_, _, rfl, rfl, rfl⟩

theorem witness_RemoveBusEmptiesTheSlot :
    ∃ B C, busAt s1 ⟨none, []⟩ = some B ∧ busChild B 255 = none ∧ busChild B 1 = some C ∧
      (none : Option Nat) ≠ some 6 := ⟨_, _, rfl, rfl, rfl, by decide⟩

theorem witness_BusReadResolvesWithinOneLevel : ∃ B, busAt s1 ⟨none, [1]⟩ = some B := ⟨_, rfl⟩

/-- Each clause: a target that is absent, a dropped shape, and a write that takes. -/
theorem witness_BusWriteResolvesWithinOneLevel :
    (∃ B v, busAt s1 ⟨none, []⟩ = some B ∧ regAt s1 (.inDev (.node (below ⟨none, []⟩ 1) 2) 0) 1 = some v ∧
      regAt s1 (.inDev (.node (below ⟨none, []⟩ 2) 0) 0) 1 = none) ∧
    0 + ([7, 0] : List Byte).length ≤ 4 ∧ ¬ (([7, 0] : List Byte).length = 2 ∧ 0 % 2 = 1) :=
  ⟨⟨_, _, rfl, rfl, rfl⟩, by decide, by decide⟩

theorem witness_RoutingThroughAParentEqualsRoutingAtTheChild :
    ∃ B C, busAt s1 ⟨none, []⟩ = some B ∧ busChild B 1 = some C ∧ 1 ≠ B.number := ⟨_, _, rfl, rfl, by decide⟩

/-- A child numbered 0 goes under Bus 0; a host write and a guest write at bus 0. -/
theorem witness_ShadowedChildIsNeverReached :
    (∃ B C t, busAt s1 ⟨none, []⟩ = some B ∧ srcBus s1 (.made 0) = some C ∧ C.number = B.number ∧
      exec (.busAddBus ⟨none, []⟩ (.made 0)) s1 = .next t ∧ t.reply = .ok) ∧
    (∃ B t, busAt s1 ⟨none, []⟩ = some B ∧ exec (.busWr ⟨none, []⟩ 0 0 0 1 0 [7]) s1 = .next t) ∧
    ∃ t, exec (guestWrite 4 [7]) (s1At 0x80000004) = .next t :=
  ⟨⟨_, _, _, rfl, rfl, rfl, rfl, rfl⟩, ⟨_, _, rfl, rfl⟩, _, rfl⟩

/-- Bus 2 stands below bus 1. -/
theorem witness_GuestsReachOnlyBusZeroAndItsChildren :
    caBus (s1At 0x80020000).ca ≠ (s1At 0x80020000).root.number ∧
    busAt (s1At 0x80020000) ⟨none, [caBus (s1At 0x80020000).ca]⟩ = none ∧ wellShaped 7 1 = true ∧ 4 ≤ 7 :=
  ⟨by decide, rfl, by decide, by decide⟩

/-- Each clause: an empty bus, a full bus with another device, and a device to remove. -/
theorem witness_BusHoldsAtMost32Devices :
    (stateWf emptyBus = true ∧ ∃ B, busAt emptyBus ⟨none, []⟩ = some B ∧ B.devices = []) ∧
    (stateWf fullBus = true ∧ ∃ B D E, busAt fullBus ⟨none, []⟩ = some B ∧ B.devices.length = 32 ∧
      srcDev fullBus (.made 31) = some D ∧ busDevice B 31 = some E) :=
  ⟨⟨by decide +kernel, _, rfl, rfl⟩, by decide +kernel, _, _, _, rfl, by decide, rfl, rfl⟩

end Sys2Proof.Machine
end

section
/-! PROOFS. What one operation can do to the state, said once (`Effect`, `exec_effect`): the invariant of the tree
(rule R28), the frame of `CA` (rule R216) and of the topology (rule R30) are read off it, and a run of operations
keeps what each of them keeps. -/

namespace Sys2Proof.Machine

/-! ## Which fields the updates of nodes leave alone -/

@[simp] theorem updateDev_ca (s : State) (t : DevRef) (g : Device → Device) : (updateDev s t g).ca = s.ca := by
  cases t with
  | node p d => exact updateBus_ca s p _
  | held h => rfl

@[simp] theorem updateFn_ca (s : State) (t : FnRef) (g : Function → Function) : (updateFn s t g).ca = s.ca := by
  cases t with
  | inDev u f => exact updateDev_ca s u _
  | held h => rfl

@[simp] theorem useFn_ca (s : State) (src : FnSrc) : (useFn s src).ca = s.ca := by cases src <;> rfl
@[simp] theorem useDev_ca (s : State) (src : DevSrc) : (useDev s src).ca = s.ca := by cases src <;> rfl
@[simp] theorem useBus_ca (s : State) (src : BusSrc) : (useBus s src).ca = s.ca := by cases src <;> rfl
@[simp] theorem holdFn_ca (s : State) (h : Nat) (F : Function) : (holdFn s h F).ca = s.ca := rfl
@[simp] theorem holdDev_ca (s : State) (h : Nat) (D : Device) : (holdDev s h D).ca = s.ca := rfl
@[simp] theorem holdBus_ca (s : State) (h : Nat) (B : Bus) : (holdBus s h B).ca = s.ca := rfl

/-! ## What one operation can do -/

/-- The states an operation can leave, apart from its reply: the operation changed nothing, wrote `CA`, wrote one
register file, or made one of the changes of topology (rules R30, R38 and R218). -/
inductive Effect (s : State) : Instr → State → Prop where
  | nothing {i : Instr} : Effect s i s
  | address {i : Instr} (v : Dword) (hi : writesAddress i = true) : Effect s i (setCa s v)
  | registers {i : Instr} (u : FnRef) (k : ConfigSpace → ConfigSpace) (hi : onlyReads i = false) :
    Effect s i (updateFn s u (fun F => withSpace F (k F.cs)))
  | restart : Effect s .rcNew (setRoot (setCa s Config.configAddressReset) (rootWith Config.hostBridgeArgs))
  | newFn {i : Instr} (dst : Nat) (F : Function) (hi : changesTopology i = true) : Effect s i (holdFn s dst F)
  | newDev {i : Instr} (dst : Nat) {D : Device} (hD : deviceWf D = true) (hi : changesTopology i = true) :
    Effect s i (holdDev s dst D)
  | newBus (dst n : Nat) : Effect s (.busNew dst n) (holdBus s dst (newBus n))
  | addFn (t : DevRef) (src : FnSrc) {D : Device} {F : Function} (hD : devAt s t = some D)
    (hF : srcFn s src = some F) (hn : F.number < Config.maxFunctionNumber) (hfree : deviceFn D F.number = none) :
    Effect s (.devAddFn t src) (useFn (updateDev s t (fun D => deviceInsertFn D F)) src)
  | addDev (p : BusRef) (src : DevSrc) {B : Bus} {D : Device} (hB : busAt s p = some B)
    (hD : srcDev s src = some D) (hn : D.number < Config.maxDeviceNumber) (hfree : busDevice B D.number = none) :
    Effect s (.busAddDev p src) (useDev (updateBus s p (fun B => busInsertDev B D)) src)
  | addBus (p : BusRef) (src : BusSrc) {B C : Bus} (hB : busAt (useBus s src) p = some B)
    (hC : srcBus s src = some C) (hn : C.number < Config.maxBusNumber) (hfree : busChild B C.number = none) :
    Effect s (.busAddBus p src) (updateBus (useBus s src) p (fun B => busInsertBus B C))
  | removeFn (t : DevRef) (f dst : Nat) {D : Device} {F : Function} (hD : devAt s t = some D)
    (hF : deviceFn D f = some F) :
    Effect s (.devRemoveFn t f dst) (holdFn (updateDev s t (fun D => deviceEraseFn D f)) dst F)
  | removeDev (p : BusRef) (d dst : Nat) {B : Bus} {D : Device} (hB : busAt s p = some B)
    (hD : busDevice B d = some D) :
    Effect s (.busRemoveDev p d dst) (holdDev (updateBus s p (fun B => busEraseDev B d)) dst D)
  | removeBus (p : BusRef) (b dst : Nat) {B C : Bus} (hB : busAt s p = some B) (hC : busChild B b = some C) :
    Effect s (.busRemoveBus p b dst) (holdBus (updateBus s p (fun B => busEraseBus B b)) dst C)

/-- RC_SET_ADDR as an effect of each operation that calls it. -/
theorem Effect.setAddress (s : State) {i : Instr} (o : Nat) (data : List Byte) (hi : writesAddress i = true) :
    Effect s i (setAddress s o data) := by
  obtain ⟨v, hv⟩ := setAddress_eq s o data
  exact hv ▸ .address v hi

/-- RC_WRITE_SPACE as an effect of each operation that calls it: one register file is written, or none. -/
theorem Effect.writeSpace (s : State) {i : Instr} (o : Nat) (data : List Byte) (hi : onlyReads i = false) :
    Effect s i (writeSpace s o data) := by
  rw [writeSpace_eq]
  split
  · exact .registers (guestTarget s) (fun cs => csWriteData cs (caRegister s.ca) o data) hi
  · exact .nothing

/-- BUS_WR as an effect: it writes the register file of the function that its coordinate routes to. -/
theorem Effect.busWrite {s : State} {p : BusRef} {B : Bus} (hB : busAt s p = some B) {i : Instr}
    (b d f r o : Nat) (data : List Byte) (hi : onlyReads i = false) :
    Effect s i (updateBus s p (fun B => busWrite B b d f r o data)) := by
  rw [updateBus_busWrite s p B hB]
  exact .registers _ (fun cs => csWriteData cs r o data) hi

/-- The two checks of an add (rule R275): an error changes nothing, and past both checks the add is done. -/
theorem checkedAdd_eq_next {α : Type} {number bound : Nat} {slot : Option α} {s v t : State} {e₁ e₂ : StructuralError}
    (h : (if number ≥ bound then raise s e₁ else if slot.isSome then raise s e₂ else .next (answer v .ok)) = .next t) :
    (∃ e, t = answer s (.error e)) ∨ (number < bound ∧ slot = none ∧ t = answer v .ok) := by
  split at h
  · cases h; exact .inl ⟨e₁, rfl⟩
  next hnumber =>
    split at h
    · cases h; exact .inl ⟨e₂, rfl⟩
    next hslot =>
      cases h
      exact .inr ⟨not_le.1 hnumber, Option.not_isSome_iff_eq_none.1 hslot, rfl⟩

theorem effect_of_devAddFn {s t : State} {u : DevRef} {src : FnSrc} (h : execDevAddFn u src s = .next t) :
    ∃ v, t = answer v t.reply ∧ Effect s (.devAddFn u src) v := by
  obtain ⟨D, hD, h⟩ := onNode_eq_next.1 h
  obtain ⟨F, hF, h⟩ := onNode_eq_next.1 h
  obtain ⟨e, rfl⟩ | ⟨hn, hfree, rfl⟩ := checkedAdd_eq_next h
  · exact ⟨s, rfl, .nothing⟩
  · exact ⟨_, rfl, .addFn u src hD hF hn hfree⟩

theorem effect_of_busAddDev {s t : State} {p : BusRef} {src : DevSrc} (h : execBusAddDev p src s = .next t) :
    ∃ v, t = answer v t.reply ∧ Effect s (.busAddDev p src) v := by
  obtain ⟨B, hB, h⟩ := onNode_eq_next.1 h
  obtain ⟨D, hD, h⟩ := onNode_eq_next.1 h
  obtain ⟨e, rfl⟩ | ⟨hn, hfree, rfl⟩ := checkedAdd_eq_next h
  · exact ⟨s, rfl, .nothing⟩
  · exact ⟨_, rfl, .addDev p src hB hD hn hfree⟩

theorem effect_of_busAddBus {s t : State} {p : BusRef} {src : BusSrc} (h : execBusAddBus p src s = .next t) :
    ∃ v, t = answer v t.reply ∧ Effect s (.busAddBus p src) v := by
  obtain ⟨C, hC, h⟩ := onNode_eq_next.1 h
  obtain ⟨B, hB, h⟩ := onNode_eq_next.1 h
  obtain ⟨e, rfl⟩ | ⟨hn, hfree, rfl⟩ := checkedAdd_eq_next h
  · exact ⟨s, rfl, .nothing⟩
  · exact ⟨_, rfl, .addBus p src hB hC hn hfree⟩

theorem effect_of_devRemoveFn {s t : State} {u : DevRef} {f dst : Nat} (h : execDevRemoveFn u f dst s = .next t) :
    ∃ v, t = answer v t.reply ∧ Effect s (.devRemoveFn u f dst) v := by
  obtain ⟨D, hD, h⟩ := onNode_eq_next.1 h
  split at h
  · cases h; exact ⟨s, rfl, .nothing⟩
  · next F hF => cases h; exact ⟨_, rfl, .removeFn u f dst hD hF⟩

theorem effect_of_busRemoveDev {s t : State} {p : BusRef} {d dst : Nat} (h : execBusRemoveDev p d dst s = .next t) :
    ∃ v, t = answer v t.reply ∧ Effect s (.busRemoveDev p d dst) v := by
  obtain ⟨B, hB, h⟩ := onNode_eq_next.1 h
  split at h
  · cases h; exact ⟨s, rfl, .nothing⟩
  · next D hD => cases h; exact ⟨_, rfl, .removeDev p d dst hB hD⟩

theorem effect_of_busRemoveBus {s t : State} {p : BusRef} {b dst : Nat} (h : execBusRemoveBus p b dst s = .next t) :
    ∃ v, t = answer v t.reply ∧ Effect s (.busRemoveBus p b dst) v := by
  obtain ⟨B, hB, h⟩ := onNode_eq_next.1 h
  split at h
  · cases h; exact ⟨s, rfl, .nothing⟩
  · next C hC => cases h; exact ⟨_, rfl, .removeBus p b dst hB hC⟩

/-- An operation that completes leaves one of the states of `Effect`, with its reply. -/
theorem exec_effect {i : Instr} {s t : State} (h : exec i s = .next t) :
    ∃ v, t = answer v t.reply ∧ Effect s i v := by
  cases i with
  | cfgAddrRd8 | cfgAddrRd16 | cfgAddrRd24 | cfgAddrRd32 | cfgDataRd8 | cfgDataRd16 | cfgDataRd24 | cfgDataRd32
  | portRdBad | portWrBad | rcParseAddr | rcReadSpace =>
    cases h; exact ⟨s, rfl, .nothing⟩
  | cfgAddrWr8 | cfgAddrWr16 | cfgAddrWr24 | cfgAddrWr32 | rcSetAddr =>
    cases h; exact ⟨_, rfl, .setAddress s _ _ rfl⟩
  | cfgDataWr8 | cfgDataWr16 | cfgDataWr24 | cfgDataWr32 | rcWriteSpace =>
    cases h; exact ⟨_, rfl, .writeSpace s _ _ rfl⟩
  | csRd8 | csRd16 | csRd32 | devGetFn | devRd | busGetBus | busGetDev | busRd =>
    obtain ⟨_, -, h⟩ := onNode_eq_next.1 h
    cases h; exact ⟨s, rfl, .nothing⟩
  | csWr8 u r o v =>
    obtain ⟨_, -, h⟩ := onNode_eq_next.1 h
    cases h; exact ⟨_, rfl, .registers u (fun cs => csWrite8 cs r o v) rfl⟩
  | csWr16 u r o v =>
    obtain ⟨_, -, h⟩ := onNode_eq_next.1 h
    cases h; exact ⟨_, rfl, .registers u (fun cs => csWrite16 cs r o v) rfl⟩
  | csWr32 u r v =>
    obtain ⟨_, -, h⟩ := onNode_eq_next.1 h
    cases h; exact ⟨_, rfl, .registers u (fun cs => csWrite32 cs r v) rfl⟩
  | devWr u f r o data =>
    obtain ⟨_, -, h⟩ := onNode_eq_next.1 h
    cases h; exact ⟨_, rfl, .registers (.inDev u f) (fun cs => csWriteData cs r o data) rfl⟩
  | busWr p b d f r o data =>
    obtain ⟨B, hB, h⟩ := onNode_eq_next.1 h
    cases h; exact ⟨_, rfl, .busWrite hB b d f r o data rfl⟩
  | rcNew => cases h; exact ⟨_, rfl, .restart⟩
  | fnNewT0 | fnNewT1 => cases h; exact ⟨_, rfl, .newFn _ _ rfl⟩
  | devNew dst n => cases h; exact ⟨_, rfl, .newDev dst (deviceWf_newDevice n) rfl⟩
  | devNewDummy dst n => cases h; exact ⟨_, rfl, .newDev dst (deviceWf_newDummyDevice n) rfl⟩
  | busNew dst n => cases h; exact ⟨_, rfl, .newBus dst n⟩
  | devAddFn => exact effect_of_devAddFn h
  | busAddDev => exact effect_of_busAddDev h
  | busAddBus => exact effect_of_busAddBus h
  | devRemoveFn => exact effect_of_devRemoveFn h
  | busRemoveDev => exact effect_of_busRemoveDev h
  | busRemoveBus => exact effect_of_busRemoveBus h

/-! ## What every effect keeps -/

/-- No effect breaks the invariant of the tree: an add brings a node whose number the add has checked, a removal
gives the host a node that was well-formed in its tree (rule R28). -/
theorem Effect.stateWf {s t : State} {i : Instr} (h : Effect s i t) (hs : stateWf s = true) : stateWf t = true := by
  cases h with
  | nothing => exact hs
  | address v _ => exact hs
  | registers u k _ => exact stateWf_updateFn (fun _ => rfl) hs
  | restart =>
    rw [stateWf_iff] at hs ⊢
    obtain ⟨-, -, hheld⟩ := hs
    exact ⟨rfl, busWf_rootWith _, hheld⟩
  | newFn dst F _ => exact stateWf_holdFn dst F hs
  | newDev dst hD _ => exact stateWf_holdDev dst hD hs
  | newBus dst n => exact stateWf_holdBus dst (busWf_newBus n) hs
  | addFn u src _ _ hn _ =>
    exact stateWf_useFn src (stateWf_updateDev (fun _ => rfl) (fun _ hD => deviceWf_insertFn hD hn) hs)
  | addDev p src _ hD hn _ =>
    have hD := deviceWf_srcDev hs hD
    exact stateWf_useDev src (stateWf_updateBus (fun _ => rfl) (fun _ hB => busWf_insertDev hB hn hD) hs)
  | addBus p src _ hC hn _ =>
    have hC := busWf_srcBus hs hC
    exact stateWf_updateBus (fun _ => rfl) (fun _ hB => busWf_insertBus hB hn hC) (stateWf_useBus src hs)
  | removeFn u f dst _ _ =>
    exact stateWf_holdFn dst _ (stateWf_updateDev (fun _ => rfl) (fun _ hD => deviceWf_eraseFn hD) hs)
  | removeDev p d dst hB hD =>
    exact stateWf_holdDev dst (deviceWf_device (busWf_busAt hs hB) hD)
      (stateWf_updateBus (fun _ => rfl) (fun _ hB => busWf_eraseDev hB) hs)
  | removeBus p b dst hB hC =>
    exact stateWf_holdBus dst (busWf_child (busWf_busAt hs hB) hC)
      (stateWf_updateBus (fun _ => rfl) (fun _ hB => busWf_eraseBus hB) hs)

/-- `CA` is written by the operations that write it and by no other (rule R216). -/
theorem Effect.ca {s t : State} {i : Instr} (h : Effect s i t) (hi : writesAddress i = false) : t.ca = s.ca := by
  cases h with
  | address v h => rw [hi] at h; cases h
  | restart => cases hi
  | nothing | newFn | newDev | newBus => rfl
  | registers | addFn | addDev | addBus | removeFn | removeDev | removeBus => simp

/-- Outside the operations that change the topology, an effect leaves everything but `CA` and register contents. -/
theorem Effect.stateBare {s t : State} {i : Instr} (h : Effect s i t) (hi : changesTopology i = false) :
    stateBare t = stateBare (setCa s t.ca) := by
  cases h with
  | nothing | address => rfl
  | registers u k _ =>
    have hbare : ∀ F, fnBare (withSpace F (k F.cs)) = fnBare F := fun _ => rfl
    rw [stateBare_updateFn s u _ hbare, updateFn_ca]
    rfl
  | newFn _ _ h | newDev _ _ h => rw [hi] at h; cases h
  | restart | newBus | addFn | addDev | addBus | removeFn | removeDev | removeBus => cases hi

theorem exec_stateWf {i : Instr} {s t : State} (h : exec i s = .next t) (hs : stateWf s = true) :
    stateWf t = true := by
  obtain ⟨v, ht, hv⟩ := exec_effect h
  rw [ht, stateWf_answer]
  exact hv.stateWf hs

theorem exec_ca {i : Instr} {s t : State} (h : exec i s = .next t) (hi : writesAddress i = false) : t.ca = s.ca := by
  obtain ⟨v, ht, hv⟩ := exec_effect h
  rw [ht, answer_ca]
  exact hv.ca hi

theorem exec_stateBare {i : Instr} {s t : State} (h : exec i s = .next t) (hi : changesTopology i = false) :
    stateBare t = stateBare (answer (setCa s t.ca) t.reply) := by
  obtain ⟨v, ht, hv⟩ := exec_effect h
  have hca : t.ca = v.ca := by rw [ht, answer_ca]
  calc stateBare t = answer (stateBare v) t.reply := congrArg Machine.stateBare ht
    _ = answer (stateBare (setCa s v.ca)) t.reply := by rw [hv.stateBare hi]
    _ = stateBare (answer (setCa s t.ca) t.reply) := by rw [hca]; rfl

/-! ## A step, and a run of operations -/

theorem step_of_idle {s : State} (h : s.pending = []) : step s = .next s := by
  simp only [step, h]

theorem step_of_operation {s : State} {q : Request} {rest : List Request} {i : Instr} (hp : s.pending = q :: rest)
    (hd : decode q.op = .ok i) : step s = exec i (taken s rest q.agent) := by
  simp only [step, hp, hd]

theorem step_of_noOperation {s : State} {q : Request} {rest : List Request} {e : DecodeError}
    (hp : s.pending = q :: rest) (hd : decode q.op = .error e) : step s = .refused (.notAnOperation e) := by
  simp only [step, hp, hd]

/-- A step with a next state was idle or performed the operation presented next. -/
theorem step_cases {s t : State} (h : step s = .next t) :
    (s.pending = [] ∧ t = s) ∨
      ∃ q rest i, s.pending = q :: rest ∧ decode q.op = .ok i ∧ exec i (taken s rest q.agent) = .next t := by
  cases hp : s.pending with
  | nil =>
    rw [step_of_idle hp] at h
    cases h
    exact .inl ⟨rfl, rfl⟩
  | cons q rest =>
    cases hd : decode q.op with
    | error e => rw [step_of_noOperation hp hd] at h; cases h
    | ok i => exact .inr ⟨q, rest, i, rfl, hd, step_of_operation hp hd ▸ h⟩

theorem execAll_cons_next {i : Instr} {is : List Instr} {s t : State} :
    execAll (i :: is) s = .next t ↔ ∃ u, exec i s = .next u ∧ execAll is u = .next t := by
  rw [execAll]
  cases exec i s <;> simp

/-- What each operation of a kind keeps, a run of operations of that kind keeps. -/
theorem execAll_keeps {P : State → Prop} {ok : Instr → Prop}
    (hstep : ∀ {i s t}, ok i → exec i s = .next t → P s → P t) {is : List Instr} {s t : State}
    (hok : ∀ i ∈ is, ok i) (h : execAll is s = .next t) (hs : P s) : P t := by
  induction is generalizing s with
  | nil => cases h; exact hs
  | cons i is ih =>
    obtain ⟨u, hi, h⟩ := execAll_cons_next.1 h
    obtain ⟨hokHead, hokTail⟩ := List.forall_mem_cons.1 hok
    exact ih hokTail h (hstep hokHead hi hs)

theorem execAll_ca {is : List Instr} {s t : State} (hok : ∀ i ∈ is, writesAddress i = false)
    (h : execAll is s = .next t) : t.ca = s.ca :=
  execAll_keeps (P := fun u => u.ca = s.ca) (fun hi he hs => (exec_ca he hi).trans hs) hok h rfl

end Sys2Proof.Machine
end

section
/-! PROOFS. Guest reads and writes as one port contract (rules R230 and R231), and the enable bit of `CA`. -/

namespace Sys2Proof.Machine

/-! ## The port contract -/

/-- Every row of the guest read map is a read of the window (rule R230). -/
theorem exec_guestRead (o n : Nat) (s : State) :
    exec (guestRead o n) s = .next (answer s (.bytes (portRead s o n))) := by
  by_cases h : wellShaped o n = true
  · obtain ⟨hn, ho, hsub⟩ := (wellShaped_iff o n).1 h
    have ho8 : o < 8 := by omega
    have hfit : n ≤ 4 - o % 4 := by omega
    interval_cases o <;> interval_cases n <;> rfl
  · rw [Bool.not_eq_true] at h
    rw [guestRead_of_malformed o n h, portRead, h]
    rfl

/-- A write at offset `k` inside sub-window `w` is RC_SET_ADDR or RC_WRITE_SPACE at that offset. -/
theorem exec_guestWrite_subwindow (w k : Nat) (data : List Byte) (s : State) (hw : w < 2) (hn : 1 ≤ data.length)
    (hfit : k + data.length ≤ 4) :
    exec (guestWrite (4 * w + k) data) s =
      .next (answer (if w = 0 then setAddress s k data else writeSpace s k data) .nothing) := by
  match data with
  | [v] =>
    have : k ≤ 3 := Nat.le_of_add_le_add_right hfit
    interval_cases w <;> interval_cases k <;> rfl
  | [v0, v1] =>
    have : k ≤ 2 := Nat.le_of_add_le_add_right hfit
    interval_cases w <;> interval_cases k <;> rfl
  | [v0, v1, v2] =>
    have : k ≤ 1 := Nat.le_of_add_le_add_right hfit
    interval_cases w <;> interval_cases k <;> rfl
  | [v0, v1, v2, v3] =>
    have : k ≤ 0 := Nat.le_of_add_le_add_right hfit
    interval_cases w <;> interval_cases k <;> rfl
  | _ :: _ :: _ :: _ :: _ :: _ => simp only [List.length_cons] at hfit; omega

/-- Every row of the guest write map is a write to the window (rule R231). -/
theorem exec_guestWrite (o : Nat) (data : List Byte) (s : State) :
    exec (guestWrite o data) s = .next (answer (portWrite s o data) .nothing) := by
  by_cases h : wellShaped o data.length = true
  · obtain ⟨hn, ho, hsub⟩ := (wellShaped_iff o data.length).1 h
    rw [portWrite, if_pos h]
    rcases lt_or_ge o 4 with hlow | hhigh
    · rw [if_pos hlow]
      simpa using exec_guestWrite_subwindow 0 o data s (by decide) hn (by omega)
    · obtain ⟨k, rfl⟩ := Nat.exists_eq_add_of_le hhigh
      rw [if_neg (by omega), Nat.add_sub_cancel_left]
      exact exec_guestWrite_subwindow 1 k data s (by decide) hn (by omega)
  · rw [Bool.not_eq_true] at h
    rw [guestWrite_of_malformed o data h, portWrite, h]
    rfl

/-- A guest read depends on `CA` and on the dword of the data window, and on nothing else. -/
theorem portRead_congr {s t : State} (hca : s.ca = t.ca) (hspace : readSpace s = readSpace t) (o n : Nat) :
    portRead s o n = portRead t o n := by
  simp only [portRead, hca, hspace]

/-! ## The fields of `CA` -/

theorem caBus_lt (ca : Dword) : caBus ca < 256 := (ca.extractLsb' 16 8).isLt
theorem caDevice_lt (ca : Dword) : caDevice ca < 32 := (ca.extractLsb' 11 5).isLt
theorem caFunction_lt (ca : Dword) : caFunction ca < 8 := (ca.extractLsb' 8 3).isLt
theorem caRegister_lt (ca : Dword) : caRegister ca < 64 := (ca.extractLsb' 2 6).isLt

/-- Two blocks with one `CA` whose coordinates read alike after the all-ones substitution have one data window
(rules R212 and R213). -/
theorem readSpace_congr {s t : State} (hca : s.ca = t.ca)
    (hread : ∀ b d f r, b < 256 → d < 32 → f < 8 → r < 64 →
      (busRead s.root b d f r).getD allOnes = (busRead t.root b d f r).getD allOnes) :
    readSpace s = readSpace t := by
  unfold readSpace
  rw [hca]
  split
  · exact hread _ _ _ _ (caBus_lt _) (caDevice_lt _) (caFunction_lt _) (caRegister_lt _)
  · rfl

/-! ## The disabled mechanism -/

theorem readSpace_of_disabled {s : State} (h : s.ca.getLsbD 31 = false) : readSpace s = allOnes := by
  rw [readSpace, caEnabled, h]
  rfl

theorem writeSpace_of_disabled {s : State} (h : s.ca.getLsbD 31 = false) (o : Nat) (data : List Byte) :
    writeSpace s o data = s := by
  rw [writeSpace, caEnabled, h]
  rfl

/-- While `CA[31] = 0` the data window reads all ones (rule R251). -/
theorem portRead_of_disabled {s : State} (h : s.ca.getLsbD 31 = false) {o n : Nat} (ho : 4 ≤ o) :
    portRead s o n = List.replicate n 0xFF#8 := by
  unfold portRead
  split
  · next hws =>
    obtain ⟨-, -, hsub⟩ := (wellShaped_iff o n).1 hws
    rw [if_neg (by omega), readSpace_of_disabled h]
    exact bytesLE_allOnes (o % 4) n (by omega)
  · rfl

/-- While `CA[31] = 0` the data window drops writes (rule R251). -/
theorem portWrite_of_disabled {s : State} (h : s.ca.getLsbD 31 = false) {o : Nat} (ho : 4 ≤ o) (data : List Byte) :
    portWrite s o data = s := by
  simp only [portWrite, writeSpace_of_disabled h, if_neg (not_lt.2 ho), ite_self]

/-! ## The enable bit -/

/-- The enable bit is bit 7 of lane 3. -/
theorem getLsbD_31_eq_lane (v : Dword) : v.getLsbD 31 = (lane v 3).getLsbD 7 := by
  simp [lane]

/-- An address write that does not write a byte with bit 7 into lane 3 leaves the mechanism disabled (rules R31 and
R210). -/
theorem setAddress_disabled {s : State} (h : s.ca.getLsbD 31 = false) {o : Nat} {data : List Byte}
    (hset : setsEnable (.rcSetAddr o data) = false) : (setAddress s o data).ca.getLsbD 31 = false := by
  by_cases hfit : o + data.length ≤ 4
  · rw [getLsbD_31_eq_lane, lane_setAddress s o 3 data (by decide) hfit]
    split
    · next hlast =>
      have hend : o + data.length = 4 := by omega
      have hidx : 3 - o = data.length - 1 := by omega
      have hget : data.getLast? = some data[3 - o] := by
        rw [List.getLast?_eq_getElem?, ← hidx, List.getElem?_eq_getElem]
      simpa [setsEnable, hend, hget] using hset
    · rw [← getLsbD_31_eq_lane]; exact h
  · rw [setAddress, if_pos (not_le.1 hfit)]
    exact h

/-- The four rows of address writes set the enable bit exactly when RC_SET_ADDR of their bytes does. -/
theorem setsEnable_cfgAddrWr8 (k : Fin 4) (v : Byte) :
    setsEnable (.cfgAddrWr8 k v) = setsEnable (.rcSetAddr k [v]) := by
  fin_cases k <;> rfl
theorem setsEnable_cfgAddrWr16 (k : Fin 3) (v0 v1 : Byte) :
    setsEnable (.cfgAddrWr16 k v0 v1) = setsEnable (.rcSetAddr k [v0, v1]) := by
  fin_cases k <;> rfl
theorem setsEnable_cfgAddrWr24 (k : Fin 2) (v0 v1 v2 : Byte) :
    setsEnable (.cfgAddrWr24 k v0 v1 v2) = setsEnable (.rcSetAddr k [v0, v1, v2]) := by
  fin_cases k <;> rfl
theorem setsEnable_cfgAddrWr32 (v0 v1 v2 v3 : Byte) :
    setsEnable (.cfgAddrWr32 v0 v1 v2 v3) = setsEnable (.rcSetAddr 0 [v0, v1, v2, v3]) := by
  simp [setsEnable]

/-- Construction leaves the mechanism disabled (rule R40). -/
theorem reset_ca_disabled : Config.configAddressReset.getLsbD 31 = false := by decide

/-- An operation that does not set the enable bit leaves the mechanism disabled (rules R31, R216 and R218). -/
theorem exec_disabled {i : Instr} {s t : State} (hi : setsEnable i = false) (h : exec i s = .next t)
    (hs : s.ca.getLsbD 31 = false) : t.ca.getLsbD 31 = false := by
  by_cases hw : writesAddress i = true
  · cases i with
    | cfgAddrWr8 k v => cases h; exact setAddress_disabled hs (setsEnable_cfgAddrWr8 k v ▸ hi)
    | cfgAddrWr16 k v0 v1 => cases h; exact setAddress_disabled hs (setsEnable_cfgAddrWr16 k v0 v1 ▸ hi)
    | cfgAddrWr24 k v0 v1 v2 => cases h; exact setAddress_disabled hs (setsEnable_cfgAddrWr24 k v0 v1 v2 ▸ hi)
    | cfgAddrWr32 v0 v1 v2 v3 => cases h; exact setAddress_disabled hs (setsEnable_cfgAddrWr32 v0 v1 v2 v3 ▸ hi)
    | rcSetAddr o data => cases h; exact setAddress_disabled hs hi
    | rcNew => cases h; exact reset_ca_disabled
    | _ => cases hw
  · rw [exec_ca h (Bool.not_eq_true _ ▸ hw)]
    exact hs

/-! ## The address port -/

/-- A dword in the address register is read lane by lane, the lowest byte first (rule R235). -/
theorem bytesLE_le32 (b0 b1 b2 b3 : Byte) : bytesLE (le32 b0 b1 b2 b3) 0 4 = [b0, b1, b2, b3] := by
  obtain ⟨h0, h1, h2, h3⟩ := lane_le32 b0 b1 b2 b3
  simp only [bytesLE, h0, h1, h2, h3, zero_add, Nat.reduceAdd]

/-- CFGADDR_WR32 leaves its four bytes in `CA` (rule R239). -/
theorem ca_of_cfgAddrWr32 {s t : State} {v0 v1 v2 v3 : Byte} (h : exec (.cfgAddrWr32 v0 v1 v2 v3) s = .next t) :
    t.ca = le32 v0 v1 v2 v3 := by
  cases h
  exact setLanes_four s.ca v0 v1 v2 v3

end Sys2Proof.Machine
end

section
/-! PROOFS. The registers a function constructor writes, as the statements write them (rules R127 and R128). -/

namespace Sys2Proof.Machine

theorem halves_eq_append (hi lo : Half) : (hi.setWidth 32 <<< 16) ||| lo.setWidth 32 = hi ++ lo := by
  apply BitVec.eq_of_getLsbD_eq
  intro i hi
  simp only [BitVec.getLsbD_or, BitVec.getLsbD_shiftLeft, BitVec.getLsbD_setWidth, BitVec.getLsbD_append]
  interval_cases i <;> simp

theorem classDword_eq_append (base sub progif rev : Byte) :
    classDword base sub progif rev = base ++ sub ++ progif ++ rev := by
  apply BitVec.eq_of_getLsbD_eq
  intro i hi
  simp only [classDword, BitVec.getLsbD_or, BitVec.getLsbD_shiftLeft, BitVec.getLsbD_setWidth,
    BitVec.getLsbD_append]
  interval_cases i <;> simp

/-- The function that reset puts at bus 0, device 0, function 0 has the register file of its constructor. -/
theorem regAt_reset (r : Nat) :
    regAt State.reset (.inDev (.node ⟨none, []⟩ 0) 0) r = csRead32 (headerSpace Config.hostBridgeArgs) r := rfl

end Sys2Proof.Machine
end

section
/-! PROOFS. The statements on reset, the step and the state. -/

namespace Sys2Proof.Machine

/-- Settles O11: the step's operation leaves an `Effect`, and each of them keeps the invariant. -/
theorem stepKeepsTreeInvariant : Obligations.StepKeepsTreeInvariant := by
  intro s t hs h
  rcases step_cases h with ⟨-, rfl⟩ | ⟨q, rest, i, -, -, hexec⟩
  · exact hs
  · exact exec_stateWf hexec (stateWf_taken s rest q.agent ▸ hs)

/-- Settles O14, by induction over the operations: each of them leaves the mechanism disabled, and a disabled
mechanism has a closed data window. -/
theorem dataWindowIsClosedAfterReset : Obligations.DataWindowIsClosedAfterReset := by
  refine ⟨reset_ca_disabled, fun is r s hr h hok => ?_⟩
  have hs : s.ca.getLsbD 31 = false :=
    execAll_keeps (P := fun u => u.ca.getLsbD 31 = false) exec_disabled hok h hr
  refine ⟨hs, fun o n _ ho => ?_, fun o data ho => ?_⟩
  · rw [exec_guestRead, portRead_of_disabled hs ho]
  · rw [exec_guestWrite, portWrite_of_disabled hs ho]

/-- Settles O24: the write leaves its bytes in `CA`, and operations that do not write `CA` leave it alone. -/
theorem addressReadsBack : Obligations.AddressReadsBack := by
  intro s t u is v0 v1 v2 v3 hwrite hok hrun
  have hca : u.ca = le32 v0 v1 v2 v3 := (execAll_ca hok hrun).trans (ca_of_cfgAddrWr32 hwrite)
  calc exec .cfgAddrRd32 u = .next (answer u (.bytes (bytesLE u.ca 0 4))) := rfl
    _ = .next (answer u (.bytes [v0, v1, v2, v3])) := by rw [hca, bytesLE_le32]

/-- Settles O26: a guest read depends on `CA` and on the dword of the data window alone. -/
theorem guestReadsCannotTellAbsentFromAllOnes : Obligations.GuestReadsCannotTellAbsentFromAllOnes := by
  intro s t hca hread o n
  refine ⟨portRead s o n, exec_guestRead o n s, ?_⟩
  rw [portRead_congr hca (readSpace_congr hca hread) o n]
  exact exec_guestRead o n t

/-- Settles O29. -/
theorem onlyTopologyOperationsChangeTopology : Obligations.OnlyTopologyOperationsChangeTopology :=
  fun _ _ _ hi h => exec_stateBare h hi

/-- Settles O5. -/
theorem stepPerformsDecodedOperation : Obligations.StepPerformsDecodedOperation :=
  fun _ _ _ _ hp hd => step_of_operation hp hd

/-- Settles O6. -/
theorem stepWithoutOperation : Obligations.StepWithoutOperation :=
  ⟨fun _ hp => step_of_idle hp, fun _ _ _ _ hp hd => step_of_noOperation hp hd⟩

/-- Settles O9. -/
theorem resetIsTheConstructedBlock : Obligations.ResetIsTheConstructedBlock :=
  ⟨rfl, rfl, rfl, _, _, rfl, rfl, rfl, rfl, rfl, rfl⟩

/-- Settles O10, by the header type that `HOST_BRIDGE_ARGS` selects. -/
theorem resetRegistersOfHostBridge : Obligations.ResetRegistersOfHostBridge := by
  intro r hr
  rw [regAt_reset]
  generalize Config.hostBridgeArgs = args
  cases args with
  | type0 vendor device base sub progif rev ssvid ssid =>
    simp only [headerSpace, csRead32_type0Space, idDword, halves_eq_append, classDword_eq_append, if_pos hr,
      apply_ite some]
  | type1 vendor device base sub progif rev =>
    simp only [headerSpace, csRead32_type1Space, idDword, halves_eq_append, classDword_eq_append, if_pos hr,
      apply_ite some]

/-- Settles O12: Bus 0 is as RC_NEW builds it, and the host holds nothing. -/
theorem resetSatisfiesTreeInvariant : Obligations.ResetSatisfiesTreeInvariant := by
  rw [Obligations.ResetSatisfiesTreeInvariant, stateWf_iff]
  exact ⟨rfl, busWf_rootWith _, rfl, rfl, rfl, by simp [State.reset], by simp [State.reset]⟩

end Sys2Proof.Machine
end

section
/-! PROOFS. Operations that only read, and the steps of interleaved agents (rules R72 and R77). -/

namespace Sys2Proof.Machine

/-! ## Operations that only read -/

theorem onlyReads_of_writesAddress {i : Instr} (h : writesAddress i = true) : onlyReads i = false := by
  cases i with
  | cfgAddrWr8 | cfgAddrWr16 | cfgAddrWr24 | cfgAddrWr32 | rcSetAddr | rcNew => rfl
  | _ => cases h

theorem onlyReads_of_changesTopology {i : Instr} (h : changesTopology i = true) : onlyReads i = false := by
  cases i with
  | rcNew | fnNewT0 | fnNewT1 | devNew | devNewDummy | busNew | devAddFn | devRemoveFn | busAddBus | busAddDev
  | busRemoveBus | busRemoveDev => rfl
  | _ => cases h

/-- The one effect of an operation that only reads is to change nothing (rule R72). -/
theorem Effect.eq_of_onlyReads {s t : State} {i : Instr} (h : Effect s i t) (hi : onlyReads i = true) : t = s := by
  cases h with
  | nothing => rfl
  | address _ hw => rw [onlyReads_of_writesAddress hw] at hi; cases hi
  | registers _ _ hw => rw [hw] at hi; cases hi
  | newFn _ _ hw | newDev _ _ hw => rw [onlyReads_of_changesTopology hw] at hi; cases hi
  | restart | newBus | addFn | addDev | addBus | removeFn | removeDev | removeBus => cases hi

/-- Settles O28: a read that completes leaves an `Effect`, and its effect is to change nothing. -/
theorem readsChangeNothing : Obligations.ReadsChangeNothing := by
  intro i s t hi h
  obtain ⟨v, ht, hv⟩ := exec_effect h
  rwa [hv.eq_of_onlyReads hi] at ht

/-! ## Steps that take one port transaction -/

theorem core_run_succ {s t : State} (k : Nat) (h : step s = .next t) : core.run (k + 1) s = core.run k t := by
  have hcore : core.step s = .next t := h
  simp only [Host.Core.run, hcore]

/-- Whoever presents a port read, the step returns the window's bytes to that agent (rule R230). -/
theorem step_of_read {s : State} {a : Agent} {o n : Nat} {rest : List Request}
    (hp : s.pending = ⟨a, .read o n⟩ :: rest) :
    step s = .next (answer (taken s rest a) (.bytes (portRead s o n))) :=
  calc step s = exec (guestRead o n) (taken s rest a) := step_of_operation hp rfl
    _ = .next (answer (taken s rest a) (.bytes (portRead (taken s rest a) o n))) := exec_guestRead o n _
    _ = .next (answer (taken s rest a) (.bytes (portRead s o n))) := rfl

/-- Whoever presents it, a write of four address bytes replaces all of the one `CA` that every agent shares (rule
R76), and leaves the tree and the operations behind it. -/
theorem step_of_addressWrite {s : State} {a : Agent} {b0 b1 b2 b3 : Byte} {rest : List Request}
    (hp : s.pending = ⟨a, .write 0 [b0, b1, b2, b3]⟩ :: rest) :
    ∃ t, step s = .next t ∧ t.pending = rest ∧ t.ca = le32 b0 b1 b2 b3 ∧ t.root = s.root := by
  obtain ⟨v, hv⟩ := setAddress_eq (taken s rest a) 0 [b0, b1, b2, b3]
  have hexec : exec (.cfgAddrWr32 b0 b1 b2 b3) (taken s rest a) =
      .next (answer (setCa (taken s rest a) v) .nothing) := hv ▸ rfl
  exact ⟨_, (step_of_operation hp rfl).trans hexec, rfl, ca_of_cfgAddrWr32 hexec, rfl⟩

/-- Settles O25: each address write replaces all of `CA` and keeps the tree, so the read's dword is the one that the
second write selects. -/
theorem interleavedAddressWriteRedirectsTheDataAccess :
    Obligations.InterleavedAddressWriteRedirectsTheDataAccess := by
  intro s n other a0 a1 a2 a3 b0 b1 b2 b3 rest hp
  obtain ⟨s₁, hstep₁, hp₁, -, hroot₁⟩ := step_of_addressWrite hp
  obtain ⟨s₂, hstep₂, hp₂, hca₂, hroot₂⟩ := step_of_addressWrite hp₁
  have hroot : s₂.root = s.root := hroot₂.trans hroot₁
  have hspace : readSpace s₂ = readSpace (setCa s (le32 b0 b1 b2 b3)) :=
    readSpace_congr hca₂ (fun _ _ _ _ _ _ _ _ => by rw [hroot, setCa_root])
  have hread : portRead s₂ 4 4 = bytesLE (readSpace (setCa s (le32 b0 b1 b2 b3))) 0 4 :=
    hspace ▸ rfl
  refine ⟨answer (taken s₂ rest (.guest n)) (.bytes (portRead s₂ 4 4)), ?_, rfl, rfl, hca₂, hroot,
    congrArg Reply.bytes hread⟩
  rw [core_run_succ 2 hstep₁, core_run_succ 1 hstep₂, core_run_succ 0 (step_of_read hp₂)]
  rfl

end Sys2Proof.Machine
end

section
/-! PROOFS. The operand readers inverted: a reader gives a value exactly on the operands that the encoder writes for
it, and each row's decoder gives an operation exactly on the operand list of that row (log 6). -/

namespace Sys2Proof

section
variable {xs rest : List Nat} {i : Instr}

/-! ## One operand -/

@[simp] theorem takeNat_eq_some {x : Nat} : takeNat xs = some (x, rest) ↔ xs = x :: rest := by
  cases xs <;> simp [takeNat]

@[simp] theorem takeBits_eq_some {w : Nat} {v : BitVec w} :
    takeBits w xs = some (v, rest) ↔ xs = v.toNat :: rest := by
  refine ⟨fun h => ?_, fun h => h ▸ takeBits_toNat v rest⟩
  cases xs with
  | nil => cases h
  | cons x xs =>
    rw [takeBits] at h
    split at h
    · next hx => cases h; rw [BitVec.toNat_ofNat, Nat.mod_eq_of_lt hx]
    · cases h

@[simp] theorem takeBitsList_eq_some {w n : Nat} {vs : List (BitVec w)} :
    takeBitsList w n xs = some (vs, rest) ↔ n = vs.length ∧ xs = vs.map BitVec.toNat ++ rest := by
  refine ⟨fun h => ?_, fun ⟨hn, hxs⟩ => hn ▸ hxs ▸ takeBitsList_map vs rest⟩
  induction n generalizing xs vs with
  | zero => cases h; exact ⟨rfl, rfl⟩
  | succ n ih =>
    simp only [takeBitsList, Option.bind_eq_bind, Option.bind_eq_some_iff, Prod.exists, takeBits_eq_some] at h
    obtain ⟨v, ys, rfl, us, zs, hus, h⟩ := h
    cases h
    obtain ⟨rfl, rfl⟩ := ih hus
    exact ⟨rfl, rfl⟩

@[simp] theorem takeBytes_eq_some {data : List Byte} :
    takeBytes xs = some (data, rest) ↔ xs = putBytes data ++ rest := by
  simp [takeBytes, Option.bind_eq_some_iff, putBytes]

@[simp] theorem takeBusRef_eq_some {p : BusRef} : takeBusRef xs = some (p, rest) ↔ xs = putBusRef p ++ rest := by
  refine ⟨fun h => ?_, fun h => h ▸ takeBusRef_putBusRef p rest⟩
  match xs with
  | [] | [_] => cases h
  | base :: n :: ys =>
    simp only [takeBusRef] at h
    split at h
    · next hn => cases h; cases base <;> simp [putBusRef, hn]
    · cases h

@[simp] theorem takeDevRef_eq_some {t : DevRef} : takeDevRef xs = some (t, rest) ↔ xs = putDevRef t ++ rest := by
  refine ⟨fun h => ?_, fun h => h ▸ takeDevRef_putDevRef t rest⟩
  match xs with
  | [] => cases h
  | 0 :: ys =>
    simp only [takeDevRef, Option.bind_eq_bind, Option.bind_eq_some_iff, Prod.exists, takeBusRef_eq_some,
      takeNat_eq_some] at h
    obtain ⟨p, _, rfl, d, _, rfl, h⟩ := h
    cases h
    simp [putDevRef]
  | (_ + 1) :: ys => cases h; rfl

@[simp] theorem takeFnRef_eq_some {t : FnRef} : takeFnRef xs = some (t, rest) ↔ xs = putFnRef t ++ rest := by
  refine ⟨fun h => ?_, fun h => h ▸ takeFnRef_putFnRef t rest⟩
  match xs with
  | [] => cases h
  | 0 :: ys =>
    simp only [takeFnRef, Option.bind_eq_bind, Option.bind_eq_some_iff, Prod.exists, takeDevRef_eq_some,
      takeNat_eq_some] at h
    obtain ⟨u, _, rfl, f, _, rfl, h⟩ := h
    cases h
    simp [putFnRef]
  | (_ + 1) :: ys => cases h; rfl

theorem takeType0_eq_some {args : HeaderArgs} : takeType0 xs = some (args, rest) ↔
    ∃ vendor device base sub progif rev ssvid ssid, args = .type0 vendor device base sub progif rev ssvid ssid ∧
      xs = putHeaderArgs args ++ rest := by
  simp only [takeType0, Option.bind_eq_bind, Option.bind_eq_some_iff, Prod.exists, takeBits_eq_some]
  constructor
  · rintro ⟨_, _, rfl, _, _, rfl, _, _, rfl, _, _, rfl, _, _, rfl, _, _, rfl, _, _, rfl, _, _, rfl, h⟩
    cases h
    exact ⟨_, _, _, _, _, _, _, _, rfl, rfl⟩
  · rintro ⟨_, _, _, _, _, _, _, _, rfl, rfl⟩
    exact ⟨_, _, rfl, _, _, rfl, _, _, rfl, _, _, rfl, _, _, rfl, _, _, rfl, _, _, rfl, _, _, rfl, rfl⟩

theorem takeType1_eq_some {args : HeaderArgs} : takeType1 xs = some (args, rest) ↔
    ∃ vendor device base sub progif rev, args = .type1 vendor device base sub progif rev ∧
      xs = putHeaderArgs args ++ rest := by
  simp only [takeType1, Option.bind_eq_bind, Option.bind_eq_some_iff, Prod.exists, takeBits_eq_some]
  constructor
  · rintro ⟨_, _, rfl, _, _, rfl, _, _, rfl, _, _, rfl, _, _, rfl, _, _, rfl, h⟩
    cases h
    exact ⟨_, _, _, _, _, _, rfl, rfl⟩
  · rintro ⟨_, _, _, _, _, _, rfl, rfl⟩
    exact ⟨_, _, rfl, _, _, rfl, _, _, rfl, _, _, rfl, _, _, rfl, _, _, rfl, rfl⟩

/-- The source of an add stands last in its operand list, so that nothing follows it. -/
@[simp] theorem takeFnSrc_eq_some {src : FnSrc} : takeFnSrc xs = some (src, []) ↔ xs = putFnSrc src := by
  refine ⟨fun h => ?_, fun h => h ▸ takeFnSrc_putFnSrc src⟩
  match xs with
  | [] => cases h
  | 0 :: ys =>
    simp only [takeFnSrc, Option.bind_eq_bind, Option.bind_eq_some_iff, Prod.exists, takeNat_eq_some,
      takeType0_eq_some] at h
    obtain ⟨n, _, rfl, _, _, ⟨_, _, _, _, _, _, _, _, rfl, rfl⟩, h⟩ := h
    cases h
    rfl
  | 1 :: ys =>
    simp only [takeFnSrc, Option.bind_eq_bind, Option.bind_eq_some_iff, Prod.exists, takeNat_eq_some,
      takeType1_eq_some] at h
    obtain ⟨n, _, rfl, _, _, ⟨_, _, _, _, _, _, rfl, rfl⟩, h⟩ := h
    cases h
    rfl
  | (_ + 2) :: ys => cases h; rfl

@[simp] theorem takeDevSrc_eq_some {src : DevSrc} : takeDevSrc xs = some (src, []) ↔ xs = putDevSrc src := by
  refine ⟨fun h => ?_, fun h => h ▸ takeDevSrc_putDevSrc src⟩
  match xs with
  | [] | [0] | [1] => cases h
  | 0 :: _ :: _ | 1 :: _ :: _ | (_ + 2) :: _ => cases h; rfl

@[simp] theorem takeBusSrc_eq_some {src : BusSrc} : takeBusSrc xs = some (src, []) ↔ xs = putBusSrc src := by
  refine ⟨fun h => ?_, fun h => h ▸ takeBusSrc_putBusSrc src⟩
  match xs with
  | [] | [0] => cases h
  | 0 :: _ :: _ | (_ + 1) :: _ => cases h; rfl

@[simp] theorem finish_eq_some {j : Instr} : finish j xs = some i ↔ xs = [] ∧ i = j := by
  cases xs <;> simp [finish, eq_comm]

theorem orBadOperands_eq_ok {o : Option Instr} : orBadOperands o = .ok i ↔ o = some i := by
  cases o <;> simp [orBadOperands]

/-! ## The operand list of each row -/

theorem decodeFnNewT0_eq_some : decodeFnNewT0 xs = some i ↔
    ∃ dst n vendor device base sub progif rev ssvid ssid,
      xs = dst :: n :: putHeaderArgs (.type0 vendor device base sub progif rev ssvid ssid) ∧
        i = .fnNewT0 dst n vendor device base sub progif rev ssvid ssid := by
  simp [decodeFnNewT0, Option.bind_eq_some_iff, takeType0_eq_some]

theorem decodeFnNewT1_eq_some : decodeFnNewT1 xs = some i ↔
    ∃ dst n vendor device base sub progif rev,
      xs = dst :: n :: putHeaderArgs (.type1 vendor device base sub progif rev) ∧
        i = .fnNewT1 dst n vendor device base sub progif rev := by
  simp [decodeFnNewT1, Option.bind_eq_some_iff, takeType1_eq_some]

theorem decodeNew_eq_some {mk : Nat → Nat → Instr} :
    decodeNew mk xs = some i ↔ ∃ dst n, xs = [dst, n] ∧ i = mk dst n := by
  simp [decodeNew, Option.bind_eq_some_iff]

theorem decodeFnNatNat_eq_some {mk : FnRef → Nat → Nat → Instr} :
    decodeFnNatNat mk xs = some i ↔ ∃ t r o, xs = putFnRef t ++ [r, o] ∧ i = mk t r o := by
  simp [decodeFnNatNat, Option.bind_eq_some_iff]

theorem decodeFnNatNatBits_eq_some {w : Nat} {mk : FnRef → Nat → Nat → BitVec w → Instr} :
    decodeFnNatNatBits w mk xs = some i ↔ ∃ t r o v, xs = putFnRef t ++ [r, o, v.toNat] ∧ i = mk t r o v := by
  simp [decodeFnNatNatBits, Option.bind_eq_some_iff]

theorem decodeCsRd32_eq_some : decodeCsRd32 xs = some i ↔ ∃ t r, xs = putFnRef t ++ [r] ∧ i = .csRd32 t r := by
  simp [decodeCsRd32, Option.bind_eq_some_iff]

theorem decodeCsWr32_eq_some :
    decodeCsWr32 xs = some i ↔ ∃ t r v, xs = putFnRef t ++ [r, v.toNat] ∧ i = .csWr32 t r v := by
  simp [decodeCsWr32, Option.bind_eq_some_iff]

theorem decodeDevAddFn_eq_some :
    decodeDevAddFn xs = some i ↔ ∃ t src, xs = putDevRef t ++ putFnSrc src ∧ i = .devAddFn t src := by
  simp [decodeDevAddFn, Option.bind_eq_some_iff]

theorem decodeDevGetFn_eq_some :
    decodeDevGetFn xs = some i ↔ ∃ t f, xs = putDevRef t ++ [f] ∧ i = .devGetFn t f := by
  simp [decodeDevGetFn, Option.bind_eq_some_iff]

theorem decodeDevNatNat_eq_some {mk : DevRef → Nat → Nat → Instr} :
    decodeDevNatNat mk xs = some i ↔ ∃ t f r, xs = putDevRef t ++ [f, r] ∧ i = mk t f r := by
  simp [decodeDevNatNat, Option.bind_eq_some_iff]

theorem decodeDevWr_eq_some : decodeDevWr xs = some i ↔
    ∃ t f r o data, xs = putDevRef t ++ ([f, r, o] ++ putBytes data) ∧ i = .devWr t f r o data := by
  simp [decodeDevWr, Option.bind_eq_some_iff]

theorem decodeBusAddBus_eq_some :
    decodeBusAddBus xs = some i ↔ ∃ p src, xs = putBusRef p ++ putBusSrc src ∧ i = .busAddBus p src := by
  simp [decodeBusAddBus, Option.bind_eq_some_iff]

theorem decodeBusAddDev_eq_some :
    decodeBusAddDev xs = some i ↔ ∃ p src, xs = putBusRef p ++ putDevSrc src ∧ i = .busAddDev p src := by
  simp [decodeBusAddDev, Option.bind_eq_some_iff]

theorem decodeBusNat_eq_some {mk : BusRef → Nat → Instr} :
    decodeBusNat mk xs = some i ↔ ∃ p b, xs = putBusRef p ++ [b] ∧ i = mk p b := by
  simp [decodeBusNat, Option.bind_eq_some_iff]

theorem decodeBusNatNat_eq_some {mk : BusRef → Nat → Nat → Instr} :
    decodeBusNatNat mk xs = some i ↔ ∃ p b dst, xs = putBusRef p ++ [b, dst] ∧ i = mk p b dst := by
  simp [decodeBusNatNat, Option.bind_eq_some_iff]

theorem decodeBusRd_eq_some :
    decodeBusRd xs = some i ↔ ∃ p b d f r, xs = putBusRef p ++ [b, d, f, r] ∧ i = .busRd p b d f r := by
  simp [decodeBusRd, Option.bind_eq_some_iff]

theorem decodeBusWr_eq_some : decodeBusWr xs = some i ↔
    ∃ p b d f r o data, xs = putBusRef p ++ ([b, d, f, r, o] ++ putBytes data) ∧ i = .busWr p b d f r o data := by
  simp [decodeBusWr, Option.bind_eq_some_iff]

theorem decodeOffsetData_eq_some {mk : Nat → List Byte → Instr} :
    decodeOffsetData mk xs = some i ↔ ∃ o data, xs = o :: putBytes data ∧ i = mk o data := by
  simp [decodeOffsetData, Option.bind_eq_some_iff]

end

end Sys2Proof
end

section
/-! PROOFS. The descriptor and its fields, and what the decoder does with each form of descriptor (rules R98 and
R99). -/

namespace Sys2Proof

/-! ## A descriptor is its fields -/

theorem descriptorClass_lt (D : BitVec 16) : descriptorClass D < 4 := (D.extractLsb' 14 2).isLt
theorem descriptorCount_lt (D : BitVec 16) : descriptorCount D < 16 := (D.extractLsb' 8 4).isLt
theorem descriptorLow_lt (D : BitVec 16) : descriptorLow D < 256 := (D.extractLsb' 0 8).isLt

theorem descriptor_toNat (D : BitVec 16) : D.toNat =
    descriptorClass D * 2 ^ 14 + descriptorGuestZero D * 2 ^ 12 + descriptorCount D * 2 ^ 8 + descriptorLow D := by
  have hD := D.isLt
  simp only [descriptorClass, descriptorGuestZero, descriptorCount, descriptorLow, BitVec.extractLsb'_toNat,
    Nat.shiftRight_eq_div_pow]
  omega

/-- `D[13:8]` is `D[13:12]` before `D[11:8]`. -/
theorem descriptorHostZero_eq (D : BitVec 16) :
    descriptorHostZero D = descriptorGuestZero D * 2 ^ 4 + descriptorCount D := by
  simp only [descriptorHostZero, descriptorGuestZero, descriptorCount, BitVec.extractLsb'_toNat,
    Nat.shiftRight_eq_div_pow]
  omega

theorem eq_guestDescriptor {D : BitVec 16} (hzero : descriptorGuestZero D = 0) :
    D = guestDescriptor (descriptorClass D) (descriptorCount D) (descriptorLow D) := by
  obtain ⟨hclass, hz, hcount, hlow⟩ := guestDescriptor_fields (descriptorClass D) (descriptorCount D)
    (descriptorLow D) (descriptorClass_lt D) (descriptorCount_lt D) (descriptorLow_lt D)
  apply BitVec.eq_of_toNat_eq
  rw [descriptor_toNat D, descriptor_toNat (guestDescriptor _ _ _), hclass, hz, hcount, hlow, hzero]

/-- A host descriptor from its operation code (rule R98). -/
def hostDescriptor (code : Nat) : BitVec 16 := 0x8000#16 ||| BitVec.ofNat 16 code

theorem hostDescriptor_toNat {code : Nat} (h : code < 256) : (hostDescriptor code).toNat = 0x8000 + code := by
  rw [hostDescriptor, BitVec.toNat_or, BitVec.toNat_ofNat, BitVec.toNat_ofNat,
    Nat.mod_eq_of_lt (show code < 2 ^ 16 by omega)]
  exact (Nat.shiftLeft_add_eq_or_of_lt (show code < 2 ^ 8 from h) 0x80).symm

theorem hostDescriptor_fields {code : Nat} (h : code < 256) : descriptorClass (hostDescriptor code) = 2 ∧
    descriptorHostZero (hostDescriptor code) = 0 ∧ descriptorLow (hostDescriptor code) = code := by
  simp only [descriptorClass, descriptorHostZero, descriptorLow, BitVec.extractLsb'_toNat, hostDescriptor_toNat h,
    Nat.shiftRight_eq_div_pow]
  refine ⟨?_, ?_, ?_⟩ <;> omega

theorem eq_hostDescriptor {D : BitVec 16} (hclass : descriptorClass D = 2) (hzero : descriptorHostZero D = 0) :
    D = hostDescriptor (descriptorLow D) := by
  have hparts := descriptor_toNat D
  rw [descriptorHostZero_eq] at hzero
  apply BitVec.eq_of_toNat_eq
  rw [hostDescriptor_toNat (descriptorLow_lt D)]
  omega

/-! ## The forms of a descriptor -/

/-- A descriptor is a guest read, a guest write, a host operation, or one that the decoder refuses whatever follows
it. -/
inductive DescriptorForm : BitVec 16 → Prop where
  | read (n o : Nat) (hn : n < 16) (ho : o < 256) : DescriptorForm (guestDescriptor 0 n o)
  | write (n o : Nat) (hn : n < 16) (ho : o < 256) : DescriptorForm (guestDescriptor 1 n o)
  | host (code : Nat) (hcode : code < 256) : DescriptorForm (hostDescriptor code)
  | reserved {D : BitVec 16} {e : DecodeError} (he : e ≠ .badOperands)
    (hD : ∀ operands, decode (.coded D operands) = .error e) : DescriptorForm D

theorem descriptor_form (D : BitVec 16) : DescriptorForm D := by
  have hlt := descriptorClass_lt D
  obtain hclass | hclass | hclass | hclass : descriptorClass D = 0 ∨ descriptorClass D = 1 ∨ descriptorClass D = 2 ∨
      descriptorClass D = 3 := by omega
  · by_cases hzero : descriptorGuestZero D = 0
    · rw [eq_guestDescriptor hzero, hclass]
      exact .read _ _ (descriptorCount_lt D) (descriptorLow_lt D)
    · exact .reserved (e := .reservedBits) (by decide) fun _ => by simp [decode, hclass, decodeGuestRead, hzero]
  · by_cases hzero : descriptorGuestZero D = 0
    · rw [eq_guestDescriptor hzero, hclass]
      exact .write _ _ (descriptorCount_lt D) (descriptorLow_lt D)
    · exact .reserved (e := .reservedBits) (by decide) fun _ => by simp [decode, hclass, decodeGuestWrite, hzero]
  · by_cases hzero : descriptorHostZero D = 0
    · rw [eq_hostDescriptor hclass hzero]
      exact .host _ (descriptorLow_lt D)
    · exact .reserved (e := .reservedBits) (by decide) fun _ => by simp [decode, hclass, hzero]
  · exact .reserved (e := .reservedClass) (by decide) fun _ => by simp [decode, hclass]

section
variable {n o code : Nat} {operands : List Nat} {i : Instr}

theorem decode_readDescriptor (hn : n < 16) (ho : o < 256) :
    decode (.coded (guestDescriptor 0 n o) operands) = .ok i ↔ operands = [] ∧ i = guestRead o n := by
  obtain ⟨hclass, hzero, hcount, hlow⟩ := guestDescriptor_fields 0 n o (by decide) hn ho
  simp [decode, hclass, decodeGuestRead, hzero, hcount, hlow, orBadOperands_eq_ok]

theorem decode_writeDescriptor (hn : n < 16) (ho : o < 256) :
    decode (.coded (guestDescriptor 1 n o) operands) = .ok i ↔
      ∃ data : List Byte, n = data.length ∧ operands = data.map BitVec.toNat ∧ i = guestWrite o data := by
  obtain ⟨hclass, hzero, hcount, hlow⟩ := guestDescriptor_fields 1 n o (by decide) hn ho
  simp [decode, hclass, decodeGuestWrite, hzero, hcount, hlow, orBadOperands_eq_ok, Option.bind_eq_some_iff, and_assoc]

theorem decode_hostDescriptor (hcode : code < 256) :
    decode (.coded (hostDescriptor code) operands) = decodeHost code operands := by
  obtain ⟨hclass, hzero, hlow⟩ := hostDescriptor_fields hcode
  simp [decode, hclass, hzero, hlow]

end

end Sys2Proof
end

section
/-! PROOFS. Decoding and encoding are inverse to one another (rules R98, R100 and R101). -/

namespace Sys2Proof

/-- The row of a span is well-formed, and the encoder writes it as a read of that span. -/
theorem guestRead_canonical (o n : Nat) :
    (guestRead o n).wellFormed = true ∧ encode (guestRead o n) = encodeRead o n := by
  by_cases h : wellShaped o n = true
  · obtain ⟨hn, hfit, hsub⟩ := (Machine.wellShaped_iff o n).1 h
    have ho : o < 8 := by omega
    have hn4 : n ≤ 4 := by omega
    interval_cases o <;> interval_cases n <;> exact ⟨rfl, rfl⟩
  · rw [Bool.not_eq_true] at h
    rw [Machine.guestRead_of_malformed o n h, Instr.wellFormed, h]
    exact ⟨rfl, rfl⟩

/-- The row of a span and its bytes is well-formed, and the encoder writes it as a write of those bytes there. -/
theorem guestWrite_canonical (o : Nat) (data : List Byte) :
    (guestWrite o data).wellFormed = true ∧ encode (guestWrite o data) = encodeWrite o data := by
  by_cases h : wellShaped o data.length = true
  · obtain ⟨w, k, rfl, hw, hk⟩ : ∃ w k, o = 4 * w + k ∧ w < 2 ∧ k + data.length ≤ 4 := by
      obtain ⟨hn, hfit, hsub⟩ := (Machine.wellShaped_iff o data.length).1 h
      exact ⟨o / 4, o % 4, by omega, by omega, by omega⟩
    match data with
    | [] => cases h
    | [_] | [_, _] | [_, _, _] | [_, _, _, _] =>
      simp only [List.length_cons, List.length_nil, Nat.reduceAdd, Nat.reduceLeDiff] at hk
      interval_cases w <;> interval_cases k <;> exact ⟨rfl, rfl⟩
    | _ :: _ :: _ :: _ :: _ :: _ => simp only [List.length_cons] at hk; omega
  · rw [Bool.not_eq_true] at h
    rw [Machine.guestWrite_of_malformed o data h, Instr.wellFormed, h]
    exact ⟨rfl, rfl⟩

/-- What a host row decodes is well-formed, and the encoder writes its code and its operands. The cases are the rows
in the order of rule R101, and last the codes that no row assigns. -/
theorem decodeHost_canonical {code : Nat} {xs : List Nat} {i : Instr} (h : decodeHost code xs = .ok i) :
    i.wellFormed = true ∧ encode i = .coded (hostDescriptor code) xs := by
  unfold decodeHost at h
  split at h
  case h_30 => cases h
  all_goals rw [orBadOperands_eq_ok] at h
  case h_1 | h_27 | h_28 => obtain ⟨rfl, rfl⟩ := finish_eq_some.1 h; exact ⟨rfl, rfl⟩
  case h_2 => obtain ⟨_, _, _, _, _, _, _, _, _, _, rfl, rfl⟩ := decodeFnNewT0_eq_some.1 h; exact ⟨rfl, rfl⟩
  case h_3 => obtain ⟨_, _, _, _, _, _, _, _, rfl, rfl⟩ := decodeFnNewT1_eq_some.1 h; exact ⟨rfl, rfl⟩
  case h_4 | h_5 | h_6 => obtain ⟨_, _, rfl, rfl⟩ := decodeNew_eq_some.1 h; exact ⟨rfl, rfl⟩
  case h_7 | h_9 => obtain ⟨_, _, _, rfl, rfl⟩ := decodeFnNatNat_eq_some.1 h; exact ⟨rfl, rfl⟩
  case h_8 | h_10 => obtain ⟨_, _, _, _, rfl, rfl⟩ := decodeFnNatNatBits_eq_some.1 h; exact ⟨rfl, rfl⟩
  case h_11 => obtain ⟨_, _, rfl, rfl⟩ := decodeCsRd32_eq_some.1 h; exact ⟨rfl, rfl⟩
  case h_12 => obtain ⟨_, _, _, rfl, rfl⟩ := decodeCsWr32_eq_some.1 h; exact ⟨rfl, rfl⟩
  case h_13 => obtain ⟨_, _, rfl, rfl⟩ := decodeDevAddFn_eq_some.1 h; exact ⟨rfl, rfl⟩
  case h_14 => obtain ⟨_, _, rfl, rfl⟩ := decodeDevGetFn_eq_some.1 h; exact ⟨rfl, rfl⟩
  case h_15 | h_16 => obtain ⟨_, _, _, rfl, rfl⟩ := decodeDevNatNat_eq_some.1 h; exact ⟨rfl, rfl⟩
  case h_17 => obtain ⟨_, _, _, _, _, rfl, rfl⟩ := decodeDevWr_eq_some.1 h; exact ⟨rfl, rfl⟩
  case h_18 => obtain ⟨_, _, rfl, rfl⟩ := decodeBusAddBus_eq_some.1 h; exact ⟨rfl, rfl⟩
  case h_19 => obtain ⟨_, _, rfl, rfl⟩ := decodeBusAddDev_eq_some.1 h; exact ⟨rfl, rfl⟩
  case h_20 | h_21 => obtain ⟨_, _, rfl, rfl⟩ := decodeBusNat_eq_some.1 h; exact ⟨rfl, rfl⟩
  case h_22 | h_23 => obtain ⟨_, _, _, rfl, rfl⟩ := decodeBusNatNat_eq_some.1 h; exact ⟨rfl, rfl⟩
  case h_24 => obtain ⟨_, _, _, _, _, rfl, rfl⟩ := decodeBusRd_eq_some.1 h; exact ⟨rfl, rfl⟩
  case h_25 => obtain ⟨_, _, _, _, _, _, _, rfl, rfl⟩ := decodeBusWr_eq_some.1 h; exact ⟨rfl, rfl⟩
  case h_26 | h_29 => obtain ⟨_, _, rfl, rfl⟩ := decodeOffsetData_eq_some.1 h; exact ⟨rfl, rfl⟩

/-- A descriptor with its operands has one meaning only: the encoder writes the very same one. -/
theorem decode_coded_canonical {D : BitVec 16} {operands : List Nat} {i : Instr}
    (h : decode (.coded D operands) = .ok i) : i.wellFormed = true ∧ encode i = .coded D operands := by
  cases descriptor_form D with
  | read n o hn ho =>
    obtain ⟨rfl, rfl⟩ := (decode_readDescriptor hn ho).1 h
    obtain ⟨hwf, hencode⟩ := guestRead_canonical o n
    exact ⟨hwf, hencode.trans (if_pos ⟨ho, hn⟩)⟩
  | write n o hn ho =>
    obtain ⟨data, rfl, rfl, rfl⟩ := (decode_writeDescriptor hn ho).1 h
    obtain ⟨hwf, hencode⟩ := guestWrite_canonical o data
    exact ⟨hwf, hencode.trans (if_pos ⟨ho, hn⟩)⟩
  | host code hcode => exact decodeHost_canonical (decode_hostDescriptor hcode ▸ h)
  | reserved _ hD => rw [hD] at h; cases h

/-- Settles O1, row by row: the row's decoder takes the operand list that the encoder writes. -/
theorem decodeOfEncode : Obligations.DecodeOfEncode := by
  intro i hi
  cases i with
  | cfgAddrRd8 k | cfgAddrRd16 k | cfgAddrRd24 k | cfgDataRd8 k | cfgDataRd16 k | cfgDataRd24 k =>
    exact (decode_encodeRead _ _).trans (by fin_cases k <;> rfl)
  | cfgAddrRd32 | cfgDataRd32 => exact decode_encodeRead _ _
  | cfgAddrWr8 k | cfgAddrWr16 k | cfgAddrWr24 k | cfgDataWr8 k | cfgDataWr16 k | cfgDataWr24 k =>
    exact (decode_encodeWrite _ _).trans (by fin_cases k <;> rfl)
  | cfgAddrWr32 | cfgDataWr32 => exact decode_encodeWrite _ _
  | portRdBad o n =>
    rw [Instr.wellFormed, Bool.not_eq_true'] at hi
    exact (decode_encodeRead o n).trans (congrArg _ (Machine.guestRead_of_malformed o n hi))
  | portWrBad o data =>
    rw [Instr.wellFormed, Bool.not_eq_true'] at hi
    exact (decode_encodeWrite o data).trans (congrArg _ (Machine.guestWrite_of_malformed o data hi))
  | rcNew | rcParseAddr | rcReadSpace => rfl
  | fnNewT0 => exact orBadOperands_eq_ok.2 (decodeFnNewT0_eq_some.2 ⟨_, _, _, _, _, _, _, _, _, _, rfl, rfl⟩)
  | fnNewT1 => exact orBadOperands_eq_ok.2 (decodeFnNewT1_eq_some.2 ⟨_, _, _, _, _, _, _, _, rfl, rfl⟩)
  | devNew | devNewDummy | busNew => exact orBadOperands_eq_ok.2 (decodeNew_eq_some.2 ⟨_, _, rfl, rfl⟩)
  | csRd8 | csRd16 => exact orBadOperands_eq_ok.2 (decodeFnNatNat_eq_some.2 ⟨_, _, _, rfl, rfl⟩)
  | csWr8 | csWr16 => exact orBadOperands_eq_ok.2 (decodeFnNatNatBits_eq_some.2 ⟨_, _, _, _, rfl, rfl⟩)
  | csRd32 => exact orBadOperands_eq_ok.2 (decodeCsRd32_eq_some.2 ⟨_, _, rfl, rfl⟩)
  | csWr32 => exact orBadOperands_eq_ok.2 (decodeCsWr32_eq_some.2 ⟨_, _, _, rfl, rfl⟩)
  | devAddFn => exact orBadOperands_eq_ok.2 (decodeDevAddFn_eq_some.2 ⟨_, _, rfl, rfl⟩)
  | devGetFn => exact orBadOperands_eq_ok.2 (decodeDevGetFn_eq_some.2 ⟨_, _, rfl, rfl⟩)
  | devRemoveFn | devRd => exact orBadOperands_eq_ok.2 (decodeDevNatNat_eq_some.2 ⟨_, _, _, rfl, rfl⟩)
  | devWr => exact orBadOperands_eq_ok.2 (decodeDevWr_eq_some.2 ⟨_, _, _, _, _, rfl, rfl⟩)
  | busAddBus => exact orBadOperands_eq_ok.2 (decodeBusAddBus_eq_some.2 ⟨_, _, rfl, rfl⟩)
  | busAddDev => exact orBadOperands_eq_ok.2 (decodeBusAddDev_eq_some.2 ⟨_, _, rfl, rfl⟩)
  | busGetBus | busGetDev => exact orBadOperands_eq_ok.2 (decodeBusNat_eq_some.2 ⟨_, _, rfl, rfl⟩)
  | busRemoveBus | busRemoveDev => exact orBadOperands_eq_ok.2 (decodeBusNatNat_eq_some.2 ⟨_, _, _, rfl, rfl⟩)
  | busRd => exact orBadOperands_eq_ok.2 (decodeBusRd_eq_some.2 ⟨_, _, _, _, _, rfl, rfl⟩)
  | busWr => exact orBadOperands_eq_ok.2 (decodeBusWr_eq_some.2 ⟨_, _, _, _, _, _, _, rfl, rfl⟩)
  | rcSetAddr | rcWriteSpace => exact orBadOperands_eq_ok.2 (decodeOffsetData_eq_some.2 ⟨_, _, rfl, rfl⟩)

/-- Settles O2. Bare reads and writes are the rows of their spans, and a descriptor with its operands is canonical. -/
theorem decodedOperationsAreCanonical : Obligations.DecodedOperationsAreCanonical := by
  intro op i h
  cases op with
  | read o n => cases h; exact ⟨(guestRead_canonical o n).1, fun _ _ hop => by cases hop⟩
  | write o data => cases h; exact ⟨(guestWrite_canonical o data).1, fun _ _ hop => by cases hop⟩
  | coded D operands =>
    obtain ⟨hwf, hencode⟩ := decode_coded_canonical h
    exact ⟨hwf, fun _ _ _ => hencode⟩

end Sys2Proof
end

section
/-! PROOFS. The opcode map as data (rules R99 to R101): its rows do not overlap, except that each malformed row takes
what the well-shaped rows before it leave. -/

namespace Sys2Proof

/-! ## The rows and what they take -/

/-- A row takes a descriptor that matches it and keeps its guard (rule R99). -/
def OpcodeRow.takes (row : OpcodeRow) (D : BitVec 16) : Bool :=
  decide (D &&& row.mask = row.pattern) && decide (D.toNat % 4 ≤ row.maxOffset)

theorem OpcodeRow.takes_iff {row : OpcodeRow} {D : BitVec 16} :
    row.takes D = true ↔ D &&& row.mask = row.pattern ∧ D.toNat % 4 ≤ row.maxOffset := by
  simp [takes]

theorem rowOf_eq_find? (D : BitVec 16) : rowOf D = opcodeRows.find? (·.takes D) := rfl

/-- The rows of well-shaped spans: the guest rows before the two malformed ones. -/
def spanRows : List OpcodeRow := guestRows.take 16

/-- Two patterns that differ under both masks match no common descriptor; a row may overlap an earlier one only as a
malformed row overlaps the rows of well-shaped spans. -/
def OpcodeRow.Precedes (earlier row : OpcodeRow) : Prop :=
  earlier.pattern &&& row.mask ≠ row.pattern &&& earlier.mask ∨ row.mask = 0xF000#16 ∧ earlier ∈ spanRows

theorem opcodeRows_pairwise : opcodeRows.Pairwise OpcodeRow.Precedes := by
  unfold OpcodeRow.Precedes
  decide

/-- A row of well-shaped spans fixes all of a descriptor but the two lowest bits. -/
theorem eq_of_takes {row : OpcodeRow} {D : BitVec 16} (hrow : row ∈ spanRows) (h : row.takes D = true) :
    ∃ k < 4, D = row.pattern ||| BitVec.ofNat 16 k := by
  have hmask : ∀ row ∈ spanRows, row.mask ||| 3 = 0xFFFF#16 := by decide
  obtain ⟨hmatch, -⟩ := OpcodeRow.takes_iff.1 h
  refine ⟨(D &&& 3).toNat, ?_, ?_⟩
  · exact Nat.lt_of_le_of_lt Nat.and_le_right (by decide)
  · calc D = D &&& (row.mask ||| 3) := by rw [hmask row hrow]; exact BitVec.and_allOnes.symm
      _ = row.pattern ||| (D &&& 3) := by rw [BitVec.and_or_distrib_left, hmatch]
      _ = row.pattern ||| BitVec.ofNat 16 (D &&& 3).toNat := by rw [BitVec.ofNat_toNat, BitVec.setWidth_eq]

theorem wellShaped_of_takes {row : OpcodeRow} {D : BitVec 16} (hrow : row ∈ spanRows) (h : row.takes D = true) :
    wellShaped (descriptorLow D) (descriptorCount D) = true := by
  have hspans : ∀ row ∈ spanRows, ∀ k < 4, row.takes (row.pattern ||| BitVec.ofNat 16 k) = true →
      wellShaped (descriptorLow (row.pattern ||| BitVec.ofNat 16 k))
        (descriptorCount (row.pattern ||| BitVec.ofNat 16 k)) = true := by decide
  obtain ⟨k, hk, rfl⟩ := eq_of_takes hrow h
  exact hspans row hrow k hk h

/-- The first entry of a list with a property, where whatever precedes an entry with the property lacks it. -/
theorem find?_eq_some_of_pairwise {α : Type} {R : α → α → Prop} {p : α → Bool} {l : List α} {x : α}
    (hl : l.Pairwise R) (hx : x ∈ l) (hp : p x = true) (hbefore : ∀ y, R y x → p y = false) :
    l.find? p = some x := by
  obtain ⟨before, after, rfl⟩ := List.append_of_mem hx
  obtain ⟨-, -, hcross⟩ := List.pairwise_append.1 hl
  refine List.find?_eq_some_iff_append.2 ⟨hp, before, after, rfl, fun y hy => ?_⟩
  rw [hbefore y (hcross y hy x List.mem_cons_self), Bool.not_false]

/-! ## The row of an operation -/

open Laws in
/-- Every operation has its row in the opcode map: the statements of Laws/PerInstr.lean together. -/
theorem rowMatch (i : Instr) : RowMatch.Statement i := by
  cases i
  exacts [
    RowMatch.cfgAddrRd8 .., RowMatch.cfgAddrRd16 .., RowMatch.cfgAddrRd24 .., RowMatch.cfgAddrRd32 ..,
    RowMatch.cfgAddrWr8 .., RowMatch.cfgAddrWr16 .., RowMatch.cfgAddrWr24 .., RowMatch.cfgAddrWr32 ..,
    RowMatch.cfgDataRd8 .., RowMatch.cfgDataRd16 .., RowMatch.cfgDataRd24 .., RowMatch.cfgDataRd32 ..,
    RowMatch.cfgDataWr8 .., RowMatch.cfgDataWr16 .., RowMatch.cfgDataWr24 .., RowMatch.cfgDataWr32 ..,
    RowMatch.portRdBad .., RowMatch.portWrBad .., RowMatch.rcNew .., RowMatch.fnNewT0 .., RowMatch.fnNewT1 ..,
    RowMatch.devNew .., RowMatch.devNewDummy .., RowMatch.busNew .., RowMatch.csRd8 .., RowMatch.csWr8 ..,
    RowMatch.csRd16 .., RowMatch.csWr16 .., RowMatch.csRd32 .., RowMatch.csWr32 .., RowMatch.devAddFn ..,
    RowMatch.devGetFn .., RowMatch.devRemoveFn .., RowMatch.devRd .., RowMatch.devWr .., RowMatch.busAddBus ..,
    RowMatch.busAddDev .., RowMatch.busGetBus .., RowMatch.busGetDev .., RowMatch.busRemoveBus ..,
    RowMatch.busRemoveDev .., RowMatch.busRd .., RowMatch.busWr .., RowMatch.rcSetAddr .., RowMatch.rcParseAddr ..,
    RowMatch.rcReadSpace .., RowMatch.rcWriteSpace ..]

theorem span_of_encodeRead {o n : Nat} {D : BitVec 16} {operands : List Nat}
    (h : encodeRead o n = .coded D operands) : descriptorLow D = o ∧ descriptorCount D = n := by
  unfold encodeRead at h
  split at h
  · next hfits =>
    cases h
    obtain ⟨-, -, hcount, hlow⟩ := guestDescriptor_fields 0 n o (by decide) hfits.2 hfits.1
    exact ⟨hlow, hcount⟩
  · cases h

theorem span_of_encodeWrite {o : Nat} {data : List Byte} {D : BitVec 16} {operands : List Nat}
    (h : encodeWrite o data = .coded D operands) : descriptorLow D = o ∧ descriptorCount D = data.length := by
  unfold encodeWrite at h
  split at h
  · next hfits =>
    cases h
    obtain ⟨-, -, hcount, hlow⟩ := guestDescriptor_fields 1 data.length o (by decide) hfits.2 hfits.1
    exact ⟨hlow, hcount⟩
  · cases h

/-- An operation whose row is a malformed one has a malformed span. -/
theorem malformed_of_mask {row : OpcodeRow} {i : Instr} {D : BitVec 16} {operands : List Nat}
    (hrow : row ∈ opcodeRows) (hmask : row.mask = 0xF000#16) (hname : row.mnemonic = i.mnemonic)
    (hi : i.wellFormed = true) (h : encode i = .coded D operands) :
    wellShaped (descriptorLow D) (descriptorCount D) = false := by
  have hnames : ∀ row ∈ opcodeRows, row.mask = 0xF000#16 →
      row.mnemonic = "PORT_RD_BAD" ∨ row.mnemonic = "PORT_WR_BAD" := by decide
  have hi_name := hname ▸ hnames row hrow hmask
  cases i with
  | portRdBad o n =>
    obtain ⟨hlow, hcount⟩ := span_of_encodeRead h
    rw [hlow, hcount]
    exact Bool.not_eq_true' _ ▸ hi
  | portWrBad o data =>
    obtain ⟨hlow, hcount⟩ := span_of_encodeWrite h
    rw [hlow, hcount]
    exact Bool.not_eq_true' _ ▸ hi
  | _ => simp [Instr.mnemonic] at hi_name

/-- The first row that takes the descriptor of an operation is the row with the operation's mnemonic. -/
theorem rowOf_encode {i : Instr} {D : BitVec 16} {operands : List Nat} (hi : i.wellFormed = true)
    (h : encode i = .coded D operands) : (rowOf D).map OpcodeRow.mnemonic = some i.mnemonic := by
  obtain ⟨row, hrow, hname, hmatch⟩ := rowMatch i
  have htakes : row.takes D = true := OpcodeRow.takes_iff.2 (hmatch D operands h)
  have hbefore : ∀ earlier : OpcodeRow, earlier.Precedes row → earlier.takes D = false := by
    intro earlier hprec
    by_contra hearlier
    rw [Bool.not_eq_false] at hearlier
    obtain hdisjoint | ⟨hmask, hspan⟩ := hprec
    · obtain ⟨hD, -⟩ := OpcodeRow.takes_iff.1 htakes
      obtain ⟨hD', -⟩ := OpcodeRow.takes_iff.1 hearlier
      exact hdisjoint (by rw [← hD, ← hD', BitVec.and_assoc, BitVec.and_assoc, BitVec.and_comm row.mask])
    · have hshape := wellShaped_of_takes hspan hearlier
      rw [malformed_of_mask hrow hmask hname hi h] at hshape
      cases hshape
  rw [rowOf_eq_find?, find?_eq_some_of_pairwise opcodeRows_pairwise hrow htakes hbefore, Option.map_some, hname]

/-! ## Descriptors that no row takes, and descriptors that a row takes -/

/-- A code that no host row assigns is refused (rule R101). -/
theorem decodeHost_unassigned {code : Nat} (h : ∀ c ∈ hostCodes, c.1 ≠ BitVec.ofNat 16 code) (xs : List Nat) :
    decodeHost code xs = .error .unassignedCode := by
  unfold decodeHost
  split
  case h_30 => rfl
  all_goals exact absurd h (by decide)

/-- The row of a host code takes that code's descriptor. -/
theorem hostRow_mem {c : BitVec 16 × String} (hc : c ∈ hostCodes) :
    ⟨c.2, 0x8000#16 ||| c.1, 0xFFFF, 3⟩ ∈ opcodeRows :=
  List.mem_append_right _ (List.mem_map_of_mem hc)

theorem takes_of_pattern {row : OpcodeRow} {D : BitVec 16} (hmatch : D &&& row.mask = row.pattern)
    (hguard : row.maxOffset = 3) : row.takes D = true :=
  OpcodeRow.takes_iff.2 ⟨hmatch, hguard ▸ Nat.le_of_lt_succ (Nat.mod_lt _ (by decide))⟩

/-- A form that is not reserved and lies in no row can only be a host descriptor with an unassigned code. -/
theorem refused_of_no_row {D : BitVec 16} (h : rowOf D = none) (operands : List Nat) :
    ∃ e, decode (.coded D operands) = .error e ∧ e ≠ .badOperands := by
  have hnone : ∀ row ∈ opcodeRows, row.takes D ≠ true := List.find?_eq_none.1 h
  cases descriptor_form D with
  | read n o =>
    exact absurd (takes_of_pattern (Laws.guestDescriptor_top _ _ _) rfl)
      (hnone ⟨"PORT_RD_BAD", 0x0000, 0xF000, 3⟩ (by decide))
  | write n o =>
    exact absurd (takes_of_pattern (Laws.guestDescriptor_top _ _ _) rfl)
      (hnone ⟨"PORT_WR_BAD", 0x4000, 0xF000, 3⟩ (by decide))
  | host code hcode =>
    have hcodes : ∀ c ∈ hostCodes, c.1 ≠ BitVec.ofNat 16 code := fun c hc heq =>
      hnone _ (hostRow_mem hc) (takes_of_pattern (heq ▸ BitVec.and_allOnes) rfl)
    exact ⟨.unassignedCode, (decode_hostDescriptor hcode).trans (decodeHost_unassigned hcodes operands), by decide⟩
  | reserved he hD => exact ⟨_, hD operands, he⟩

/-- What a guest row takes has a guest class and no reserved bit set (rule R98), so that it is a read without operands
or a write with as many data bytes as it counts. -/
theorem decodes_of_guestRow {row : OpcodeRow} {D : BitVec 16} (hrow : row ∈ guestRows) (h : row.takes D = true) :
    ∃ operands i, decode (.coded D operands) = .ok i := by
  have htops : ∀ row ∈ guestRows, row.mask &&& 0xF000#16 = 0xF000#16 ∧
      (row.pattern &&& 0xF000#16 = 0x0000#16 ∨ row.pattern &&& 0xF000#16 = 0x4000#16) := by decide
  obtain ⟨hmask, hpattern⟩ := htops row hrow
  obtain ⟨hmatch, -⟩ := OpcodeRow.takes_iff.1 h
  have htop : D &&& 0xF000#16 = row.pattern &&& 0xF000#16 := by rw [← hmatch, BitVec.and_assoc, hmask]
  have hclass : descriptorClass D = descriptorClass (D &&& 0xF000#16) := by
    rw [descriptorClass, descriptorClass, BitVec.extractLsb'_and]
    exact congrArg BitVec.toNat BitVec.and_allOnes.symm
  have hzero : descriptorGuestZero D = descriptorGuestZero (D &&& 0xF000#16) := by
    rw [descriptorGuestZero, descriptorGuestZero, BitVec.extractLsb'_and]
    exact congrArg BitVec.toNat BitVec.and_allOnes.symm
  rw [htop] at hclass hzero
  obtain hpattern | hpattern := hpattern <;> rw [hpattern] at hclass hzero <;> rw [eq_guestDescriptor hzero, hclass]
  · exact ⟨[], _, (decode_readDescriptor (descriptorCount_lt D) (descriptorLow_lt D)).2 ⟨rfl, rfl⟩⟩
  · exact ⟨_, _, (decode_writeDescriptor (descriptorCount_lt D) (descriptorLow_lt D)).2
      ⟨List.replicate _ 0, List.length_replicate.symm, rfl, rfl⟩⟩

/-- Every host code decodes with the zero operands that `tableWordOp` gives it. -/
theorem decodes_of_hostCode {c : BitVec 16 × String} (hc : c ∈ hostCodes) :
    ∃ operands i, decode (.coded (0x8000#16 ||| c.1) operands) = .ok i := by
  have hcodes : ∀ c ∈ hostCodes, (decode (tableWordOp 16 (0x8000#16 ||| c.1).toNat)).isOk = true := by decide
  have hok := hcodes c hc
  have hword : BitVec.ofNat 16 ((0x8000#16 ||| c.1).toNat % 2 ^ 16) = 0x8000#16 ||| c.1 := by
    rw [Nat.mod_eq_of_lt (BitVec.isLt _), BitVec.ofNat_toNat, BitVec.setWidth_eq]
  rw [tableWordOp, hword] at hok
  generalize Option.getD _ [] = operands at hok
  cases hdecode : decode (.coded (0x8000#16 ||| c.1) operands) with
  | ok i => exact ⟨operands, i, hdecode⟩
  | error e => rw [hdecode] at hok; cases hok

/-- Settles O3: the encoder's descriptor is taken by the operation's row and by no row before it; a descriptor that no
row takes is reserved or has an unassigned code; one that a row takes is a guest span or a host code of the map. -/
theorem decoderTakesFirstMatchingRow : Obligations.DecoderTakesFirstMatchingRow := by
  refine ⟨fun D operands i h => ?_, fun D h operands => refused_of_no_row h operands, fun D row h => ?_⟩
  · obtain ⟨hi, hencode⟩ := decode_coded_canonical h
    exact rowOf_encode hi hencode
  · have htakes : row.takes D = true := List.find?_some (p := fun row => OpcodeRow.takes row D) h
    obtain hguest | hhost := List.mem_append.1 (List.mem_of_find?_eq_some h)
    · exact decodes_of_guestRow hguest htakes
    · obtain ⟨c, hc, rfl⟩ := List.mem_map.1 hhost
      obtain ⟨hmatch, -⟩ := OpcodeRow.takes_iff.1 htakes
      have hD : D = 0x8000#16 ||| c.1 := BitVec.and_allOnes.symm.trans hmatch
      exact hD ▸ decodes_of_hostCode hc

end Sys2Proof
end

section
/-! PROOFS. Sample words, spans without a descriptor, and what a port transaction results in (rules R98, R230, R231 and
R273). -/

namespace Sys2Proof.Machine

/-- Settles O4. -/
theorem sampleWordsDecode : Obligations.SampleWordsDecode :=
  ⟨rfl, rfl, rfl, rfl, rfl, rfl, rfl, rfl, rfl, rfl, rfl, rfl, rfl, rfl, rfl⟩

/-- Settles O8: such a span is not well-shaped. -/
theorem spansWithoutDescriptorAreMalformed : Obligations.SpansWithoutDescriptorAreMalformed := by
  have hmalformed : ∀ o n, 256 ≤ o ∨ 16 ≤ n → wellShaped o n = false := by
    intro o n h
    rw [← Bool.not_eq_true, wellShaped_iff]
    omega
  exact fun o => ⟨fun n h => congrArg _ (guestRead_of_malformed o n (hmalformed o n h)),
    fun data h => congrArg _ (guestWrite_of_malformed o data (hmalformed o data.length h))⟩

@[simp] theorem portRead_length (s : State) (o n : Nat) : (portRead s o n).length = n := by
  unfold portRead
  split
  · exact bytesLE_length _ _ _
  · exact List.length_replicate

/-- A port write changes at most `CA` or register contents (rules R210, R214 and R231). -/
theorem stateBare_portWrite (s : State) (o : Nat) (data : List Byte) :
    stateBare (portWrite s o data) = stateBare (setCa s (portWrite s o data).ca) := by
  unfold portWrite
  split
  · split
    · obtain ⟨v, hv⟩ := setAddress_eq s o data
      rw [hv]
      rfl
    · rw [stateBare_writeSpace, writeSpace_ca]
      rfl
  · rfl

/-- Whoever presents a port write, the step performs it on the window and returns nothing (rule R231). -/
theorem step_of_write {s : State} {a : Agent} {o : Nat} {data : List Byte} {rest : List Request}
    (hp : s.pending = ⟨a, .write o data⟩ :: rest) :
    step s = .next (answer (portWrite (taken s rest a) o data) .nothing) :=
  (step_of_operation hp rfl).trans (exec_guestWrite o data _)

/-- Settles O7. -/
theorem everyPortTransactionHasAResult : Obligations.EveryPortTransactionHasAResult := by
  refine ⟨fun s a o n rest hp => ⟨portRead s o n, portRead_length s o n, step_of_read hp⟩,
    fun s a o data rest hp => ⟨_, step_of_write hp, ?_⟩⟩
  rw [stateBare_answer, stateBare_portWrite, answer_ca, stateBare_answer]

end Sys2Proof.Machine
end

section
/-! PROOFS. When an operation is refused (rules R94 and R278). -/

namespace Sys2Proof.Machine

/-- The outcome of an operation whose names are all there (`named`) or not: it completes, or it is refused. -/
def CompletesIff (named : Bool) (r : Result) : Prop :=
  (named = false → r = .refused .noSuchNode) ∧ (named = true → ∃ t, r = .next t)

theorem CompletesIff.of_next {r : Result} {t : State} (h : r = .next t) : CompletesIff true r :=
  ⟨nofun, fun _ => ⟨t, h⟩⟩

/-- An operation on a node is refused exactly when the name names none, or when the rest of it is. -/
theorem CompletesIff.onNode_and {α : Type} {node : Option α} {run : α → Result} {named : Bool}
    (h : ∀ x, CompletesIff named (run x)) : CompletesIff (node.isSome && named) (onNode node run) := by
  cases node with
  | none => exact ⟨fun _ => rfl, nofun⟩
  | some x => exact h x

theorem CompletesIff.onNode {α : Type} {node : Option α} {run : α → Result} (h : ∀ x, ∃ t, run x = .next t) :
    CompletesIff node.isSome (onNode node run) := by
  have hrun : ∀ x, CompletesIff true (run x) := fun x => .of_next (h x).choose_spec
  simpa only [Bool.and_true] using onNode_and (node := node) hrun

/-- Both checks of an add complete: a structural error is a result (rule R271). -/
theorem checkedAdd_completes {number bound : Nat} {full : Bool} {s t : State} {e₁ e₂ : StructuralError} :
    ∃ u, (if number ≥ bound then raise s e₁ else if full then raise s e₂ else .next t) = .next u := by
  split
  · exact ⟨_, rfl⟩
  · split <;> exact ⟨_, rfl⟩

/-- Settles O34, by the nodes that each operation names. -/
theorem operationsAreRefusedExactlyForMissingNodes : Obligations.OperationsAreRefusedExactlyForMissingNodes := by
  intro i s
  change CompletesIff (namesNodes s i) (exec i s)
  cases i with
  | csRd8 | csWr8 | csRd16 | csWr16 | csRd32 | csWr32 | devGetFn | devRd | devWr | busGetBus | busGetDev | busRd
  | busWr => exact .onNode fun _ => ⟨_, rfl⟩
  | devRemoveFn u f dst => exact .onNode fun D => by split <;> exact ⟨_, rfl⟩
  | busRemoveBus p b dst => exact .onNode fun B => by split <;> exact ⟨_, rfl⟩
  | busRemoveDev p d dst => exact .onNode fun B => by split <;> exact ⟨_, rfl⟩
  | devAddFn | busAddBus | busAddDev => exact .onNode_and fun _ => .onNode fun _ => checkedAdd_completes
  | _ => exact .of_next rfl

end Sys2Proof.Machine
end

section
/-! PROOFS. The register file by its accessors (40_configuration_space.md): what each register access does to a state,
said once through the registers that names reach (`regAt`), and a function constructor's header. -/

namespace Sys2Proof.Machine

/-! ## Registers by name -/

theorem regAt_of_fnAt {s : State} {u : FnRef} {F : Function} (hF : fnAt s u = some F) (r : Nat) :
    regAt s u r = csRead32 F.cs r := by
  simp only [regAt, hF]

theorem fnAt_of_regAt {s : State} {u : FnRef} {r : Nat} {v : Dword} (h : regAt s u r = some v) :
    ∃ F, fnAt s u = some F := by
  cases hF : fnAt s u with
  | none => simp [regAt, hF] at h
  | some F => exact ⟨F, rfl⟩

theorem regAt_eq_none {s : State} {u : FnRef} {F : Function} {r : Nat} (hF : fnAt s u = some F) (hr : 1024 ≤ r) :
    regAt s u r = none :=
  (regAt_of_fnAt hF r).trans (csRead32_eq_none.2 hr)

theorem exists_regAt {s : State} {u : FnRef} {F : Function} {r : Nat} (hF : fnAt s u = some F) (hr : r < 1024) :
    ∃ v, regAt s u r = some v :=
  ⟨F.cs[r], (regAt_of_fnAt hF r).trans (Vector.getElem?_eq_getElem hr)⟩

theorem onNode_of_eq_some {α : Type} {node : Option α} {x : α} (h : node = some x) (run : α → Result) :
    onNode node run = run x :=
  h ▸ rfl

/-! ## The three reads (rules R120, R122 and R124) -/

section Reads
variable {s : State} {u : FnRef} {F : Function}

theorem exec_csRd8 (hF : fnAt s u = some F) (r o : Nat) :
    exec (.csRd8 u r o) s =
      .next (answer s (.byte (if o < 4 then (regAt s u r).map (lane · o) else none))) := by
  rw [regAt_of_fnAt hF]
  exact onNode_of_eq_some hF _

theorem exec_csRd16 (hF : fnAt s u = some F) (r h : Nat) :
    exec (.csRd16 u r h) s =
      .next (answer s (.half (if h < 2 then (regAt s u r).map (half · h) else none))) := by
  rw [regAt_of_fnAt hF]
  exact onNode_of_eq_some hF _

theorem exec_csRd32 (hF : fnAt s u = some F) (r : Nat) :
    exec (.csRd32 u r) s = .next (answer s (.dword (regAt s u r))) := by
  rw [regAt_of_fnAt hF]
  exact onNode_of_eq_some hF _

theorem exec_csRd8_of_regAt {r o : Nat} {v : Dword} (hv : regAt s u r = some v) (ho : o < 4) :
    exec (.csRd8 u r o) s = .next (answer s (.byte (some (lane v o)))) := by
  obtain ⟨F, hF⟩ := fnAt_of_regAt hv
  rw [exec_csRd8 hF, hv, if_pos ho]
  rfl

theorem exec_csRd16_of_regAt {r h : Nat} {v : Dword} (hv : regAt s u r = some v) (hh : h < 2) :
    exec (.csRd16 u r h) s = .next (answer s (.half (some (half v h)))) := by
  obtain ⟨F, hF⟩ := fnAt_of_regAt hv
  rw [exec_csRd16 hF, hv, if_pos hh]
  rfl

theorem exec_csRd32_of_regAt {r : Nat} {v : Dword} (hv : regAt s u r = some v) :
    exec (.csRd32 u r) s = .next (answer s (.dword (some v))) := by
  obtain ⟨F, hF⟩ := fnAt_of_regAt hv
  rw [exec_csRd32 hF, hv]

end Reads

/-- Settles O36, by whether the index lies in the register file. -/
theorem registerReads : Obligations.RegisterReads := by
  intro s u F hF r
  by_cases hr : r < 1024
  · have hv : regAt s u r = some F.cs[r] := (regAt_of_fnAt hF r).trans (Vector.getElem?_eq_getElem hr)
    refine ⟨fun o => ?_, fun h => ?_, ?_⟩
    · rw [exec_csRd8 hF, hv]
      by_cases ho : o < 4 <;> simp [ho, hr, lane]
    · rw [exec_csRd16 hF, hv]
      by_cases hh : h < 2 <;> simp [hh, hr, half]
    · rw [exec_csRd32 hF, hv, dif_pos hr]
  · have hv : regAt s u r = none := regAt_eq_none hF (Nat.le_of_not_lt hr)
    refine ⟨fun o => ?_, fun h => ?_, ?_⟩
    · rw [exec_csRd8 hF, hv]
      simp [hr]
    · rw [exec_csRd16 hF, hv]
      simp [hr]
    · rw [exec_csRd32 hF, hv, dif_neg hr]

/-! ## The three writes (rules R121, R123 and R125) -/

/-- `t` is what a register write leaves of `s`: the register `r` of the function that `u` names takes its image under
`g`; the topology, `CA` and every register under every other name keep their values. -/
structure WritesRegister (s t : State) (u : FnRef) (r : Nat) (g : Dword → Dword) : Prop where
  bare : stateBare t = stateBare (answer s .nothing)
  frame : ∀ w q, (w, q) ≠ (u, r) → regAt t w q = regAt s w q
  target : regAt t u r = (regAt s u r).map g

/-- An absent register is written by dropping the write. -/
theorem WritesRegister.regAt_of_absent {s t : State} {u : FnRef} {r : Nat} {g : Dword → Dword}
    (h : WritesRegister s t u r g) (habsent : regAt s u r = none) (w : FnRef) (q : Nat) :
    regAt t w q = regAt s w q := by
  by_cases he : (w, q) = (u, r)
  · cases he
    rw [h.target, habsent]
    rfl
  · exact h.frame w q he

/-- A change of one register of a register file, made in the function that a name reaches. -/
theorem writesRegister_updateFn (s : State) (u : FnRef) (r : Nat) {g : Dword → Dword} {k : ConfigSpace → ConfigSpace}
    (hk : ∀ cs q, csRead32 (k cs) q = if q = r then (csRead32 cs r).map g else csRead32 cs q) :
    WritesRegister s (answer (updateFn s u (fun F => withSpace F (k F.cs))) .nothing) u r g where
  bare := by
    have hbare : ∀ F, fnBare (withSpace F (k F.cs)) = fnBare F := fun _ => rfl
    rw [stateBare_answer, stateBare_updateFn s u _ hbare, stateBare_answer]
  frame w q hne := by
    rw [regAt_answer]
    exact regAt_updateFn_of_ne s u w r q _ (fun _ => rfl) (fun F hq => (hk F.cs q).trans (if_neg hq)) hne
  target := by
    rw [regAt_answer]
    unfold regAt
    rw [fnAt_updateFn_self s u (fun F => withSpace F (k F.cs)) (fun _ => rfl)]
    cases fnAt s u with
    | none => rfl
    | some F => exact (hk F.cs r).trans (if_pos rfl)

/-- A write that a guard drops is a write of the register's old value. -/
theorem guardedWrite_eq (cs : ConfigSpace) (r q : Nat) (p : Prop) [Decidable p] (g : Dword → Dword) :
    (if q = r ∧ p then (csRead32 cs r).map g else csRead32 cs q) =
      if q = r then (csRead32 cs r).map (fun v => if p then g v else v) else csRead32 cs q := by
  by_cases hp : p
  · simp only [hp, and_true, if_true]
  · by_cases hq : q = r <;> simp [hq, hp]

section Writes
variable {s : State} {u : FnRef} {F : Function}

theorem exec_csWr8 (hF : fnAt s u = some F) (r o : Nat) (b : Byte) :
    ∃ t, exec (.csWr8 u r o b) s = .next t ∧
      WritesRegister s t u r (fun v => if o < 4 then setLane v o b else v) :=
  ⟨_, onNode_eq_next.2 ⟨F, hF, rfl⟩,
    writesRegister_updateFn s u r (k := fun cs => csWrite8 cs r o b)
      fun cs q => (csRead32_csWrite8 cs r o q b).trans (guardedWrite_eq cs r q _ _)⟩

theorem exec_csWr16 (hF : fnAt s u = some F) (r h : Nat) (x : Half) :
    ∃ t, exec (.csWr16 u r h x) s = .next t ∧
      WritesRegister s t u r (fun v => if h < 2 then setHalf v h x else v) :=
  ⟨_, onNode_eq_next.2 ⟨F, hF, rfl⟩,
    writesRegister_updateFn s u r (k := fun cs => csWrite16 cs r h x)
      fun cs q => (csRead32_csWrite16 cs r h q x).trans (guardedWrite_eq cs r q _ _)⟩

theorem exec_csWr32 (hF : fnAt s u = some F) (r : Nat) (v : Dword) :
    ∃ t, exec (.csWr32 u r v) s = .next t ∧ WritesRegister s t u r (fun _ => v) :=
  ⟨_, onNode_eq_next.2 ⟨F, hF, rfl⟩,
    writesRegister_updateFn s u r (k := fun cs => csWrite32 cs r v) fun cs q => csRead32_csWrite32 cs r q v⟩

/-- In range, the addressed lane of the register takes the byte. -/
theorem exec_csWr8_of_regAt {r o : Nat} {v : Dword} (hv : regAt s u r = some v) (ho : o < 4) (b : Byte) :
    ∃ t, exec (.csWr8 u r o b) s = .next t ∧ regAt t u r = some (setLane v o b) := by
  obtain ⟨F, hF⟩ := fnAt_of_regAt hv
  obtain ⟨t, ht, hw⟩ := exec_csWr8 hF r o b
  refine ⟨t, ht, ?_⟩
  rw [hw.target, hv, Option.map_some, if_pos ho]

/-- In range, the addressed half of the register takes the half-word. -/
theorem exec_csWr16_of_regAt {r h : Nat} {v : Dword} (hv : regAt s u r = some v) (hh : h < 2) (x : Half) :
    ∃ t, exec (.csWr16 u r h x) s = .next t ∧ regAt t u r = some (setHalf v h x) := by
  obtain ⟨F, hF⟩ := fnAt_of_regAt hv
  obtain ⟨t, ht, hw⟩ := exec_csWr16 hF r h x
  refine ⟨t, ht, ?_⟩
  rw [hw.target, hv, Option.map_some, if_pos hh]

end Writes

/-- Settles O37. -/
theorem registerWrites : Obligations.RegisterWrites := by
  intro s u F hF r effect
  have heffect : ∀ {i g}, (∃ t, exec i s = .next t ∧ WritesRegister s t u r g) → effect i g :=
    fun ⟨t, ht, hw⟩ => ⟨t, ht, hw.bare, hw.frame, hw.target⟩
  exact ⟨fun o b => heffect (exec_csWr8 hF r o b), fun h x => heffect (exec_csWr16 hF r h x),
    fun v => heffect (exec_csWr32 hF r v)⟩

/-- Settles O38: the write sets one lane of one register, and a byte read returns one lane. -/
theorem byteWriteRoundTrip : Obligations.ByteWriteRoundTrip := by
  intro s t u r o b hr ho hwrite
  obtain ⟨F, hF, -⟩ := onNode_eq_next.1 hwrite
  obtain ⟨v, hv⟩ := exists_regAt hF hr
  obtain ⟨t', ht', hw⟩ := exec_csWr8 hF r o b
  cases hwrite.symm.trans ht'
  have hv' : regAt t u r = some (setLane v o b) := by rw [hw.target, hv, Option.map_some, if_pos ho]
  refine ⟨?_, fun k hk hne x hread => ?_, hw.frame⟩
  · rw [exec_csRd8_of_regAt hv' ho, lane_setLane_self v o b ho]
  · rw [exec_csRd8_of_regAt hv hk] at hread
    cases hread
    rw [exec_csRd8_of_regAt hv' hk, lane_setLane_of_ne v k o b hk ho hne]

/-- Settles O39: past the file every register is absent. -/
theorem outOfBoundsAccessesAreInert : Obligations.OutOfBoundsAccessesAreInert := by
  intro s u F r hF hr
  have habsent : regAt s u r = none := regAt_eq_none hF hr
  have hinert : ∀ {i g}, (∃ t, exec i s = .next t ∧ WritesRegister s t u r g) →
      ∃ t, exec i s = .next t ∧ ∀ w q, regAt t w q = regAt s w q :=
    fun ⟨t, ht, hw⟩ => ⟨t, ht, hw.regAt_of_absent habsent⟩
  refine ⟨fun o => ?_, fun h => ?_, ?_, fun i hi => ?_⟩
  · rw [exec_csRd8 hF, habsent, Option.map_none, ite_self]
  · rw [exec_csRd16 hF, habsent, Option.map_none, ite_self]
  · rw [exec_csRd32 hF, habsent]
  · obtain ⟨o, b, rfl⟩ | ⟨h, x, rfl⟩ | ⟨v, rfl⟩ := hi
    · exact hinert (exec_csWr8 hF r o b)
    · exact hinert (exec_csWr16 hF r h x)
    · exact hinert (exec_csWr32 hF r v)

/-! ## Several byte writes (rules R132 and R133) -/

theorem execAll_nil (s : State) : execAll [] s = .next s := rfl

/-- A run of byte writes from one dword leaves that dword's lanes where it wrote, and the old lanes elsewhere. -/
theorem execAll_byteWrites {s : State} {u : FnRef} {r : Nat} {x : Dword} (hx : regAt s u r = some x) (v : Dword)
    (ks : List Nat) (hks : ∀ k ∈ ks, k < 4) :
    ∃ t y, execAll (ks.map (fun k => .csWr8 u r k (lane v k))) s = .next t ∧ regAt t u r = some y ∧
      ∀ j < 4, lane y j = if j ∈ ks then lane v j else lane x j := by
  induction ks generalizing s x with
  | nil => exact ⟨s, x, rfl, hx, fun j _ => by simp⟩
  | cons k ks ih =>
    obtain ⟨hk, hks⟩ := List.forall_mem_cons.1 hks
    obtain ⟨s₁, hs₁, hx₁⟩ := exec_csWr8_of_regAt hx hk (lane v k)
    obtain ⟨t, y, ht, hy, hlanes⟩ := ih hx₁ hks
    refine ⟨t, y, execAll_cons_next.2 ⟨s₁, hs₁, ht⟩, hy, fun j hj => ?_⟩
    rw [hlanes j hj]
    by_cases hjk : j = k
    · subst hjk
      simp [lane_setLane_self x j _ hj]
    · simp [hjk, lane_setLane_of_ne x j k _ hj hk hjk]

/-- Settles O40: an order of the four lanes writes every lane. -/
theorem fourByteWritesCompose : Obligations.FourByteWritesCompose := by
  intro s u F r v order hF hr hperm
  have hmem : ∀ k, k ∈ order ↔ k < 4 := fun k => hperm.mem_iff.trans (by simp; omega)
  obtain ⟨x, hx⟩ := exists_regAt hF hr
  obtain ⟨t, y, ht, hy, hlanes⟩ := execAll_byteWrites hx v order (fun k hk => (hmem k).1 hk)
  have hyv : y = v := dword_eq_of_lanes y v fun j hj => (hlanes j hj).trans (if_pos ((hmem j).2 hj))
  exact ⟨t, ht, exec_csRd32_of_regAt (hyv ▸ hy)⟩

theorem le16_eq_or (b0 b1 : Byte) : le16 b0 b1 = b0.setWidth 16 ||| (b1.setWidth 16 <<< 8) := by
  apply BitVec.eq_of_getLsbD_eq
  intro i hi
  simp only [le16, BitVec.getLsbD_or, BitVec.getLsbD_shiftLeft, BitVec.getLsbD_setWidth, BitVec.getLsbD_append]
  interval_cases i <;> simp

theorem le32_eq_or (b0 b1 b2 b3 : Byte) :
    le32 b0 b1 b2 b3 =
      b0.setWidth 32 ||| (b1.setWidth 32 <<< 8) ||| (b2.setWidth 32 <<< 16) ||| (b3.setWidth 32 <<< 24) := by
  apply BitVec.eq_of_getLsbD_eq
  intro i hi
  simp only [le32, BitVec.getLsbD_or, BitVec.getLsbD_shiftLeft, BitVec.getLsbD_setWidth, BitVec.getLsbD_append]
  interval_cases i <;> simp

/-- A half-word is its two bytes, low byte first. -/
theorem le16_bytes (x : Half) : le16 (x.extractLsb' 0 8) (x.extractLsb' 8 8) = x := by
  apply BitVec.eq_of_getLsbD_eq
  intro i hi
  simp only [le16, BitVec.getLsbD_append, BitVec.getLsbD_extractLsb']
  interval_cases i <;> simp

/-- Settles O41: a register's halves are pairs of its lanes, and so are the writes to them. -/
theorem widthsAreConsistent : Obligations.WidthsAreConsistent := by
  intro s u F r hF hr
  obtain ⟨v, hv⟩ := exists_regAt hF hr
  refine ⟨fun h hh => ?_, ⟨v, hv, ?_⟩, fun h hh x t t' hhalf hbytes => ?_⟩
  · refine ⟨lane v (2 * h), lane v (2 * h + 1), exec_csRd8_of_regAt hv (by omega),
      exec_csRd8_of_regAt hv (by omega), ?_⟩
    rw [exec_csRd16_of_regAt hv hh, half_eq_le16 v h hh, le16_eq_or]
  · rw [exec_csRd32_of_regAt hv, ← le32_eq_or, le32_lanes]
  · obtain ⟨t₁, ht₁, hhalfReg⟩ := exec_csWr16_of_regAt hv hh x
    cases hhalf.symm.trans ht₁
    obtain ⟨s₁, hs₁, hlowReg⟩ := exec_csWr8_of_regAt hv (show 2 * h < 4 by omega) (x.extractLsb' 0 8)
    obtain ⟨s₂, hs₂, hbothReg⟩ := exec_csWr8_of_regAt hlowReg (show 2 * h + 1 < 4 by omega) (x.extractLsb' 8 8)
    cases hbytes.symm.trans (execAll_cons_next.2 ⟨s₁, hs₁, execAll_cons_next.2 ⟨s₂, hs₂, execAll_nil s₂⟩⟩)
    rw [hhalfReg, hbothReg, ← setHalf_le16 v h _ _ hh, le16_bytes]

/-! ## The function constructors (rules R127 and R128) -/

/-- The header a constructor's arguments describe: what every register of the file holds after it. -/
def headerWord : HeaderArgs → Nat → Dword
  | .type0 vendor device base sub progif rev ssvid ssid, r =>
    if r = 0 then device ++ vendor else if r = 2 then base ++ sub ++ progif ++ rev
    else if r = 11 then ssid ++ ssvid else 0#32
  | .type1 vendor device base sub progif rev, r =>
    if r = 0 then device ++ vendor else if r = 2 then base ++ sub ++ progif ++ rev
    else if r = 3 then 0x00010000#32 else if r = 8 then Config.t1Dword8Init
    else if r = 15 then Config.t1Dword15Init else 0#32

theorem csRead32_headerSpace (args : HeaderArgs) (r : Nat) :
    csRead32 (headerSpace args) r = if r < 1024 then some (headerWord args r) else none := by
  by_cases hr : r < 1024
  · rw [if_pos hr]
    cases args with
    | type0 =>
      simp only [headerSpace, headerWord, csRead32_type0Space, idDword, halves_eq_append, classDword_eq_append,
        if_pos hr, apply_ite some]
    | type1 =>
      simp only [headerSpace, headerWord, csRead32_type1Space, idDword, halves_eq_append, classDword_eq_append,
        if_pos hr, apply_ite some]
  · rw [if_neg hr, csRead32_eq_none]
    exact Nat.le_of_not_lt hr

/-- Settles O42: the constructor's writes leave its header, and the host's map takes the new function under `dst`. -/
theorem functionConstructors : Obligations.FunctionConstructors := by
  intro s dst n vendor device base sub progif rev effect
  have heffect : ∀ {i args},
      exec i s = .next (answer (holdFn s dst (newFunction n .generic args)) (.function (newFunction n .generic args))) →
        effect i (headerWord args) := fun {i args} h =>
    ⟨_, _, h, rfl, rfl, rfl, csRead32_headerSpace args, rfl, fun k => heldFn_holdFn s dst k _⟩
  exact ⟨fun ssvid ssid => heffect (args := .type0 vendor device base sub progif rev ssvid ssid) rfl,
    heffect (args := .type1 vendor device base sub progif rev) rfl⟩

end Sys2Proof.Machine
end

section
/-! PROOFS. The Device operations by the names of their nodes (41_device.md): a device that an operation changes is
changed under its one name (`ChangesDevice`), and DEV_WR is one register write. -/

namespace Sys2Proof.Machine

/-! ## Names and fields that a change of one device leaves alone -/

@[simp] theorem updateDev_pending (s : State) (u : DevRef) (g : Device → Device) :
    (updateDev s u g).pending = s.pending := by
  cases u with
  | held h => rfl
  | node p d => exact updateBus_pending s p _

@[simp] theorem updateDev_caller (s : State) (u : DevRef) (g : Device → Device) :
    (updateDev s u g).caller = s.caller := by
  cases u with
  | held h => rfl
  | node p d => exact updateBus_caller s p _

@[simp] theorem heldFn_updateDev (s : State) (u : DevRef) (g : Device → Device) (k : Nat) :
    heldFn (updateDev s u g) k = heldFn s k := by
  simp only [heldFn, updateDev_heldFns]

theorem busAt_updateDev_number (s : State) (u : DevRef) (g : Device → Device) (p : BusRef) :
    (busAt (updateDev s u g) p).map Bus.number = (busAt s p).map Bus.number := by
  cases u with
  | held h => rfl
  | node q d => exact busAt_updateBus_number s q p (fun B => busUpdateDev B d g) (fun _ => rfl) (fun _ => rfl)

theorem heldFn_useFn (s : State) (src : FnSrc) (k : Nat) :
    heldFn (useFn s src) k = if src = .held k then none else heldFn s k := by
  cases src with
  | held h => simp only [useFn, heldFn_releaseFn, FnSrc.held.injEq, eq_comm]
  | made n args => rfl

/-! ## A change of one device -/

/-- `t` is `s` with the device that `u` names replaced by its image under `g`: every other device, every bus, `CA` and
the operations in transit stay. -/
structure ChangesDevice (s t : State) (u : DevRef) (g : Device → Device) : Prop where
  ca : t.ca = s.ca
  pending : t.pending = s.pending
  caller : t.caller = s.caller
  device : devAt t u = (devAt s u).map g
  others : ∀ w, w ≠ u → devAt t w = devAt s w
  buses : ∀ p, (busAt t p).map Bus.number = (busAt s p).map Bus.number

theorem changesDevice_updateDev (s : State) (u : DevRef) {g : Device → Device} (hg : ∀ D, (g D).number = D.number) :
    ChangesDevice s (updateDev s u g) u g where
  ca := updateDev_ca s u g
  pending := updateDev_pending s u g
  caller := updateDev_caller s u g
  device := devAt_updateDev_self s u g hg
  others w hw := devAt_updateDev_of_ne s u w g hg hw
  buses p := busAt_updateDev_number s u g p

section Changes
variable {s t : State} {u : DevRef} {g : Device → Device}

theorem ChangesDevice.answer (h : ChangesDevice s t u g) (r : Reply) : ChangesDevice s (answer t r) u g where
  ca := h.ca
  pending := h.pending
  caller := h.caller
  device := (devAt_answer t r u).trans h.device
  others w hw := (devAt_answer t r w).trans (h.others w hw)
  buses := h.buses

/-- The functions the host holds are in no device. -/
theorem ChangesDevice.setHeldFns (h : ChangesDevice s t u g) (m : List (Nat × Function)) :
    ChangesDevice s (setHeldFns t m) u g where
  ca := h.ca
  pending := h.pending
  caller := h.caller
  device := (devAt_setHeldFns t m u).trans h.device
  others w hw := (devAt_setHeldFns t m w).trans (h.others w hw)
  buses := h.buses

theorem ChangesDevice.holdFn (h : ChangesDevice s t u g) (dst : Nat) (F : Function) :
    ChangesDevice s (holdFn t dst F) u g :=
  h.setHeldFns _

theorem ChangesDevice.useFn (h : ChangesDevice s t u g) (src : FnSrc) : ChangesDevice s (useFn t src) u g := by
  cases src with
  | held k => exact h.setHeldFns _
  | made n args => exact h

theorem ChangesDevice.devAt_eq (h : ChangesDevice s t u g) {D : Device} (hD : devAt s u = some D) :
    devAt t u = some (g D) := by
  rw [h.device, hD, Option.map_some]

end Changes

/-! ## Adding and removing a function (rules R160, R162 and R169) -/

section Slots
variable {s : State} {u : DevRef} {D : Device} {F : Function}

theorem exec_devAddFn_free {src : FnSrc} (hD : devAt s u = some D) (hF : srcFn s src = some F)
    (hn : F.number < Config.maxFunctionNumber) (hfree : deviceFn D F.number = none) :
    exec (.devAddFn u src) s =
      .next (answer (useFn (updateDev s u (fun D => deviceInsertFn D F)) src) .ok) := by
  refine (onNode_of_eq_some hD _).trans ((onNode_of_eq_some hF _).trans ?_)
  rw [if_neg (not_le.2 hn), hfree]
  rfl

theorem exec_devRemoveFn_empty {f : Nat} (hD : devAt s u = some D) (hF : deviceFn D f = none) (dst : Nat) :
    exec (.devRemoveFn u f dst) s = .next (answer s (.function none)) := by
  refine (onNode_of_eq_some hD _).trans ?_
  rw [hF]

theorem exec_devRemoveFn_occupied {f : Nat} (hD : devAt s u = some D) (hF : deviceFn D f = some F) (dst : Nat) :
    exec (.devRemoveFn u f dst) s =
      .next (answer (holdFn (updateDev s u (fun D => deviceEraseFn D f)) dst F) (.function (some F))) := by
  refine (onNode_of_eq_some hD _).trans ?_
  rw [hF]

end Slots

/-- A slot that holds a function is one of the eight (rule R28). -/
theorem lt_of_deviceFn {D : Device} {f : Nat} {F : Function} (hD : deviceWf D = true) (hF : deviceFn D f = some F) :
    f < Config.maxFunctionNumber :=
  mapFind_key hF ▸ (mapWf_iff.1 hD).2 F (mapFind_mem hF)

/-- Settles O44: past both checks the add is one change of the device. -/
theorem addFunctionFillsTheSlot : Obligations.AddFunctionFillsTheSlot := by
  intro s u src D F hD hF hn hfree
  have h := ((changesDevice_updateDev s u (g := fun D => deviceInsertFn D F) fun _ => rfl).useFn src).answer .ok
  refine ⟨_, _, exec_devAddFn_free hD hF hn hfree, rfl, h.ca, h.pending, h.caller, h.devAt_eq hD, rfl,
    deviceFn_insert D F, h.others, h.buses, fun k => ?_⟩
  rw [heldFn_answer, heldFn_useFn, heldFn_updateDev]

/-- Settles O45, by whether the slot is empty. -/
theorem removeFunctionEmptiesTheSlot : Obligations.RemoveFunctionEmptiesTheSlot := by
  intro s u f dst D hD
  refine ⟨fun hF => exec_devRemoveFn_empty hD hF dst, fun F hF => ?_⟩
  have h := ((changesDevice_updateDev s u (g := fun D => deviceEraseFn D f) fun _ => rfl).holdFn dst F).answer
    (.function (some F))
  refine ⟨_, _, exec_devRemoveFn_occupied hD hF dst, rfl, h.ca, h.pending, h.caller, h.devAt_eq hD, rfl,
    deviceFn_erase D f, h.others, h.buses, fun k => ?_⟩
  rw [heldFn_answer, heldFn_holdFn, heldFn_updateDev]

/-- Settles O46: the removal left the slot empty, and its number was below 8 because a function stood there. -/
theorem removedFunctionSlotIsFree : Obligations.RemovedFunctionSlotIsFree := by
  intro s t u f dst F src F' hs hremove hreply hF' hnumber
  obtain ⟨D, hD, -⟩ := onNode_eq_next.1 hremove
  obtain ⟨hempty, hoccupied⟩ := removeFunctionEmptiesTheSlot s u f dst D hD
  cases hF : deviceFn D f with
  | none =>
    cases hremove.symm.trans (hempty hF)
    cases hreply
  | some E =>
    obtain ⟨t₁, D', hrun, -, -, -, -, hD', -, hslots, -⟩ := hoccupied E hF
    cases hremove.symm.trans hrun
    have hn : F'.number < Config.maxFunctionNumber := hnumber ▸ lt_of_deviceFn (deviceWf_devAt hs hD) hF
    have hfree : deviceFn D' F'.number = none := (hslots F'.number).trans (if_pos hnumber)
    exact ⟨_, exec_devAddFn_free hD' hF' hn hfree, rfl⟩

/-! ## Reading and writing a register through the device (rules R163 and R164) -/

/-- Past the register file DEV_WR is dropped too. -/
theorem csWriteData_of_absent (cs : ConfigSpace) {r : Nat} (hr : 1024 ≤ r) (o : Nat) (data : List Byte) :
    csWriteData cs r o data = cs := by
  refine space_ext fun q => ?_
  rw [csRead32_csWriteData]
  by_cases hq : q = r
  · subst hq
    rw [csRead32_eq_none.2 hr]
    exact ite_self none
  · simp [hq]

theorem writeDropped_iff {o n : Nat} : writeDropped o n = true ↔ o + n > 4 ∨ (n = 2 ∧ o % 2 = 1) := by
  simp [writeDropped]

/-- DEV_WR on a register file writes the addressed lanes of one register, unless its shape is dropped. -/
theorem csRead32_csWriteData_eq (cs : ConfigSpace) (r o : Nat) (data : List Byte) (q : Nat) :
    csRead32 (csWriteData cs r o data) q =
      if q = r then (csRead32 cs r).map (fun v => if writeDropped o data.length = false then setLanes v o data else v)
      else csRead32 cs q :=
  (csRead32_csWriteData cs r o q data).trans (guardedWrite_eq cs r q _ _)

/-- Each addressed lane takes its byte, each other lane stays. -/
theorem extract_setLanes (v : Dword) {o j : Nat} {data : List Byte} (ho : o + data.length ≤ 4) (hj : j < 4) :
    (setLanes v o data).extractLsb' (8 * j) 8 =
      if o ≤ j then (data[j - o]?).getD (v.extractLsb' (8 * j) 8) else v.extractLsb' (8 * j) 8 := by
  refine (lane_setLanes data v o j hj ho).trans ?_
  by_cases hoj : o ≤ j
  · by_cases hlen : j - o < data.length <;> simp [hoj, hlen, lane]
  · simp [hoj, lane]

/-- DEV_WR of a missing function leaves the device as it is. -/
theorem deviceWrite_of_none {D : Device} {f : Nat} (hF : deviceFn D f = none) (r o : Nat) (data : List Byte) :
    deviceWrite D f r o data = D := by
  unfold deviceWrite deviceUpdateFn
  rw [mapUpdate_of_none _ hF]

theorem exec_devWr {s : State} {u : DevRef} {D : Device} (hD : devAt s u = some D) (f r o : Nat)
    (data : List Byte) :
    exec (.devWr u f r o data) s =
      .next (answer (updateDev s u (fun D => deviceWrite D f r o data)) .nothing) :=
  onNode_of_eq_some hD _

/-- Settles O48: DEV_WR is a write of one register in the tree, and a change of one device. -/
theorem deviceWriteSetsTheLanes : Obligations.DeviceWriteSetsTheLanes := by
  intro s u D f r o data hD
  have hregister := writesRegister_updateFn s (.inDev u f) r (csRead32_csWriteData_eq · r o data)
  have hdevice := (changesDevice_updateDev s u (g := fun D => deviceWrite D f r o data) fun _ => rfl).answer .nothing
  refine ⟨_, _, exec_devWr hD f r o data, hregister.bare, updateDev_heldFns s u _, hregister.frame, fun hF => ?_,
    hdevice.others, hdevice.devAt_eq hD, fun g hg => ?_, fun hF => deviceWrite_of_none hF r o data, fun F hF => ?_⟩
  · rw [updateDev_eq_self s u _ fun E hE => ?_]
    cases hD.symm.trans hE
    exact deviceWrite_of_none hF r o data
  · rw [deviceFn_write, if_neg hg]
  · refine ⟨withSpace F (csWriteData F.cs r o data), ?_, rfl, fun q hq => ?_, fun hdropped => ?_,
      fun hfits heven v hv => ?_⟩
    · rw [deviceFn_write, if_pos rfl, hF, Option.map_some]
    · exact (csRead32_csWriteData_eq F.cs r o data q).trans (if_neg hq)
    · have hsame : csWriteData F.cs r o data = F.cs := by
        obtain hpast | hodd | hr := hdropped
        · exact csWriteData_of_dropped _ _ _ _ (writeDropped_iff.2 (.inl hpast))
        · exact csWriteData_of_dropped _ _ _ _ (writeDropped_iff.2 (.inr hodd))
        · exact csWriteData_of_absent _ hr _ _
      rw [hsame]
      rfl
    · have htaken : writeDropped o data.length = false :=
        Bool.eq_false_iff.2 fun h => (writeDropped_iff.1 h).elim (not_lt.2 hfits) heven
      refine ⟨setLanes v o data, ?_, fun j hj => extract_setLanes v hfits hj⟩
      rw [withSpace_cs, csRead32_csWriteData_eq, if_pos rfl, hv, Option.map_some, if_pos htaken]

/-- Settles O47, by whether the function is there and then by the index. -/
theorem deviceReadReturnsTheRegister : Obligations.DeviceReadReturnsTheRegister := by
  intro s u D f r hD
  have hexec : exec (.devRd u f r) s = .next (answer s (.dword (deviceRead D f r))) := onNode_of_eq_some hD _
  rw [hexec]
  unfold deviceRead
  cases deviceFn D f with
  | none => rfl
  | some F =>
    by_cases hr : r < 1024
    · simp only [dif_pos hr, csRead32, Vector.getElem?_eq_getElem hr]
    · simp only [dif_neg hr, csRead32_eq_none.2 (Nat.le_of_not_lt hr)]

/-! ## Constructors and lookups (rules R161, R165, R166, R182, R185 and R186) -/

/-- Settles O43: each constructor puts its node into the host's map under `dst`. -/
theorem nodeConstructors : Obligations.NodeConstructors := fun s dst n =>
  ⟨⟨_, rfl, rfl, rfl, fun k => heldDev_holdDev s dst k (newDevice n)⟩,
    ⟨newFunction 0 .generic Config.dummyFnArgs, _, rfl, rfl, rfl, rfl, rfl, rfl,
      fun k => heldDev_holdDev s dst k (newDummyDevice n)⟩,
    ⟨_, rfl, rfl, rfl, fun k => heldBus_holdBus s dst k (newBus n)⟩⟩

/-- Settles O49: a lookup is one step further along the name. -/
theorem lookupsReturnTheNamedNode : Obligations.LookupsReturnTheNamedNode := by
  intro s
  refine ⟨fun p B hB => ⟨fun b => ?_, fun d => ?_⟩, fun u D f hD => ?_⟩
  · rw [busAt_below s p B b hB]
    exact onNode_of_eq_some hB _
  · have hdevice : devAt s (.node p d) = busDevice B d := by simp only [devAt, hB]
    rw [hdevice]
    exact onNode_of_eq_some hB _
  · have hfunction : fnAt s (.inDev u f) = deviceFn D f := by simp only [fnAt, hD]
    rw [hfunction]
    exact onNode_of_eq_some hD _

end Sys2Proof.Machine
end

section
/-! PROOFS. The devices of a bus (42_bus.md): BUS_ADD_DEV and BUS_REMOVE_DEV set one device slot of one bus
(`SetsDeviceSlot`), and a bus has at most 32 of them (rule R192). -/

namespace Sys2Proof.Machine

/-! ## Names and fields that a change of device slots leaves alone -/

@[simp] theorem busAt_setHeldDevs (s : State) (m : List (Nat × Device)) (p : BusRef) :
    busAt (setHeldDevs s m) p = busAt s p := rfl

@[simp] theorem heldDev_updateBus (s : State) (p : BusRef) (g : Bus → Bus) (k : Nat) :
    heldDev (updateBus s p g) k = heldDev s k := by
  simp only [heldDev, updateBus_heldDevs]

@[simp] theorem busAt_useDev (s : State) (src : DevSrc) (p : BusRef) : busAt (useDev s src) p = busAt s p := by
  cases src <;> rfl

theorem heldDev_useDev (s : State) (src : DevSrc) (k : Nat) :
    heldDev (useDev s src) k = if src = .held k then none else heldDev s k := by
  cases src with
  | held h => simp only [useDev, heldDev_releaseDev, DevSrc.held.injEq, eq_comm]
  | made n => rfl
  | madeDummy n => rfl

theorem devAt_of_busAt {s : State} {p : BusRef} {B : Bus} (hB : busAt s p = some B) (d : Nat) :
    devAt s (.node p d) = busDevice B d := by
  simp only [devAt, hB]

/-! ## A change of one device slot -/

/-- `t` is `s` with the slot `d` of the bus that `p` names set to `slot`: every other device in a tree, every bus,
`CA`, the held functions and the operations in transit stay. What devices the host holds is left open. -/
structure SetsDeviceSlot (s t : State) (p : BusRef) (d : Nat) (slot : Option Device) : Prop where
  ca : t.ca = s.ca
  pending : t.pending = s.pending
  caller : t.caller = s.caller
  heldFns : t.heldFns = s.heldFns
  device : devAt t (.node p d) = slot
  others : ∀ q e, (q, e) ≠ (p, d) → devAt t (.node q e) = devAt s (.node q e)
  buses : ∀ q, (busAt t q).map Bus.number = (busAt s q).map Bus.number

section Slots
variable {s t : State} {p : BusRef} {B : Bus} {d : Nat} {slot : Option Device}

theorem setsDeviceSlot_updateBus {g : Bus → Bus} (hB : busAt s p = some B) (hnumber : ∀ B, (g B).number = B.number)
    (hbuses : ∀ B, (g B).buses = B.buses)
    (hdevice : ∀ e, busDevice (g B) e = if e = d then slot else busDevice B e) :
    SetsDeviceSlot s (updateBus s p g) p d slot := by
  have hself : busAt (updateBus s p g) p = some (g B) := by
    rw [busAt_updateBus_self s p g hnumber, hB, Option.map_some]
  exact {
    ca := updateBus_ca s p g
    pending := updateBus_pending s p g
    caller := updateBus_caller s p g
    heldFns := updateBus_heldFns s p g
    device := by rw [devAt_of_busAt hself, hdevice, if_pos rfl]
    others := fun q e hne => by
      by_cases hq : q = p
      · subst hq
        rw [devAt_of_busAt hself, devAt_of_busAt hB, hdevice, if_neg fun he : e = d => hne (by rw [he])]
      · rw [devAt_node, devAt_node, busAt_updateBus_devices s p q g hnumber hbuses hq]
    buses := fun q => busAt_updateBus_number s p q g hnumber hbuses }

theorem SetsDeviceSlot.answer (h : SetsDeviceSlot s t p d slot) (r : Reply) :
    SetsDeviceSlot s (answer t r) p d slot where
  ca := h.ca
  pending := h.pending
  caller := h.caller
  heldFns := h.heldFns
  device := h.device
  others := h.others
  buses := h.buses

/-- The devices the host holds are on no bus. -/
theorem SetsDeviceSlot.setHeldDevs (h : SetsDeviceSlot s t p d slot) (m : List (Nat × Device)) :
    SetsDeviceSlot s (setHeldDevs t m) p d slot where
  ca := h.ca
  pending := h.pending
  caller := h.caller
  heldFns := h.heldFns
  device := h.device
  others := h.others
  buses := h.buses

theorem SetsDeviceSlot.holdDev (h : SetsDeviceSlot s t p d slot) (dst : Nat) (D : Device) :
    SetsDeviceSlot s (holdDev t dst D) p d slot :=
  h.setHeldDevs _

theorem SetsDeviceSlot.useDev (h : SetsDeviceSlot s t p d slot) (src : DevSrc) :
    SetsDeviceSlot s (useDev t src) p d slot := by
  cases src with
  | held k => exact h.setHeldDevs _
  | made n => exact h
  | madeDummy n => exact h

end Slots

/-! ## Adding and removing a device (rules R181 and R188) -/

section Operations
variable {s : State} {p : BusRef} {B : Bus} {D : Device}

theorem exec_busAddDev (src : DevSrc) (hB : busAt s p = some B) (hD : srcDev s src = some D) :
    exec (.busAddDev p src) s =
      if D.number ≥ Config.maxDeviceNumber then raise s .invalidDeviceNumber
      else if (busDevice B D.number).isSome then raise s .deviceSlotInUse
      else .next (answer (useDev (updateBus s p (fun B => busInsertDev B D)) src) .ok) :=
  (onNode_of_eq_some hB _).trans (onNode_of_eq_some hD _)

theorem exec_busAddDev_free {src : DevSrc} (hB : busAt s p = some B) (hD : srcDev s src = some D)
    (hn : D.number < Config.maxDeviceNumber) (hfree : busDevice B D.number = none) :
    exec (.busAddDev p src) s = .next (answer (useDev (updateBus s p (fun B => busInsertDev B D)) src) .ok) := by
  rw [exec_busAddDev src hB hD, if_neg (not_le.2 hn), hfree]
  rfl

/-- The bus after an add into a free slot. -/
theorem exec_busAddDev_busAt {src : DevSrc} (hB : busAt s p = some B) (hD : srcDev s src = some D)
    (hn : D.number < Config.maxDeviceNumber) (hfree : busDevice B D.number = none) :
    ∃ t, exec (.busAddDev p src) s = .next t ∧ t.reply = .ok ∧ busAt t p = some (busInsertDev B D) := by
  refine ⟨_, exec_busAddDev_free hB hD hn hfree, rfl, ?_⟩
  rw [busAt_answer, busAt_useDev, busAt_updateBus_self s p (fun B => busInsertDev B D) (fun _ => rfl), hB,
    Option.map_some]

theorem exec_busRemoveDev_empty {d : Nat} (hB : busAt s p = some B) (hD : busDevice B d = none) (dst : Nat) :
    exec (.busRemoveDev p d dst) s = .next (answer s (.device none)) := by
  refine (onNode_of_eq_some hB _).trans ?_
  rw [hD]

theorem exec_busRemoveDev_occupied {d : Nat} (hB : busAt s p = some B) (hD : busDevice B d = some D) (dst : Nat) :
    exec (.busRemoveDev p d dst) s =
      .next (answer (holdDev (updateBus s p (fun B => busEraseDev B d)) dst D) (.device (some D))) := by
  refine (onNode_of_eq_some hB _).trans ?_
  rw [hD]

/-- The bus after a device is removed from it. -/
theorem exec_busRemoveDev_busAt {d : Nat} (hB : busAt s p = some B) (hD : busDevice B d = some D) (dst : Nat) :
    ∃ t, exec (.busRemoveDev p d dst) s = .next t ∧ busAt t p = some (busEraseDev B d) := by
  refine ⟨_, exec_busRemoveDev_occupied hB hD dst, ?_⟩
  rw [busAt_answer, holdDev, busAt_setHeldDevs, busAt_updateBus_self s p (fun B => busEraseDev B d) (fun _ => rfl), hB,
    Option.map_some]

end Operations

/-- Settles O50: past both checks the add sets one device slot. -/
theorem addDeviceFillsTheSlot : Obligations.AddDeviceFillsTheSlot := by
  intro s p src B D hB hD hn hfree
  have h := ((setsDeviceSlot_updateBus (g := fun B => busInsertDev B D) hB (fun _ => rfl) (fun _ => rfl)
    (busDevice_insertDev B D)).useDev src).answer .ok
  refine ⟨_, exec_busAddDev_free hB hD hn hfree, rfl, h.ca, h.pending, h.caller, h.heldFns, h.device, h.others,
    h.buses, fun k => ?_⟩
  rw [heldDev_answer, heldDev_useDev, heldDev_updateBus]

/-- Settles O52, by whether the slot is empty. -/
theorem removeDeviceEmptiesTheSlot : Obligations.RemoveDeviceEmptiesTheSlot := by
  intro s p d dst B hB
  refine ⟨fun hD => exec_busRemoveDev_empty hB hD dst, fun D hD => ?_⟩
  have h := ((setsDeviceSlot_updateBus (g := fun B => busEraseDev B d) hB (fun _ => rfl) (fun _ => rfl)
    (busDevice_eraseDev B d)).holdDev dst D).answer (.device (some D))
  refine ⟨_, exec_busRemoveDev_occupied hB hD dst, rfl, h.ca, h.pending, h.caller, h.heldFns, h.device, h.others,
    h.buses, fun k => ?_⟩
  rw [heldDev_answer, heldDev_holdDev, heldDev_updateBus]

/-! ## How many entries a map has (rule R192) -/

section Capacity
variable {α : Type} {key : α → Nat} {bound : Nat} {m : List α}

/-- Distinct keys below a bound are at most so many. -/
theorem length_le_of_mapWf (h : mapWf key bound m = true) : m.length ≤ bound := by
  obtain ⟨hrising, hbound⟩ := mapWf_iff.1 h
  have hsubset : m.map key ⊆ List.range bound := fun k hk => by
    obtain ⟨x, hx, rfl⟩ := List.mem_map.1 hk
    exact List.mem_range.2 (hbound x hx)
  have hdistinct : (m.map key).Nodup := hrising.imp Nat.ne_of_lt
  simpa using (hdistinct.subperm hsubset).length_le

theorem length_mapInsert_of_free {x : α} (h : mapFind key (key x) m = none) :
    (mapInsert key x m).length = m.length + 1 := by
  induction m with
  | nil => rfl
  | cons y rest ih =>
    obtain ⟨hy, hrest⟩ := List.forall_mem_cons.1 (mapFind_eq_none.1 h)
    rw [mapInsert]
    split
    · rfl
    · rw [if_neg (Ne.symm hy), List.length_cons, ih (mapFind_eq_none.2 hrest), List.length_cons]

/-- A map with as many entries as there are keys has no free key: an insertion would give it one entry too many. -/
theorem mapFind_isSome_of_full {x : α} (h : mapWf key bound m = true) (hfull : m.length = bound) (hx : key x < bound) :
    (mapFind key (key x) m).isSome = true := by
  rw [Option.isSome_iff_ne_none]
  intro hfree
  have hle := length_le_of_mapWf (mapWf_mapInsert h hx)
  rw [length_mapInsert_of_free hfree] at hle
  omega

end Capacity

section Devices
variable {s : State} {p : BusRef} {B : Bus}

theorem mapWf_devices (hB : busWf B = true) : mapWf Device.number Config.maxDeviceNumber B.devices = true :=
  ((devicesWf_iff _).1 ((busWf_iff B).1 hB).1).1

/-- A slot that holds a device is one of the 32 (rule R28). -/
theorem lt_of_busDevice {d : Nat} {D : Device} (hB : busWf B = true) (hD : busDevice B d = some D) :
    d < Config.maxDeviceNumber :=
  mapFind_key hD ▸ (mapWf_iff.1 (mapWf_devices hB)).2 D (mapFind_mem hD)

/-- New devices with distinct numbers of free slots are all added. -/
theorem execAll_busAddDev (hB : busAt s p = some B) {ns : List Nat} (hdistinct : ns.Nodup)
    (hn : ∀ n ∈ ns, n < Config.maxDeviceNumber) (hfree : ∀ n ∈ ns, busDevice B n = none) :
    ∃ t B', execAll (ns.map fun n => .busAddDev p (.made n)) s = .next t ∧ busAt t p = some B' ∧
      B'.devices.length = B.devices.length + ns.length := by
  induction ns generalizing s B with
  | nil => exact ⟨s, B, rfl, hB, rfl⟩
  | cons n ns ih =>
    obtain ⟨hnew, hdistinct⟩ := List.nodup_cons.1 hdistinct
    obtain ⟨hnHead, hnTail⟩ := List.forall_mem_cons.1 hn
    obtain ⟨hfreeHead, hfreeTail⟩ := List.forall_mem_cons.1 hfree
    obtain ⟨u, hrun, -, hu⟩ := exec_busAddDev_busAt (src := .made n) (D := newDevice n) hB rfl hnHead hfreeHead
    have hfree' : ∀ k ∈ ns, busDevice (busInsertDev B (newDevice n)) k = none := fun k hk =>
      (busDevice_insertDev B (newDevice n) k).trans ((if_neg (ne_of_mem_of_not_mem hk hnew)).trans (hfreeTail k hk))
    have hlength : (busInsertDev B (newDevice n)).devices.length = B.devices.length + 1 :=
      length_mapInsert_of_free hfreeHead
    obtain ⟨t, B', hall, hB', hcount⟩ := ih hu hdistinct hnTail hfree'
    refine ⟨t, B', execAll_cons_next.2 ⟨u, hrun, hall⟩, hB', ?_⟩
    rw [hcount, hlength, List.length_cons]
    omega

/-- On a bus with 32 devices every add fails one of its two checks. -/
theorem exec_busAddDev_full {src : DevSrc} {D : Device} (hB : busAt s p = some B) (hD : srcDev s src = some D)
    (hwf : busWf B = true) (hfull : B.devices.length = Config.maxDeviceNumber) :
    ∃ e, exec (.busAddDev p src) s = .next (answer s (.error e)) ∧
      (e = .deviceSlotInUse ∨ e = .invalidDeviceNumber) := by
  rw [exec_busAddDev src hB hD]
  by_cases hn : D.number < Config.maxDeviceNumber
  · have hslot : (busDevice B D.number).isSome = true := mapFind_isSome_of_full (mapWf_devices hwf) hfull hn
    rw [if_neg (not_le.2 hn), if_pos hslot]
    exact ⟨_, rfl, .inl rfl⟩
  · rw [if_pos (not_lt.1 hn)]
    exact ⟨_, rfl, .inr rfl⟩

/-- The slot of a device that is removed takes another. -/
theorem exec_busRemoveDev_frees {d : Nat} {D : Device} (hB : busAt s p = some B) (hwf : busWf B = true)
    (hD : busDevice B d = some D) (dst : Nat) :
    ∃ t, exec (.busRemoveDev p d dst) s = .next t ∧ ∀ src D', srcDev t src = some D' → D'.number = d →
      ∃ t', exec (.busAddDev p src) t = .next t' ∧ t'.reply = .ok := by
  obtain ⟨t, hremove, ht⟩ := exec_busRemoveDev_busAt hB hD dst
  refine ⟨t, hremove, fun src D' hD' hnumber => ?_⟩
  have hn : D'.number < Config.maxDeviceNumber := hnumber ▸ lt_of_busDevice hwf hD
  have hfree : busDevice (busEraseDev B d) D'.number = none := (busDevice_eraseDev B d _).trans (if_pos hnumber)
  obtain ⟨t', hadd, hok, -⟩ := exec_busAddDev_busAt ht hD' hn hfree
  exact ⟨t', hadd, hok⟩

end Devices

/-- Settles O59: a bus has at most one device for each number below 32, and an add into a free slot succeeds. -/
theorem busHoldsAtMost32Devices : Obligations.BusHoldsAtMost32Devices := by
  intro s p B hs hB
  have hwf := busWf_busAt hs hB
  refine ⟨length_le_of_mapWf (mapWf_devices hwf), fun hempty => ?_,
    fun hfull src D hD => exec_busAddDev_full hB hD hwf hfull,
    fun d D dst hD => exec_busRemoveDev_frees hB hwf hD dst⟩
  have hfree : ∀ n ∈ List.range 32, busDevice B n = none := fun n _ => by rw [busDevice, hempty, mapFind_nil]
  obtain ⟨t, B', hrun, hB', hcount⟩ :=
    execAll_busAddDev (ns := List.range 32) hB List.nodup_range (fun n hn => List.mem_range.1 hn) hfree
  refine ⟨t, B', hrun, hB', ?_⟩
  rw [hcount, hempty, List.length_range, List.length_nil]

end Sys2Proof.Machine
end

section
/-! PROOFS. The child buses of a bus (42_bus.md): BUS_ADD_BUS and BUS_REMOVE_BUS change one child slot of one bus, and
the names that start at a bus the host holds (rules R180 and R187). -/

namespace Sys2Proof.Machine

/-! ## Where a name starts -/

theorem busAt_congr {s t : State} {q : BusRef} (h : busBase s q.base = busBase t q.base) : busAt s q = busAt t q := by
  simp only [busAt, h]

theorem busBase_releaseBus (s : State) (h : Nat) (b : Option Nat) :
    busBase (releaseBus s h) b = if b = some h then none else busBase s b := by
  cases b with
  | none => rfl
  | some k => simp only [busBase, heldBus_releaseBus, Option.some.injEq]

theorem busBase_holdBus (s : State) (h : Nat) (C : Bus) (b : Option Nat) :
    busBase (holdBus s h C) b = if b = some h then some C else busBase s b := by
  cases b with
  | none => rfl
  | some k => simp only [busBase, heldBus_holdBus, Option.some.injEq]

/-- A name that does not start at the bus to be inserted names what it named. -/
theorem busAt_useBus (s : State) {src : BusSrc} {q : BusRef} (h : ∀ k, src = .held k → q.base ≠ some k) :
    busAt (useBus s src) q = busAt s q := by
  cases src with
  | held k => exact busAt_congr ((busBase_releaseBus s k q.base).trans (if_neg (h k rfl)))
  | made n => rfl

/-- A bus that is still there when the source has left the host's hands does not start at the source. -/
theorem busAt_of_useBus {s : State} {src : BusSrc} {q : BusRef} {B : Bus} (h : busAt (useBus s src) q = some B) :
    busAt s q = some B := by
  rw [← h, busAt_useBus]
  rintro k rfl hbase
  rw [busAt, useBus, busBase_releaseBus, if_pos hbase] at h
  cases h

@[simp] theorem useBus_pending (s : State) (src : BusSrc) : (useBus s src).pending = s.pending := by cases src <;> rfl
@[simp] theorem useBus_caller (s : State) (src : BusSrc) : (useBus s src).caller = s.caller := by cases src <;> rfl
@[simp] theorem useBus_heldFns (s : State) (src : BusSrc) : (useBus s src).heldFns = s.heldFns := by cases src <;> rfl
@[simp] theorem useBus_heldDevs (s : State) (src : BusSrc) : (useBus s src).heldDevs = s.heldDevs := by
  cases src <;> rfl

/-! ## A change of one child slot -/

/-- `t` is `s` with the child slot `c` of the bus that `p` names set to `slot`, with everything below it: every bus
outside the slot keeps its number and its devices, and `CA`, the held functions and devices and the operations in
transit stay. -/
structure SetsBusSlot (s t : State) (p : BusRef) (c : Nat) (slot : Option Bus) : Prop where
  ca : t.ca = s.ca
  pending : t.pending = s.pending
  caller : t.caller = s.caller
  heldFns : t.heldFns = s.heldFns
  heldDevs : t.heldDevs = s.heldDevs
  child : ∀ r, busAt t ⟨p.base, p.path ++ c :: r⟩ = slot.bind (nodeAt · r)
  others : ∀ q, (∀ r, q ≠ ⟨p.base, p.path ++ c :: r⟩) →
    (busAt t q).map Bus.number = (busAt s q).map Bus.number ∧
    (busAt t q).map Bus.devices = (busAt s q).map Bus.devices

theorem setsBusSlot_updateBus {s : State} {p : BusRef} {B : Bus} {c : Nat} {slot : Option Bus} {g : Bus → Bus}
    (hB : busAt s p = some B) (hnumber : ∀ B, (g B).number = B.number) (hdevices : ∀ B, (g B).devices = B.devices)
    (hchild : ∀ B b, busChild (g B) b = if b = c then slot else busChild B b) :
    SetsBusSlot s (updateBus s p g) p c slot where
  ca := updateBus_ca s p g
  pending := updateBus_pending s p g
  caller := updateBus_caller s p g
  heldFns := updateBus_heldFns s p g
  heldDevs := updateBus_heldDevs s p g
  child r := by rw [busAt_updateBus_child s p g hnumber c B hB, hchild, if_pos rfl]
  others q hq := busAt_updateBus_slot s p q g hnumber hdevices c (fun B b hb => (hchild B b).trans (if_neg hb)) hq

/-! ## Adding and removing a child bus (rules R180 and R187) -/

theorem exec_busAddBus_free {s : State} {p : BusRef} {src : BusSrc} {B C : Bus} (hC : srcBus s src = some C)
    (hB : busAt (useBus s src) p = some B) (hn : C.number < Config.maxBusNumber) (hfree : busChild B C.number = none) :
    exec (.busAddBus p src) s = .next (answer (updateBus (useBus s src) p (fun B => busInsertBus B C)) .ok) := by
  refine (onNode_of_eq_some hC _).trans ((onNode_of_eq_some hB _).trans ?_)
  rw [if_neg (not_le.2 hn), hfree]
  rfl

/-- An add that succeeds passed both checks. -/
theorem busAddBus_ok {s t : State} {p : BusRef} {src : BusSrc} (h : exec (.busAddBus p src) s = .next t)
    (hok : t.reply = .ok) :
    ∃ B C, srcBus s src = some C ∧ busAt (useBus s src) p = some B ∧
      t = answer (updateBus (useBus s src) p (fun B => busInsertBus B C)) .ok := by
  obtain ⟨C, hC, h⟩ := onNode_eq_next.1 h
  obtain ⟨B, hB, h⟩ := onNode_eq_next.1 h
  obtain ⟨e, rfl⟩ | ⟨-, -, rfl⟩ := checkedAdd_eq_next h
  · cases hok
  · exact ⟨B, C, hC, hB, rfl⟩

section Removal
variable {s : State} {p : BusRef} {B : Bus} {b : Nat}

theorem exec_busRemoveBus_empty (hB : busAt s p = some B) (hC : busChild B b = none) (dst : Nat) :
    exec (.busRemoveBus p b dst) s = .next (answer s (.bus none)) := by
  refine (onNode_of_eq_some hB _).trans ?_
  rw [hC]

theorem exec_busRemoveBus_occupied {C : Bus} (hB : busAt s p = some B) (hC : busChild B b = some C) (dst : Nat) :
    exec (.busRemoveBus p b dst) s =
      .next (answer (holdBus (updateBus s p (fun B => busEraseBus B b)) dst C) (.bus (some C))) := by
  refine (onNode_of_eq_some hB _).trans ?_
  rw [hC]

end Removal

/-- Settles O51: the source leaves the host's hands, then one child slot changes. -/
theorem addBusFillsTheSlot : Obligations.AddBusFillsTheSlot := by
  intro s p src B C hC hB hn hfree
  have h := setsBusSlot_updateBus (g := fun B => busInsertBus B C) hB (fun _ => rfl) (fun _ => rfl)
    (busChild_insertBus · C)
  refine ⟨_, exec_busAddBus_free hC hB hn hfree, rfl, h.ca.trans (useBus_ca s src),
    h.pending.trans (useBus_pending s src), h.caller.trans (useBus_caller s src),
    h.heldFns.trans (useBus_heldFns s src), h.heldDevs.trans (useBus_heldDevs s src), h.child, fun q hslot hsrc => ?_,
    fun k hk q => ?_⟩
  · rw [← busAt_useBus s hsrc]
    exact h.others q hslot
  · have hbase : busBase (useBus s src) (some k) = none := by
      rw [hk, useBus, busBase_releaseBus, if_pos rfl]
    rw [busAt_answer, busAt, busBase_updateBus, hbase, Option.map_none, ite_self]

/-- Settles O53, by whether the slot is empty: one child slot changes, then the host holds the child. -/
theorem removeBusEmptiesTheSlot : Obligations.RemoveBusEmptiesTheSlot := by
  intro s p b dst B hB
  refine ⟨fun hC => exec_busRemoveBus_empty hB hC dst, fun C hC => ?_⟩
  have h := setsBusSlot_updateBus (g := fun B => busEraseBus B b) hB (fun _ => rfl) (fun _ => rfl)
    (busChild_eraseBus · b)
  have hother : ∀ q : BusRef, q.base ≠ some dst →
      busAt (holdBus (updateBus s p (fun B => busEraseBus B b)) dst C) q =
        busAt (updateBus s p (fun B => busEraseBus B b)) q :=
    fun q hq => busAt_congr ((busBase_holdBus _ dst C q.base).trans (if_neg hq))
  refine ⟨_, exec_busRemoveBus_occupied hB hC dst, rfl, h.ca, h.pending, h.caller, h.heldFns, h.heldDevs, fun q => ?_,
    fun hp q => (hother ⟨p.base, p.path ++ b :: q⟩ hp).trans (h.child q), fun q hslot hq => ?_⟩
  · rw [busAt_answer, busAt, busBase_holdBus, if_pos rfl]
  · rw [busAt_answer, hother q hq]
    exact h.others q hslot

end Sys2Proof.Machine
end

section
/-! PROOFS. Routing (rules R183, R184 and R189 to R193): an access through a bus is an access to one named register, at
the bus itself or at its direct child. -/

namespace Sys2Proof.Machine

/-! ## Reads and writes through a bus -/

/-- The function that a coordinate issued against the bus `B` under the name `p` routes to (rule R189). -/
def routedFn (p : BusRef) (B : Bus) (b d f : Nat) : FnRef :=
  if b = B.number then .inDev (.node p d) f else .inDev (.node (below p b) d) f

section Access
variable {s : State} {p : BusRef} {B : Bus}

theorem busRead_eq_regAt (hB : busAt s p = some B) (b d f r : Nat) :
    busRead B b d f r = regAt s (routedFn p B b d f) r := by
  rw [busRead_eq, routedFn]
  split
  · exact (regAt_node s p B hB d f r).symm
  · have hchild := busAt_below s p B b hB
    cases hC : busChild B b with
    | none => exact (regAt_of_no_bus s _ (hchild.trans hC) d f r).symm
    | some C => exact (regAt_node s _ C (hchild.trans hC) d f r).symm

theorem exec_busRd (hB : busAt s p = some B) (b d f r : Nat) :
    exec (.busRd p b d f r) s = .next (answer s (.dword (regAt s (routedFn p B b d f) r))) := by
  rw [← busRead_eq_regAt hB]
  exact onNode_of_eq_some hB _

theorem exec_busWr (hB : busAt s p = some B) (b d f r o : Nat) (data : List Byte) :
    exec (.busWr p b d f r o data) s =
      .next (answer (updateFn s (routedFn p B b d f) (fun F => withSpace F (csWriteData F.cs r o data))) .nothing) := by
  rw [routedFn, ← updateBus_busWrite s p B hB]
  exact onNode_of_eq_some hB _

end Access

/-- A write to a register of the tree that is absent, or of a shape that DEV_WR drops, changes nothing (rule R164). -/
theorem updateFn_csWriteData_of_dropped {s : State} {u : FnRef} {r o : Nat} {data : List Byte}
    (h : regAt s u r = none ∨ writeDropped o data.length = true) :
    updateFn s u (fun F => withSpace F (csWriteData F.cs r o data)) = s := by
  refine updateFn_eq_self s u _ fun F hF => ?_
  have hsame : csWriteData F.cs r o data = F.cs := by
    rcases h with habsent | hdropped
    · exact csWriteData_of_absent _ (csRead32_eq_none.1 ((regAt_of_fnAt hF r).symm.trans habsent)) _ _
    · exact csWriteData_of_dropped _ _ _ _ hdropped
  rw [hsame]
  rfl

/-- Settles O54. -/
theorem busReadResolvesWithinOneLevel : Obligations.BusReadResolvesWithinOneLevel := by
  intro s p B b d f r hB
  rw [exec_busRd hB, routedFn, apply_ite (regAt s · r)]

/-- Settles O55: the access is a write of one register in the tree. -/
theorem busWriteResolvesWithinOneLevel : Obligations.BusWriteResolvesWithinOneLevel := by
  intro s p B b d f r o data hB target
  have h := writesRegister_updateFn s target r (csRead32_csWriteData_eq · r o data)
  refine ⟨_, exec_busWr hB b d f r o data, h.bare, h.frame, fun hdropped => ?_, fun hfits heven v hv => ?_⟩
  · rw [← writeDropped_iff] at hdropped
    exact congrArg (answer · .nothing) (updateFn_csWriteData_of_dropped hdropped)
  · have htaken : writeDropped o data.length = false :=
      Bool.eq_false_iff.2 fun h => (writeDropped_iff.1 h).elim (not_lt.2 hfits) heven
    refine ⟨setLanes v o data, ?_, fun j hj => extract_setLanes v hfits hj⟩
    rw [routedFn, h.target, hv, Option.map_some, if_pos htaken]

/-- Settles O56: both accesses route to the child's own functions. -/
theorem routingThroughAParentEqualsRoutingAtTheChild : Obligations.RoutingThroughAParentEqualsRoutingAtTheChild := by
  intro s p B C b d f r hB hC hb
  have hchild : busAt s (below p b) = some C := (busAt_below s p B b hB).trans hC
  have hroute : routedFn p B b d f = routedFn (below p b) C b d f := by
    rw [routedFn, if_neg hb, routedFn, if_pos (busChild_number hC).symm]
  refine ⟨?_, fun o data => ?_⟩
  · rw [exec_busRd hB, exec_busRd hchild, hroute]
  · rw [exec_busWr hB, exec_busWr hchild, hroute]

/-! ## A child with its parent's number (rule R191) -/

/-- Routing from a bus does not see a child that has the bus's own number. -/
theorem busRead_insertBus_shadowed {B C : Bus} (h : C.number = B.number) (b d f r : Nat) :
    busRead (busInsertBus B C) b d f r = busRead B b d f r := by
  rw [busRead_eq, busRead_eq, busInsertBus_number]
  split
  · rfl
  · next hb => rw [busChild_insertBus, if_neg (h ▸ hb)]

/-- A write from a bus leaves a child that has the bus's own number as it is. -/
theorem busChild_busWrite_shadowed (B : Bus) (b d f r o : Nat) (data : List Byte) :
    busChild (busWrite B b d f r o data) B.number = busChild B B.number := by
  rw [busWrite_eq, reachPath]
  split
  · rfl
  · next hb =>
    exact (busChild_updateAt (fun C => busUpdateDev C d (fun D => deviceWrite D f r o data)) (fun _ => rfl) b B.number
      [] B).trans (if_neg (Ne.symm hb))

/-- An add of a shadowed child leaves a bus from which every coordinate reads as before. -/
theorem busAddBus_shadowed {s t : State} {p : BusRef} {src : BusSrc} {B C : Bus} (hB : busAt s p = some B)
    (hC : srcBus s src = some C) (hnumber : C.number = B.number) (h : exec (.busAddBus p src) s = .next t)
    (hok : t.reply = .ok) :
    ∃ B', busAt t p = some B' ∧ ∀ b d f r, busRead B' b d f r = busRead B b d f r := by
  obtain ⟨E, F, hF, hE, rfl⟩ := busAddBus_ok h hok
  cases hC.symm.trans hF
  cases hB.symm.trans (busAt_of_useBus hE)
  refine ⟨busInsertBus B C, ?_, busRead_insertBus_shadowed hnumber⟩
  rw [busAt_answer, busAt_updateBus_self _ p (fun B => busInsertBus B C) (fun _ => rfl), hE, Option.map_some]

theorem busAt_child_of_root (s : State) (b : Nat) : busAt s ⟨none, [b]⟩ = busChild s.root b :=
  busAt_below s ⟨none, []⟩ s.root b rfl

/-- A guest's write leaves a child of Bus 0 that has Bus 0's number as it is. -/
theorem busChild_portWrite_shadowed (s : State) (o : Nat) (data : List Byte) :
    busChild (portWrite s o data).root s.root.number = busChild s.root s.root.number := by
  unfold portWrite
  split
  · split
    · obtain ⟨v, hv⟩ := setAddress_eq s o data
      rw [hv, setCa_root]
    · unfold writeSpace
      split
      · exact busChild_busWrite_shadowed _ _ _ _ _ _ _
      · rfl
  · rfl

/-- Settles O57: the local check comes first, so neither a read nor a write reaches the child. -/
theorem shadowedChildIsNeverReached : Obligations.ShadowedChildIsNeverReached := by
  refine ⟨fun s t p src B C hB hC hnumber hadd hok => ?_, fun s t p B b d f r o data hB hwrite => ?_,
    fun s t o data hwrite => ?_⟩
  · obtain ⟨B', hB', hread⟩ := busAddBus_shadowed hB hC hnumber hadd hok
    refine ⟨fun b d f r => ⟨busRead B b d f r, onNode_of_eq_some hB _, ?_⟩, ?_⟩
    · rw [← hread]
      exact onNode_of_eq_some hB' _
    · rintro rfl ca o n
      cases hB
      cases hB'
      have hspace : readSpace (setCa s ca) = readSpace (setCa t ca) :=
        readSpace_congr rfl fun b d f r _ _ _ _ => congrArg (·.getD allOnes) (hread b d f r).symm
      have hport := portRead_congr (s := setCa s ca) (t := setCa t ca) rfl hspace o n
      refine ⟨portRead (setCa s ca) o n, exec_guestRead o n _, ?_⟩
      rw [hport]
      exact exec_guestRead o n _
  · obtain ⟨E, hE, hwrite⟩ := onNode_eq_next.1 hwrite
    cases hwrite
    have hself : busAt (updateBus s p fun B => busWrite B b d f r o data) p = some (busWrite B b d f r o data) := by
      rw [busAt_updateBus_self s p _ (fun _ => busWrite_number ..), hB, Option.map_some]
    rw [busAt_answer, busAt_below _ p _ _ hself, busAt_below s p B _ hB]
    exact busChild_busWrite_shadowed B b d f r o data
  · rw [exec_guestWrite] at hwrite
    cases hwrite
    rw [busAt_child_of_root, busAt_child_of_root]
    exact busChild_portWrite_shadowed s o data

/-! ## What a guest does not reach (rules R189, R213 and R272) -/

section Unreached
variable {s : State}

/-- Where the data window's dword is all ones, every read of the data window is all ones. -/
theorem portRead_of_readSpace_allOnes (h : readSpace s = allOnes) {o : Nat} (ho : 4 ≤ o) (n : Nat) :
    portRead s o n = List.replicate n 0xFF#8 := by
  unfold portRead
  split
  · next hshape =>
    obtain ⟨-, -, hsub⟩ := (wellShaped_iff o n).1 hshape
    rw [if_neg (not_lt.2 ho), h]
    exact bytesLE_allOnes (o % 4) n (by omega)
  · rfl

/-- `CA` selects a function of a bus that Bus 0 does not reach. -/
theorem fnAt_guestTarget_of_unreached (hroot : caBus s.ca ≠ s.root.number)
    (hchild : busAt s ⟨none, [caBus s.ca]⟩ = none) : fnAt s (guestTarget s) = none := by
  rw [guestTarget, guestBus, if_neg hroot, fnAt, devAt, hchild]

theorem readSpace_of_no_target (h : fnAt s (guestTarget s) = none) : readSpace s = allOnes := by
  rw [readSpace_eq, regAt, h]
  exact ite_self _

theorem portWrite_of_no_target (h : fnAt s (guestTarget s) = none) {o : Nat} (ho : 4 ≤ o) (data : List Byte) :
    portWrite s o data = s := by
  have hspace : writeSpace s (o - 4) data = s := by rw [writeSpace_eq, updateFn_of_none s _ _ h, ite_self]
  rw [portWrite, if_neg (not_lt.2 ho), hspace, ite_self]

end Unreached

/-- Settles O58: `CA` selects no function, so there is nothing to read or to write. -/
theorem guestsReachOnlyBusZeroAndItsChildren : Obligations.GuestsReachOnlyBusZeroAndItsChildren := by
  intro s hroot hchild
  have hnone := fnAt_guestTarget_of_unreached hroot hchild
  refine ⟨fun o n _ ho => ?_, fun o data ho => ?_⟩
  · rw [exec_guestRead, portRead_of_readSpace_allOnes (readSpace_of_no_target hnone) ho]
  · rw [exec_guestWrite, portWrite_of_no_target hnone ho]

end Sys2Proof.Machine
end

section
/-! PROOFS. The RootComplex operations (43_root_complex.md, rules R210 to R218) and the guest writes that call them:
an address write sets lanes of `CA`, and a data write is BUS_WR at Bus 0. -/

namespace Sys2Proof.Machine

/-! ## What each operation does -/

theorem exec_rcSetAddr (o : Nat) (data : List Byte) (s : State) :
    exec (.rcSetAddr o data) s = .next (answer (setAddress s o data) .nothing) := rfl

theorem exec_rcParseAddr (s : State) :
    exec .rcParseAddr s = .next (answer s (.coordinate (parseAddress s.ca))) := rfl

theorem exec_rcReadSpace (s : State) : exec .rcReadSpace s = .next (answer s (.space (readSpace s))) := rfl

theorem exec_rcWriteSpace (o : Nat) (data : List Byte) (s : State) :
    exec (.rcWriteSpace o data) s = .next (answer (writeSpace s o data) .nothing) := rfl

/-! ## `CA` (rules R210, R211, R216 and R218) -/

/-- RC_SET_ADDR past the register is dropped (rule R210). -/
theorem setAddress_of_past (s : State) {o : Nat} {data : List Byte} (h : o + data.length > 4) :
    setAddress s o data = s := if_pos h

theorem setAddress_of_fits (s : State) {o : Nat} {data : List Byte} (h : o + data.length ≤ 4) :
    setAddress s o data = setCa s (setLanes s.ca o data) := if_neg (not_lt.2 h)

/-- The fields of `CA` (rule R31) by arithmetic on its value. -/
theorem parseAddress_eq (ca : Dword) :
    parseAddress ca = ⟨ca.toNat / 2 ^ 16 % 256, ca.toNat / 2 ^ 11 % 32, ca.toNat / 2 ^ 8 % 8, ca.toNat / 4 % 64⟩ := by
  simp only [parseAddress, caBus, caDevice, caFunction, caRegister, BitVec.extractLsb'_toNat, Nat.shiftRight_eq_div_pow,
    Nat.reducePow]

/-- The enable bit is the top bit of `CA`. -/
theorem caEnabled_eq_false_iff (ca : Dword) : caEnabled ca = false ↔ ca.toNat < 2 ^ 31 := by
  rw [caEnabled, ← BitVec.msb_eq_getLsbD_last ca, BitVec.msb_eq_false_iff_two_mul_lt]
  omega

/-- Settles O13: RC_NEW replaces `CA` and Bus 0 and no other field (rule R218). -/
theorem rcNewConstructsTheResetBlock : Obligations.RcNewConstructsTheResetBlock := fun _ => rfl

/-- Settles O27, as the contrapositive of the frame of `CA`. -/
theorem onlyAddressWritesChangeCA : Obligations.OnlyAddressWritesChangeCA := by
  intro i s t h hne
  by_contra hi
  exact hne (exec_ca h (Bool.eq_false_iff.2 hi))

/-- Settles O19: every address write is RC_SET_ADDR, by whether it fits the register. -/
theorem addressWritesSetTheLanesOfCA : Obligations.AddressWritesSetTheLanesOfCA := by
  intro s effect
  have hset : ∀ o data, effect (.rcSetAddr o data) o data := by
    intro o data
    have hexec := exec_rcSetAddr o data s
    rcases Nat.lt_or_ge 4 (o + data.length) with hpast | hfits
    · rw [setAddress_of_past s hpast] at hexec
      exact ⟨s.ca, hexec, fun _ => rfl, fun h => absurd hpast (not_lt.2 h)⟩
    · rw [setAddress_of_fits s hfits] at hexec
      exact ⟨setLanes s.ca o data, hexec, fun h => absurd h (not_lt.2 hfits),
        fun _ j hj => extract_setLanes s.ca hfits hj⟩
  exact ⟨fun k v => hset k [v], fun k v0 v1 => hset k [v0, v1], fun k v0 v1 v2 => hset k [v0, v1, v2],
    fun v0 v1 v2 v3 => hset 0 [v0, v1, v2, v3], hset⟩

/-! ## The register that `CA` selects (rules R212 to R215) -/

/-- Settles O23: each operation tests the enable bit first (rule R215). -/
theorem disabledMechanismIsInert : Obligations.DisabledMechanismIsInert := by
  intro s h
  refine ⟨?_, fun o data => ?_⟩
  · rw [exec_rcReadSpace, readSpace_of_disabled h]
    rfl
  · rw [exec_rcWriteSpace, writeSpace_of_disabled h]

/-- Settles O60, by whether the mechanism is enabled. -/
theorem rootComplexReads : Obligations.RootComplexReads := by
  intro s
  have hregister : caRegister s.ca = s.ca.toNat / 4 % 64 := congrArg Coordinate.register (parseAddress_eq s.ca)
  refine ⟨?_, ?_⟩
  · rw [exec_rcParseAddr, parseAddress_eq]
  · rw [exec_rcReadSpace]
    by_cases hlow : s.ca.toNat < 2 ^ 31
    · rw [readSpace_of_disabled ((caEnabled_eq_false_iff s.ca).2 hlow), if_pos hlow]
      rfl
    · have henabled : caEnabled s.ca = true := Bool.not_eq_false _ ▸ mt (caEnabled_eq_false_iff s.ca).1 hlow
      rw [readSpace_eq, if_pos henabled, hregister, if_neg hlow]
      rfl

/-- RC_WRITE_SPACE, when enabled, is BUS_WR of the coordinate in `CA` issued at Bus 0 (rule R214). -/
theorem exec_rcWriteSpace_of_enabled {s : State} (h : s.ca.getLsbD 31 = true) (o : Nat) (data : List Byte) :
    exec (.rcWriteSpace o data) s =
      exec (.busWr ⟨none, []⟩ (caBus s.ca) (caDevice s.ca) (caFunction s.ca) (caRegister s.ca) o data) s := by
  have henabled : caEnabled s.ca = true := h
  rw [exec_rcWriteSpace, writeSpace, if_pos henabled]
  rfl

/-- The guest's target is the function that the coordinate in `CA` routes to from Bus 0 (rule R189). -/
theorem guestTarget_eq_routedFn (s : State) :
    guestTarget s = routedFn ⟨none, []⟩ s.root (caBus s.ca) (caDevice s.ca) (caFunction s.ca) := by
  unfold guestTarget guestBus routedFn
  split <;> rfl

/-- Settles O20: every data write is RC_WRITE_SPACE, which is dropped while disabled and otherwise is the bus write of
O55 at Bus 0. -/
theorem dataWritesSetTheLanesOfTheSelectedRegister : Obligations.DataWritesSetTheLanesOfTheSelectedRegister := by
  intro s
  rw [guestTarget_eq_routedFn s]
  intro target r effect
  have hwrite : ∀ o data, effect (.rcWriteSpace o data) o data := by
    intro o data
    cases hca : s.ca.getLsbD 31 with
    | false =>
      obtain ⟨-, hdropped⟩ := disabledMechanismIsInert s hca
      exact ⟨answer s .nothing, hdropped o data, rfl, fun _ _ _ => rfl, fun _ => rfl,
        fun hon => nomatch hca.symm.trans hon⟩
    | true =>
      obtain ⟨t, hexec, hbare, hframe, hdrop, hlanes⟩ :=
        busWriteResolvesWithinOneLevel s ⟨none, []⟩ s.root (caBus s.ca) (caDevice s.ca) (caFunction s.ca) r o data rfl
      exact ⟨t, (exec_rcWriteSpace_of_enabled hca o data).trans hexec, hbare, hframe,
        fun h => hdrop (h.resolve_left fun hoff => nomatch hca.symm.trans hoff), fun _ => hlanes⟩
  exact ⟨fun k v => hwrite k [v], fun k v0 v1 => hwrite k [v0, v1], fun k v0 v1 v2 => hwrite k [v0, v1, v2],
    fun v0 v1 v2 v3 => hwrite 0 [v0, v1, v2, v3], hwrite⟩

end Sys2Proof.Machine
end

section
/-! PROOFS. The port transactions (44_port_transactions.md): the generic contract of reads and writes (rules R230 and
R231), the bytes that each read row returns, and the disabled data window. -/

namespace Sys2Proof.Machine

/-! ## The window test for writes adds no behaviour (rule R231) -/

/-- RC_SET_ADDR of no byte writes no lane. -/
theorem setAddress_nil (s : State) (o : Nat) : setAddress s o [] = s := ite_self _

/-- DEV_WR of no byte writes no lane. -/
theorem csWriteData_nil (cs : ConfigSpace) (r o : Nat) : csWriteData cs r o [] = cs := ite_self _

/-- RC_WRITE_SPACE of no byte writes no lane. -/
theorem writeSpace_nil (s : State) (o : Nat) : writeSpace s o [] = s := by
  rw [writeSpace_eq, updateFn_eq_self s _ _ fun F _ => congrArg (withSpace F) (csWriteData_nil F.cs _ o), ite_self]

/-- A span that starts in the address sub-window and is not well-shaped is empty, or RC_SET_ADDR drops it. -/
theorem portWrite_of_low (s : State) {o : Nat} (ho : o < 4) (data : List Byte) :
    portWrite s o data = setAddress s o data := by
  by_cases hshape : wellShaped o data.length = true
  · rw [portWrite, if_pos hshape, if_pos ho]
  · rw [portWrite, if_neg hshape]
    rw [wellShaped_iff] at hshape
    rcases Nat.eq_zero_or_pos data.length with hempty | hn
    · obtain rfl := List.length_eq_zero_iff.1 hempty
      exact (setAddress_nil s o).symm
    · exact (setAddress_of_past s (by omega)).symm

/-- A span that starts at offset 4 or up and is not well-shaped is empty, or RC_WRITE_SPACE drops it on its way. -/
theorem portWrite_of_high (s : State) {o : Nat} (ho : 4 ≤ o) (data : List Byte) :
    portWrite s o data = writeSpace s (o - 4) data := by
  by_cases hshape : wellShaped o data.length = true
  · rw [portWrite, if_pos hshape, if_neg (not_lt.2 ho)]
  · rw [portWrite, if_neg hshape]
    rw [wellShaped_iff] at hshape
    rcases Nat.eq_zero_or_pos data.length with hempty | hn
    · obtain rfl := List.length_eq_zero_iff.1 hempty
      exact (writeSpace_nil s (o - 4)).symm
    · exact (writeSpace_of_dropped s (o - 4) data (writeDropped_iff.2 (.inl (by omega)))).symm

/-- Settles O15: the contract is `portRead` written out. -/
theorem guestReadsMeetThePortContract : Obligations.GuestReadsMeetThePortContract := exec_guestRead

/-- Settles O16: the contract is `portWrite` written out, and on either side of offset 4 that is the write of that
sub-window, whatever the length. -/
theorem guestWritesMeetThePortContract : Obligations.GuestWritesMeetThePortContract := by
  intro o data s
  have hwrite := exec_guestWrite o data s
  exact ⟨hwrite, fun ho => portWrite_of_low s ho data ▸ hwrite, fun ho => portWrite_of_high s ho data ▸ hwrite⟩

/-! ## Adjacent lanes as one bit field (rule R14) -/

theorem lane_pair (v : Dword) (k : Nat) : lane v (k + 1) ++ lane v k = v.extractLsb' (8 * k) 16 :=
  BitVec.extractLsb'_append_extractLsb'_eq_extractLsb' (Nat.mul_succ 8 k)

theorem lane_triple (v : Dword) (k : Nat) :
    lane v (k + 2) ++ lane v (k + 1) ++ lane v k = v.extractLsb' (8 * k) 24 := by
  rw [lane_pair v (k + 1)]
  exact BitVec.extractLsb'_append_extractLsb'_eq_extractLsb' (Nat.mul_succ 8 k)

/-- Settles O17: each row returns adjacent lanes of `CA` (rules R232 to R235). -/
theorem addressReadsReturnTheLanesOfCA : Obligations.AddressReadsReturnTheLanesOfCA := fun s =>
  ⟨fun _ => rfl, fun k => ⟨_, _, rfl, lane_pair s.ca k⟩, fun k => ⟨_, _, _, rfl, lane_triple s.ca k⟩,
    ⟨_, _, _, _, rfl, le32_lanes s.ca⟩⟩

/-- Settles O18: each row returns adjacent lanes of the dword that RC_READ_SPACE finds (rules R240 to R243), and that is
the register of the guest's target, or all ones. -/
theorem dataReadsReturnTheLanesOfTheSelectedRegister : Obligations.DataReadsReturnTheLanesOfTheSelectedRegister := by
  intro s w hw
  obtain rfl : readSpace s = w := (readSpace_eq s).trans hw.symm
  exact ⟨fun _ => rfl, fun k => ⟨_, _, rfl, lane_pair _ k⟩, fun k => ⟨_, _, _, rfl, lane_triple _ k⟩,
    ⟨_, _, _, _, rfl, le32_lanes _⟩⟩

/-! ## Reads of ones and dropped writes (rules R248, R249 and R251) -/

/-- Settles O21: neither row looks at the state. -/
theorem malformedSpansReadOnesAndDropWrites : Obligations.MalformedSpansReadOnesAndDropWrites := fun _ =>
  ⟨fun _ _ => rfl, fun _ _ => rfl⟩

/-- Settles O22: every data-window access is one of the window, and the disabled window is closed. -/
theorem disabledDataWindow : Obligations.DisabledDataWindow := by
  intro s hs
  refine ⟨fun o n _ ho => ?_, fun o data ho => ?_⟩
  · rw [exec_guestRead, portRead_of_disabled hs ho]
  · rw [exec_guestWrite, portWrite_of_disabled hs ho]

end Sys2Proof.Machine
end

section
/-! PROOFS. Structural errors (60_exceptions.md, rules R270 to R275): which operations raise them and what they leave,
and that a guest raises none and reaches no more than `CA` and the registers below 64 (rules R273, R274 and R281). -/

namespace Sys2Proof.Machine

/-! ## The two checks of an add (rule R275) -/

/-- An error of an add is the error of one of its checks, and it changes nothing (rule R271). -/
theorem checkedAdd_error {number bound : Nat} {full : Bool} {s v t : State} {e e₁ e₂ : StructuralError}
    (h : (if number ≥ bound then raise s e₁ else if full then raise s e₂ else .next (answer v .ok)) = .next t)
    (he : t.reply = .error e) : (e = e₁ ∨ e = e₂) ∧ t = answer s (.error e) := by
  split at h
  · cases h; cases he; exact ⟨.inl rfl, rfl⟩
  · split at h
    · cases h; cases he; exact ⟨.inr rfl, rfl⟩
    · cases h; cases he

/-- The number check speaks whatever the slot holds, and the slot check speaks for a number in range. -/
theorem checkedAdd_checks {number bound : Nat} {full : Bool} {s v : State} {e₁ e₂ : StructuralError} {r : Result}
    (h : r = if number ≥ bound then raise s e₁ else if full then raise s e₂ else .next (answer v .ok)) :
    (bound ≤ number → r = .next (answer s (.error e₁))) ∧
      (number < bound → full = true → r = .next (answer s (.error e₂))) :=
  ⟨fun hpast => h.trans (if_pos hpast), fun hn hfull => h.trans ((if_neg (not_le.2 hn)).trans (if_pos hfull))⟩

theorem exec_devAddFn {s : State} {u : DevRef} {D : Device} {F : Function} (src : FnSrc) (hD : devAt s u = some D)
    (hF : srcFn s src = some F) :
    exec (.devAddFn u src) s =
      if F.number ≥ Config.maxFunctionNumber then raise s .invalidFunctionNumber
      else if (deviceFn D F.number).isSome then raise s .functionSlotInUse
      else .next (answer (useFn (updateDev s u (fun D => deviceInsertFn D F)) src) .ok) :=
  (onNode_of_eq_some hD _).trans (onNode_of_eq_some hF _)

theorem exec_busAddBus {s : State} {p : BusRef} {B C : Bus} (src : BusSrc) (hC : srcBus s src = some C)
    (hB : busAt (useBus s src) p = some B) :
    exec (.busAddBus p src) s =
      if C.number ≥ Config.maxBusNumber then raise s .invalidBusNumber
      else if (busChild B C.number).isSome then raise s .busSlotInUse
      else .next (answer (updateBus (useBus s src) p (fun B => busInsertBus B C)) .ok) :=
  (onNode_of_eq_some hC _).trans (onNode_of_eq_some hB _)

/-- Settles O35: the three adds make the same two checks in the same order. -/
theorem addChecksNumberThenSlot : Obligations.AddChecksNumberThenSlot :=
  ⟨fun _ _ src _ _ hC hB => checkedAdd_checks (exec_busAddBus src hC hB),
    fun _ _ src _ _ hB hD => checkedAdd_checks (exec_busAddDev src hB hD),
    fun _ _ src _ _ hD hF => checkedAdd_checks (exec_devAddFn src hD hF)⟩

/-! ## Which operations raise a structural error (rules R270 and R274) -/

/-- The errors of an add's number check and of its slot check (rule R270). -/
inductive ChecksOfAdd : Instr → StructuralError → StructuralError → Prop where
  | bus (p : BusRef) (src : BusSrc) : ChecksOfAdd (.busAddBus p src) .invalidBusNumber .busSlotInUse
  | device (p : BusRef) (src : DevSrc) : ChecksOfAdd (.busAddDev p src) .invalidDeviceNumber .deviceSlotInUse
  | function (u : DevRef) (src : FnSrc) : ChecksOfAdd (.devAddFn u src) .invalidFunctionNumber .functionSlotInUse

/-- An operation that returns an error is an add, the error is that of one of its checks, and nothing else changes. -/
theorem exec_error {i : Instr} {s t : State} {e : StructuralError} (h : exec i s = .next t)
    (he : t.reply = .error e) :
    ∃ e₁ e₂, ChecksOfAdd i e₁ e₂ ∧ (e = e₁ ∨ e = e₂) ∧ t = answer s (.error e) := by
  cases i with
  | busAddBus p src =>
    obtain ⟨C, -, h⟩ := onNode_eq_next.1 h
    obtain ⟨B, -, h⟩ := onNode_eq_next.1 h
    exact ⟨_, _, .bus p src, checkedAdd_error h he⟩
  | busAddDev p src =>
    obtain ⟨B, -, h⟩ := onNode_eq_next.1 h
    obtain ⟨D, -, h⟩ := onNode_eq_next.1 h
    exact ⟨_, _, .device p src, checkedAdd_error h he⟩
  | devAddFn u src =>
    obtain ⟨D, -, h⟩ := onNode_eq_next.1 h
    obtain ⟨F, -, h⟩ := onNode_eq_next.1 h
    exact ⟨_, _, .function u src, checkedAdd_error h he⟩
  | csRd8 | csWr8 | csRd16 | csWr16 | csRd32 | csWr32 | devGetFn | devRd | devWr | busGetBus | busGetDev | busRd
  | busWr =>
    obtain ⟨_, -, h⟩ := onNode_eq_next.1 h
    cases h; cases he
  | devRemoveFn | busRemoveBus | busRemoveDev =>
    obtain ⟨_, -, h⟩ := onNode_eq_next.1 h
    split at h <;> (cases h; cases he)
  | _ => cases h; cases he

/-- Settles O32. -/
theorem structuralErrorsChangeNothing : Obligations.StructuralErrorsChangeNothing := by
  intro i s t e h he
  obtain ⟨_, _, -, -, ht⟩ := exec_error h he
  exact ht

/-- Settles O33, by the add whose check the error belongs to. -/
theorem onlyAddsRaiseErrors : Obligations.OnlyAddsRaiseErrors := by
  intro i s t e h he
  obtain ⟨_, _, hadd, hcheck, -⟩ := exec_error h he
  cases hadd with
  | bus p src => exact ⟨rfl, .inl ⟨⟨p, src, rfl⟩, hcheck⟩⟩
  | device p src => exact ⟨rfl, .inr (.inl ⟨⟨p, src, rfl⟩, hcheck⟩)⟩
  | function u src => exact ⟨rfl, .inr (.inr ⟨⟨u, src, rfl⟩, hcheck⟩)⟩

/-! ## What a guest transaction can do (rules R61, R273 and R281) -/

/-- The states a guest transaction can leave, apart from its reply: it changed nothing, wrote `CA`, or wrote the
register that `CA` selects. -/
inductive GuestEffect (s : State) : State → Prop where
  | nothing : GuestEffect s s
  | address (v : Dword) : GuestEffect s (setCa s v)
  | data (o : Nat) (data : List Byte) : GuestEffect s (writeSpace s o data)

theorem GuestEffect.setAddress (s : State) (o : Nat) (data : List Byte) : GuestEffect s (setAddress s o data) := by
  obtain ⟨v, hv⟩ := setAddress_eq s o data
  exact hv ▸ .address v

/-- A guest transaction completes in every state, with one of the effects of `GuestEffect` (rule R273). -/
theorem exec_of_isGuest {i : Instr} (hi : i.isGuest = true) (s : State) :
    ∃ v r, exec i s = .next (answer v r) ∧ GuestEffect s v := by
  cases i with
  | cfgAddrRd8 | cfgAddrRd16 | cfgAddrRd24 | cfgAddrRd32 | cfgDataRd8 | cfgDataRd16 | cfgDataRd24 | cfgDataRd32
  | portRdBad | portWrBad => exact ⟨s, _, rfl, .nothing⟩
  | cfgAddrWr8 | cfgAddrWr16 | cfgAddrWr24 | cfgAddrWr32 => exact ⟨_, _, rfl, .setAddress s _ _⟩
  | cfgDataWr8 | cfgDataWr16 | cfgDataWr24 | cfgDataWr32 => exact ⟨_, _, rfl, .data _ _⟩
  | _ => cases hi

/-- No guest transaction is one of the operations that change the topology (rule R30). -/
theorem changesTopology_of_isGuest {i : Instr} (hi : i.isGuest = true) : changesTopology i = false := by
  cases i with
  | rcNew | fnNewT0 | fnNewT1 | devNew | devNewDummy | busNew | devAddFn | devRemoveFn | busAddBus | busAddDev
  | busRemoveBus | busRemoveDev => cases hi
  | _ => rfl

theorem writeSpace_held (s : State) (o : Nat) (data : List Byte) :
    (writeSpace s o data).heldFns = s.heldFns ∧ (writeSpace s o data).heldDevs = s.heldDevs ∧
      (writeSpace s o data).heldBuses = s.heldBuses := by
  unfold writeSpace
  split <;> exact ⟨rfl, rfl, rfl⟩

@[simp] theorem regAt_setCa (s : State) (v : Dword) (u : FnRef) (r : Nat) : regAt (setCa s v) u r = regAt s u r := by
  simp only [regAt, fnAt_setCa]

@[simp] theorem fnAt_taken (s : State) (rest : List Request) (a : Agent) (u : FnRef) :
    fnAt (taken s rest a) u = fnAt s u := by
  cases u with
  | held h => rfl
  | inDev w f => cases w <;> rfl

@[simp] theorem regAt_taken (s : State) (rest : List Request) (a : Agent) (u : FnRef) (r : Nat) :
    regAt (taken s rest a) u r = regAt s u r := by
  simp only [regAt, fnAt_taken]

/-- The register field of `CA` has six bits, so no data write reaches a register from 64 on (rule R61). -/
theorem regAt_writeSpace_of_le (s : State) (o : Nat) (data : List Byte) (u : FnRef) {r : Nat} (hr : 64 ≤ r) :
    regAt (writeSpace s o data) u r = regAt s u r := by
  obtain ⟨-, -, -, -, hwrite⟩ := dataWritesSetTheLanesOfTheSelectedRegister s
  obtain ⟨t, hexec, -, hframe, -⟩ := hwrite o data
  cases hexec
  have hother : (u, r) ≠ (guestTarget s, caRegister s.ca) := fun h =>
    absurd (caRegister_lt s.ca) (not_lt.2 (hr.trans_eq (congrArg Prod.snd h)))
  exact (regAt_answer _ .nothing u r).symm.trans (hframe u r hother)

theorem GuestEffect.held {s v : State} (h : GuestEffect s v) :
    v.heldFns = s.heldFns ∧ v.heldDevs = s.heldDevs ∧ v.heldBuses = s.heldBuses := by
  cases h with
  | nothing | address => exact ⟨rfl, rfl, rfl⟩
  | data o data => exact writeSpace_held s o data

theorem GuestEffect.regAt {s v : State} (h : GuestEffect s v) (u : FnRef) {r : Nat} (hr : 64 ≤ r) :
    regAt v u r = regAt s u r := by
  cases h with
  | nothing => rfl
  | address w => exact regAt_setCa s w u r
  | data o data => exact regAt_writeSpace_of_le s o data u hr

/-- Settles O30: the topology by the frame over all operations, the rest by what a guest transaction can do. -/
theorem guestsReachOnlyTheLegacyRegisters : Obligations.GuestsReachOnlyTheLegacyRegisters := by
  intro i s t hi h
  have hbare := exec_stateBare h (changesTopology_of_isGuest hi)
  obtain ⟨v, r, hexec, heffect⟩ := exec_of_isGuest hi s
  cases hexec.symm.trans h
  obtain ⟨hfns, hdevs, hbuses⟩ := heffect.held
  exact ⟨hbare, hfns, hdevs, hbuses, fun u q hq => (regAt_answer v r u q).trans (heffect.regAt u hq)⟩

/-! ## A guest agent's step -/

/-- What a guest may present decodes to a guest transaction (rule R281). -/
theorem decode_of_requestLegal {n : Nat} {op : Op} (h : requestLegal ⟨.guest n, op⟩ = true) :
    ∃ i, decode op = .ok i ∧ i.isGuest = true := by
  unfold requestLegal at h
  split at h
  · next i hi => exact ⟨i, hi, (Bool.and_eq_true_iff.1 h).2⟩
  · cases h

/-- Settles O31: the step performs a guest transaction, which completes, is no add, and is confined by O30. -/
theorem legalGuestStepsAreConfined : Obligations.LegalGuestStepsAreConfined := by
  intro s n op rest hp hlegal
  obtain ⟨i, hdecode, hguest⟩ := decode_of_requestLegal hlegal
  obtain ⟨v, r, hexec, -⟩ := exec_of_isGuest hguest (taken s rest (.guest n))
  obtain ⟨hbare, -, -, -, hregs⟩ := guestsReachOnlyTheLegacyRegisters i _ _ hguest hexec
  refine ⟨answer v r, (step_of_operation hp hdecode).trans hexec, congrArg State.pending hbare,
    congrArg State.caller hbare, fun e he => ?_, congrArg State.root hbare,
    fun u q hq => (hregs u q hq).trans (regAt_taken s rest (.guest n) u q)⟩
  obtain ⟨hnotGuest, -⟩ := onlyAddsRaiseErrors i _ _ e hexec he
  exact Bool.false_ne_true (hnotGuest.symm.trans hguest)

end Sys2Proof.Machine
end
